-- ==== Sys2Proof/Word.lean ====
section
/-! DEFINITION. The machine's words: a byte and a 32-bit register word (00_scope R7, 10_state R51).
Byte order and bit fields stand in Machine/Bytes.lean. -/

namespace Sys2Proof

/-- A byte: 8 bits, unsigned (R7). -/
abbrev Byte := BitVec 8

/-- One 32-bit word of the register space (R51). -/
abbrev Word := BitVec 32

end Sys2Proof
end

