-- ==== Sys2Proof/Config.lean ====
section
/-! DEFINITION. What an implementation fixes (00_scope R6) and the free values (70_reset R291, R296).
The OPEN parameters have no value here: they are opaque, and a state carries them in its field `par`
(notes/assumptions/1.md), so that a claim about every state is a claim about every admissible choice. -/

namespace Sys2Proof.Config

/-- MAX_ENTRIES: a packet holds at most 25 entries (R6). -/
abbrev maxEntries : Nat := 25
/-- HEADER_LEN, in bytes (R6). -/
abbrev headerLen : Nat := 4
/-- ENTRY_LEN, in bytes, for both wire versions (R6). -/
abbrev entryLen : Nat := 20
/-- MAX_PKT_LEN = 4 + 25 × 20 (R6). -/
abbrev maxPktLen : Nat := 504
/-- OUT_CAP: the capacity of OUT (R6, R41). -/
abbrev outCap : Nat := 504
/-- The least admissible IN_CAP (R6). -/
abbrev minInCap : Nat := 505

/-- AFI_ERR_OFFSET_MODE: which offset UnknownAddressFamilyIdentifier reports (R6, R126). -/
inductive AfiErrOffsetMode where
  | secondByte   -- SECOND_BYTE, the spec's default: s + 1
  | onePast      -- ONE_PAST: s + 2
  deriving DecidableEq, Repr, Inhabited

/-- The OPEN parameters of R6. Which values are admissible is `Params.wf` (WellFormed.lean). -/
structure Params where
  /-- IN_CAP: the byte capacity of IN. -/
  inCap : Nat
  /-- W_LEN: the width of IN_LEN, CUR and ERR_OFFSET. -/
  wLen : Nat
  /-- AFI_ERR_OFFSET_MODE. -/
  afiMode : AfiErrOffsetMode
  deriving DecidableEq, Repr

/-- Picks W_LEN among its admissible values. OPEN (R6): no value is known here. -/
opaque wLenPick : Nat
/-- Picks IN_CAP among its admissible values. OPEN (R6): no value is known here. -/
opaque inCapPick : Nat
/-- The block's AFI_ERR_OFFSET_MODE. OPEN (R6, R126): no value is known here. -/
opaque afiErrOffsetMode : AfiErrOffsetMode

/-- W_LEN of the block after reset: any of 9 to 32 (505 ≤ IN_CAP < 2^W_LEN and W_LEN ≤ 32). -/
def wLen : Nat := 9 + wLenPick % 24
/-- IN_CAP of the block after reset: any of 505 to 2^W_LEN − 1. -/
def inCap : Nat := minInCap + inCapPick % (2 ^ wLen - minInCap)

/-- The block's parameters: every admissible choice is possible, none is known. -/
def params : Params := { inCap := inCap, wLen := wLen, afiMode := afiErrOffsetMode }

/-- FREE VALUE (R291): what byte `k` of IN holds after the reset numbered `epoch`, until the host writes it. -/
opaque inAfterReset (epoch k : Nat) : Byte
/-- FREE VALUE (R291): what byte `k` of OUT holds after the reset numbered `epoch`, until an operation writes it. -/
opaque outAfterReset (epoch k : Nat) : Byte
/-- FREE VALUE (R296): the word that the unspecified read numbered `draw` returns, before it is cut to the
register's width. -/
opaque busyRead (draw : Nat) : Word

end Sys2Proof.Config
end

