-- ==== Sys2Proof/Syntax.lean ====
section
/-! DEFINITION. The block's operations: one constructor per row of spec/opcode_table.json, in the table's
order (30_encoding R100). An operation has no operand field: it reads fixed named registers (10_state R21). -/

namespace Sys2Proof

/-- The 28 operations of the OP word (R100). -/
inductive Instr where
  | readByte    -- 0x01 READ_BYTE, R121
  | skipZero    -- 0x02 SKIP_ZERO, R122
  | decAfi      -- 0x10 DEC_AFI, R125
  | encAfi      -- 0x11 ENC_AFI, R127
  | decCmd      -- 0x12 DEC_CMD, R128
  | encCmd      -- 0x13 ENC_CMD, R129
  | decVer      -- 0x14 DEC_VER, R130
  | encVer      -- 0x15 ENC_VER, R131
  | decTag      -- 0x16 DEC_TAG, R132
  | encTag      -- 0x17 ENC_TAG, R133
  | decMetric   -- 0x18 DEC_METRIC, R134
  | encMetric   -- 0x19 ENC_METRIC, R135
  | decIpv4     -- 0x1A DEC_IPV4, R136
  | encIpv4     -- 0x1B ENC_IPV4, R137
  | decHdr      -- 0x20 DEC_HDR, R171
  | encHdr      -- 0x21 ENC_HDR, R172
  | decEnt1     -- 0x22 DEC_ENT1, R173
  | encEnt1     -- 0x23 ENC_ENT1, R174
  | decEnt2     -- 0x24 DEC_ENT2, R175
  | encEnt2     -- 0x25 ENC_ENT2, R176
  | makeV1      -- 0x30 MAKE_V1, R201
  | makeV2      -- 0x31 MAKE_V2, R202
  | parse       -- 0x40 PARSE, R220
  | parseV1     -- 0x41 PARSE_V1, R224
  | parseV2     -- 0x42 PARSE_V2, R225
  | serV1       -- 0x50 SER_V1, R227
  | serV2       -- 0x51 SER_V2, R228
  | serialize   -- 0x52 SERIALIZE, R229
  deriving DecidableEq, Repr

end Sys2Proof
end

