-- ==== Sys2Proof/WellFormed.lean ====
section
/-! DEFINITION. Well-formedness of what the model takes as given: an operation and the parameters of R6. -/

namespace Sys2Proof

/-- An operation has no operand field, so every term of Instr is well formed (10_state R21, 30_encoding R100). -/
def Instr.wf (_ : Instr) : Bool := true

/-- R6: IN_CAP is at least 505. -/
def Config.Params.inCapLargeEnough (p : Config.Params) : Bool := Config.minInCap ≤ p.inCap
/-- R6: 2^W_LEN > IN_CAP, so that IN_LEN fits. -/
def Config.Params.lenFits (p : Config.Params) : Bool := p.inCap < 2 ^ p.wLen
/-- R51: W_LEN ≤ 32, so that every register fits one word. -/
def Config.Params.lenInWord (p : Config.Params) : Bool := p.wLen ≤ 32

/-- The admissible parameters (R6, R51). -/
def Config.Params.wf (p : Config.Params) : Bool :=
  p.inCapLargeEnough && p.lenInWord && p.lenFits

end Sys2Proof
end

