-- ==== Sys2Proof/Decode.lean ====
section
/-! DEFINITION. Decoding the OP word (30_encoding R100 to R102): total on any bytes, every unassigned value refused
by name; and the encoder, written from the same table. -/

namespace Sys2Proof

/-- Why a byte sequence is no operation. -/
inductive DecodeReject where
  | noWord                   -- there is no OP word at all
  | unassigned (op : Byte)   -- R101: the value is not in the table of R100
  deriving DecidableEq, Repr

/-- R100: the operation that an OP word selects. The whole word decides (mask 0xFF); a value the table does not
list is illegal (R101). -/
def decodeOp (op : Byte) : Option Instr :=
  match op with
  | 0x01#8 => some .readByte
  | 0x02#8 => some .skipZero
  | 0x10#8 => some .decAfi
  | 0x11#8 => some .encAfi
  | 0x12#8 => some .decCmd
  | 0x13#8 => some .encCmd
  | 0x14#8 => some .decVer
  | 0x15#8 => some .encVer
  | 0x16#8 => some .decTag
  | 0x17#8 => some .encTag
  | 0x18#8 => some .decMetric
  | 0x19#8 => some .encMetric
  | 0x1A#8 => some .decIpv4
  | 0x1B#8 => some .encIpv4
  | 0x20#8 => some .decHdr
  | 0x21#8 => some .encHdr
  | 0x22#8 => some .decEnt1
  | 0x23#8 => some .encEnt1
  | 0x24#8 => some .decEnt2
  | 0x25#8 => some .encEnt2
  | 0x30#8 => some .makeV1
  | 0x31#8 => some .makeV2
  | 0x40#8 => some .parse
  | 0x41#8 => some .parseV1
  | 0x42#8 => some .parseV2
  | 0x50#8 => some .serV1
  | 0x51#8 => some .serV2
  | 0x52#8 => some .serialize
  | _ => none

/-- The decoder over bytes: one OP word from the front, and the rest. -/
def decode (bs : List Byte) : Except DecodeReject (Instr × List Byte) :=
  match bs with
  | [] => .error .noWord
  | op :: rest =>
    match decodeOp op with
    | some i => .ok (i, rest)
    | none => .error (.unassigned op)

/-- The group OP[7:4] of an operation (R100). -/
def opGroup (i : Instr) : BitVec 4 :=
  match i with
  | .readByte | .skipZero => 0
  | .decAfi | .encAfi | .decCmd | .encCmd | .decVer | .encVer => 1
  | .decTag | .encTag | .decMetric | .encMetric | .decIpv4 | .encIpv4 => 1
  | .decHdr | .encHdr | .decEnt1 | .encEnt1 | .decEnt2 | .encEnt2 => 2
  | .makeV1 | .makeV2 => 3
  | .parse | .parseV1 | .parseV2 => 4
  | .serV1 | .serV2 | .serialize => 5

/-- The function OP[3:0] of an operation (R100). In groups 1 and 2, bit 0 tells encode from decode and bits 3:1
select the field or the record. -/
def opFunction (i : Instr) : BitVec 4 :=
  match i with
  | .readByte => 1
  | .skipZero => 2
  | .decAfi => 0x0
  | .encAfi => 0x1
  | .decCmd => 0x2
  | .encCmd => 0x3
  | .decVer => 0x4
  | .encVer => 0x5
  | .decTag => 0x6
  | .encTag => 0x7
  | .decMetric => 0x8
  | .encMetric => 0x9
  | .decIpv4 => 0xA
  | .encIpv4 => 0xB
  | .decHdr => 0
  | .encHdr => 1
  | .decEnt1 => 2
  | .encEnt1 => 3
  | .decEnt2 => 4
  | .encEnt2 => 5
  | .makeV1 => 0
  | .makeV2 => 1
  | .parse => 0
  | .parseV1 => 1
  | .parseV2 => 2
  | .serV1 => 0
  | .serV2 => 1
  | .serialize => 2

/-- The OP word of an operation: OP[7:4] is the group and OP[3:0] the function (R100). -/
def opCode (i : Instr) : Byte := opGroup i ++ opFunction i

/-- The encoder: the bytes of an operation. -/
def encode (i : Instr) : List Byte := [opCode i]

/-- The first `nbits` bits of a table word as whole bytes, the first word being the least significant byte; at
least the one byte an operation has. -/
def tableWordBytes (nbits w : Nat) : List Byte := [BitVec.ofNat 8 (w % 2 ^ nbits)]

/-- What the decoder reads from an instruction whose bits are `w`, numbered as spec/opcode_table.json numbers them.
An OP word is one byte, so only bits 7 to 0 count. -/
def decodeTableWord (nbits w : Nat) : Option Instr :=
  match decode (tableWordBytes nbits w) with
  | .ok (i, _) => some i
  | .error _ => none

end Sys2Proof
end

