-- ==== Sys2Proof/Machine/State.lean ====
section
/-! DEFINITION. The machine's state as plain data (10_state), the value types it holds (10_state section 1), the
errors an operation raises (60_exceptions R260), the outcomes of the model, and the state after reset (70_reset R290). -/

namespace Sys2Proof.Machine

/-! ## Value types -/

/-- R23: an address-family identifier. -/
inductive Afi where
  | unspecified             -- wire value 0
  | ip                      -- wire value 2
  | authenticationPresent   -- wire value 65535
  | unknown                 -- the sentinel, without a wire value
  deriving DecidableEq, Repr

/-- R24: a command kind. Kinds 3 to 11 are named by their wire value, because no rule depends on their names. -/
inductive CommandKind where
  | invalid    -- wire value 0, a named kind
  | request    -- wire value 1
  | response   -- wire value 2
  | kind3 | kind4 | kind5 | kind6 | kind7 | kind8 | kind9 | kind10 | kind11
  | unknown    -- the sentinel, without a wire value
  deriving DecidableEq, Repr

/-- R25: a version. -/
inductive Version where
  | mustBeDiscarded   -- wire value 0
  | version1          -- wire value 1
  | version2          -- wire value 2
  | unknown           -- the sentinel, without a wire value
  deriving DecidableEq, Repr

/-- R26: an IPv4 address is exactly four octets, `o0` first on the wire. -/
structure Ipv4 where
  o0 : Byte
  o1 : Byte
  o2 : Byte
  o3 : Byte
  deriving DecidableEq, Repr

/-- R27: a header. Its two reserved bytes are not retained. -/
structure Header where
  command : CommandKind
  version : Version
  deriving DecidableEq, Repr

/-- R28: a v1 entry. -/
structure EntryV1 where
  afi : Afi
  address : Ipv4
  metric : BitVec 32
  deriving DecidableEq, Repr

/-- R28: a v2 entry. -/
structure EntryV2 where
  afi : Afi
  routeTag : BitVec 16
  address : Ipv4
  subnetMask : Ipv4
  nextHop : Ipv4
  metric : BitVec 32
  deriving DecidableEq, Repr

/-- R29: a packet with entries of one type. -/
structure Packet (ε : Type) where
  header : Header
  entries : List ε
  deriving DecidableEq, Repr

/-- The two packet types: PKT.KIND 0 is v1 and 1 is v2 (R47). -/
inductive PktKind where
  | v1
  | v2
  deriving DecidableEq, Repr

/-- R30: an envelope, the tagged union that PARSE produces. -/
inductive Envelope where
  | v1 (p : Packet EntryV1)
  | v2 (p : Packet EntryV2)
  deriving DecidableEq, Repr

/-- R46, R48: the six fields of ER and of one slot of PKT.ENT, in register form. The v2-only fields of a v1 entry
are no part of its value (D22). -/
structure Slot where
  afi : Afi
  tag : BitVec 16
  addr : BitVec 32
  mask : BitVec 32
  nh : BitVec 32
  metric : BitVec 32
  deriving DecidableEq, Repr

/-- The slot of reset: every field 0, AFI Unspecified (R290). -/
def Slot.zero : Slot := { afi := .unspecified, tag := 0, addr := 0, mask := 0, nh := 0, metric := 0 }

/-! ## Errors of the block -/

/-- The construction errors (R200, codes 0x21 and 0x22). -/
inductive CtorErr where
  | versionInHeaderConflicted
  | maxRipEntriesNumberExceeded
  deriving DecidableEq, Repr

/-- R260: every error an operation of the block can raise, with its payload. An error is NO stop of the model: the
operation completes with STATUS.FAIL = 1 (R262). -/
inductive Err where
  | insufficientInput (offset : Nat)
  | unknownCommandKind (byte : Byte) (offset : Nat)
  | unknownVersion (offset : Nat)
  | mustBeDiscardedVersion (offset : Nat)
  | notZeroByte (byte : Byte) (offset : Nat)
  | unknownAfi (value : BitVec 16) (offset : Nat)
  | emptyRipEntry (offset : Nat)
  | maxRipEntries (offset : Nat)
  | invalidPacket (cause : CtorErr)
  | serUnknownCommandKind
  | serUnknownVersion
  | serUnknownAfi
  | ctor (e : CtorErr)
  | illegalOp
  | noPacket
  | wrongPacketKind
  deriving DecidableEq, Repr

/-- Which results an operation writes, as R262 tells operations apart. -/
inductive ResultClass where
  | regs     -- registers only, or nothing (IllegalOp)
  | out      -- writes OUT: ENC_*, SER_V1, SER_V2, SERIALIZE
  | packet   -- writes PKT: MAKE_V1, MAKE_V2, PARSE, PARSE_V1, PARSE_V2
  deriving DecidableEq, Repr

/-! ## Host actions -/

/-- One bus action of the host (R103, R294), or the reset input (R292). -/
inductive BusAction where
  /-- Write a 32-bit word to the register space. -/
  | writeReg (n : Nat) (v : Word)
  /-- Read a word of the register space. -/
  | readReg (n : Nat)
  /-- Write one byte of the IN space. -/
  | writeIn (k : Nat) (b : Byte)
  /-- Read one byte of the IN space. -/
  | readIn (k : Nat)
  /-- Write one byte of the OUT space, which the block ignores (R41). -/
  | writeOut (k : Nat) (b : Byte)
  /-- Read one byte of the OUT space. -/
  | readOut (k : Nat)
  /-- Read STATUS until STATE = DONE (R103). -/
  | wait
  /-- Reset is asserted (R290 to R292). -/
  | reset
  deriving DecidableEq, Repr

/-! ## State -/

/-- R34: STATUS.STATE. The code 3 is reserved and never held. -/
inductive RunState where
  | idle   -- 0: no operation has completed since reset
  | busy   -- 1: an operation is in progress; the atomic model never enters it
  | done   -- 2: the last operation completed
  deriving DecidableEq, Repr

/-- Bytes by index, in canonical form: addresses strictly rising (`Memory.wf`). An unlisted address has no value of
its own (`Memory.unlisted`): no byte has been written there since reset. -/
abbrev Memory := List Host.Cell

/-- What an unlisted address of a memory reads as: no value. The buffers give such a byte the free value of R291
(Machine/Ops.lean, `State.inByte` and `State.outByte`), so reading it never stops the machine. -/
def Memory.unlisted : Option Byte := none

/-- The whole state: the registers of R32 to R49, the two buffers, the parameters of R6, and the host's own part. -/
structure State where
  /-- The OPEN parameters of R6; no step changes them. -/
  par : Config.Params
  /-- OP, R32. -/
  op : BitVec 8
  /-- STATUS.STATE, R34. -/
  runState : RunState
  /-- STATUS.FAIL, R34. -/
  fail : Bool
  /-- ERR_CODE, R35. -/
  errCode : BitVec 8
  /-- ERR_CAUSE, R36. -/
  errCause : BitVec 8
  /-- ERR_BYTE, R37. -/
  errByte : BitVec 8
  /-- ERR_VALUE, R38. -/
  errValue : BitVec 16
  /-- ERR_OFFSET, R39: W_LEN bits. -/
  errOffset : Nat
  /-- IN, R40: the bytes the host has written since reset. -/
  inMem : Memory
  /-- IN_LEN, R40: W_LEN bits. -/
  inLen : Nat
  /-- OUT, R41: the bytes operations have written since reset. -/
  outMem : Memory
  /-- OUT_LEN, R41. -/
  outLen : BitVec 10
  /-- CUR, R42: W_LEN bits. -/
  cur : Nat
  /-- CNT, R43. -/
  cnt : BitVec 16
  /-- FV.VAL, R44. -/
  fvVal : BitVec 32
  /-- FV.UNK, R44. -/
  fvUnk : Bool
  /-- HR.CMD, R45. -/
  hrCmd : CommandKind
  /-- HR.VER, R45. -/
  hrVer : Version
  /-- ER, R46. -/
  er : Slot
  /-- PKT.VALID, R47. -/
  pktValid : Bool
  /-- PKT.KIND, R47. -/
  pktKind : PktKind
  /-- PKT.CMD, R48. -/
  pktCmd : CommandKind
  /-- PKT.VER, R48. -/
  pktVer : Version
  /-- PKT.N, R48. -/
  pktN : BitVec 8
  /-- PKT.ENT[0..24], R48. -/
  pktEnt : Vector Slot 25
  /-- The host's remaining bus actions, the next one first (R103, R300). -/
  pending : List BusAction
  /-- The words the host's reads have returned, the newest first. -/
  seen : List Word
  /-- The number of resets before this one; it selects the free contents of IN and OUT (R291). -/
  epoch : Nat
  /-- The number of unspecified reads served; it selects the next free value (R296). -/
  draws : Nat
  deriving DecidableEq, Repr

/-- The ways the model stops. Each is a host action that R294 forbids and to which the spec gives NO MOVE (R33, R40,
R295); no operation of the block ends in one. All are SAFE: the model stops where hardware may do anything. -/
inductive Fault where
  /-- Raised by a host write to a writable register or an IN byte while STATUS.STATE = BUSY (R294, R295). Safe. -/
  | hostWriteWhileBusy
  /-- Raised by a host write of 1 to CTRL.START while STATUS.STATE = BUSY (R33, R295). Safe. -/
  | hostStartWhileBusy
  /-- Raised by a host write to IN_LEN of a value above IN_CAP (R40, R294). Safe. -/
  | hostInLenAboveCap
  deriving DecidableEq, Repr

/-- Why an instruction has no meaning. -/
inductive Refusal where
  /-- Raised by exec's arm of an instruction that has no meaning yet; every operation has one. Safe. -/
  | notModelled (mnemonic : String)
  deriving DecidableEq, Repr

/-- R290, R291: the machine right after reset. The parameters are the block's own, no byte of IN or OUT has been
written, and the host has nothing to do and has read nothing. -/
def State.reset : State where
  par := Config.params
  op := 0x00
  runState := .idle
  fail := false
  errCode := 0
  errCause := 0
  errByte := 0
  errValue := 0
  errOffset := 0
  inMem := []
  inLen := 0
  outMem := []
  outLen := 0
  cur := 0
  cnt := 0
  fvVal := 0
  fvUnk := false
  hrCmd := .invalid
  hrVer := .mustBeDiscarded
  er := Slot.zero
  pktValid := false
  pktKind := .v1
  pktCmd := .invalid
  pktVer := .mustBeDiscarded
  pktN := 0
  pktEnt := Vector.replicate 25 Slot.zero
  pending := []
  seen := []
  epoch := 0
  draws := 0

end Sys2Proof.Machine
end

