-- ==== Sys2Proof/Machine/Bytes.lean ====
section
/-! DEFINITION. Byte order (20_memory R62, 00_scope R7) and the two forms of an IPv4 address (10_state R50). -/

namespace Sys2Proof.Machine

/-- R7: `be s` is the unsigned integer whose big-endian bytes are `s`. -/
def be (s : List Byte) : Nat := s.foldl (fun v b => v * 256 + b.toNat) 0

/-- R7: `bytesBE n v` is `bytes_n(v)`, the n-byte big-endian sequence of `v`. -/
def bytesBE (n v : Nat) : List Byte :=
  match n with
  | 0 => []
  | k + 1 => BitVec.ofNat 8 (v / 256 ^ k) :: bytesBE k v

/-- R50: an address in register form, `o0` in bits 31:24 and `o3` in bits 7:0. -/
def ipv4Word (a : Ipv4) : Word := BitVec.ofNat 32 (be [a.o0, a.o1, a.o2, a.o3])

/-- R123: the octets of an address held in a register. -/
def ipv4OfWord (v : Word) : Ipv4 where
  o0 := v.extractLsb' 24 8
  o1 := v.extractLsb' 16 8
  o2 := v.extractLsb' 8 8
  o3 := v.extractLsb' 0 8

/-- The octets of an address in wire order (R26). -/
def ipv4Octets (a : Ipv4) : List Byte := [a.o0, a.o1, a.o2, a.o3]

end Sys2Proof.Machine
end

