-- ==== Sys2Proof/Machine/ValueMaps.lean ====
section
/-! DEFINITION. The value maps of the enumerated fields (30_encoding R85 to R87) and the form in which an enumeration
register holds an enumerant (10_state R31). -/

namespace Sys2Proof.Machine

/-! ## Wire values -/

/-- R85: the AFI of a 16-bit wire value, total. -/
def afiOf (v : BitVec 16) : Afi :=
  match v with
  | 0#16 => .unspecified
  | 2#16 => .ip
  | 0xFFFF#16 => .authenticationPresent
  | _ => .unknown

/-- R85: the wire value of a named AFI; none for the sentinel. -/
def afiCode (a : Afi) : Option (BitVec 16) :=
  match a with
  | .unspecified => some 0
  | .ip => some 2
  | .authenticationPresent => some 0xFFFF
  | .unknown => none

/-- R86: the command kind of a wire byte, total. -/
def cmdOf (b : Byte) : CommandKind :=
  match b with
  | 0#8 => .invalid
  | 1#8 => .request
  | 2#8 => .response
  | 3#8 => .kind3
  | 4#8 => .kind4
  | 5#8 => .kind5
  | 6#8 => .kind6
  | 7#8 => .kind7
  | 8#8 => .kind8
  | 9#8 => .kind9
  | 10#8 => .kind10
  | 11#8 => .kind11
  | _ => .unknown

/-- R86: the wire byte of a named command kind; none for the sentinel. -/
def cmdCode (k : CommandKind) : Option Byte :=
  match k with
  | .invalid => some 0
  | .request => some 1
  | .response => some 2
  | .kind3 => some 3
  | .kind4 => some 4
  | .kind5 => some 5
  | .kind6 => some 6
  | .kind7 => some 7
  | .kind8 => some 8
  | .kind9 => some 9
  | .kind10 => some 10
  | .kind11 => some 11
  | .unknown => none

/-- R87: the version of a wire byte, total. -/
def verOf (b : Byte) : Version :=
  match b with
  | 0#8 => .mustBeDiscarded
  | 1#8 => .version1
  | 2#8 => .version2
  | _ => .unknown

/-- R87: the wire byte of a named version; none for the sentinel. -/
def verCode (v : Version) : Option Byte :=
  match v with
  | .mustBeDiscarded => some 0
  | .version1 => some 1
  | .version2 => some 2
  | .unknown => none

/-! ## Enumeration registers -/

/-- R31: the `w + 1` bits that hold an enumerant, given its wire value: the value with UNK = 0, or `1 << w` for the
sentinel. They are read as a word of the register space. -/
def heldWord (w : Nat) (code : Option (BitVec w)) : Word :=
  match code with
  | some c => c.setWidth 32
  | none => BitVec.ofNat 32 (2 ^ w)

/-- R31: the word an AFI register reads as (17 bits). -/
def afiHeld (a : Afi) : Word := heldWord 16 (afiCode a)
/-- R31: the word a command register reads as (9 bits). -/
def cmdHeld (k : CommandKind) : Word := heldWord 8 (cmdCode k)
/-- R31: the word a version register reads as (9 bits). -/
def verHeld (v : Version) : Word := heldWord 8 (verCode v)

/-- R31: what a host write of `v` stores in an AFI register (WARL): bit 16 is UNK, bits above it are ignored. -/
def afiWarl (v : Word) : Afi := if v.getLsbD 16 then .unknown else afiOf (v.setWidth 16)
/-- R31: what a host write of `v` stores in a command register (WARL): bit 8 is UNK. -/
def cmdWarl (v : Word) : CommandKind := if v.getLsbD 8 then .unknown else cmdOf (v.setWidth 8)
/-- R31: what a host write of `v` stores in a version register (WARL): bit 8 is UNK. -/
def verWarl (v : Word) : Version := if v.getLsbD 8 then .unknown else verOf (v.setWidth 8)

/-- The version a packet type needs in its header (R29, R200). -/
def kindVersion (k : PktKind) : Version :=
  match k with
  | .v1 => .version1
  | .v2 => .version2

end Sys2Proof.Machine
end

