-- ==== Sys2Proof/Machine/Flags.lean ====
section
/-! DEFINITION. The block's flags: the STATUS word (10_state R34) and what each error writes to the ERR registers
(60_exceptions R260). A payload register that an error does not use is written 0. -/

namespace Sys2Proof.Machine

/-- R34: the code of STATUS.STATE. -/
def runStateCode (r : RunState) : Word :=
  match r with
  | .idle => 0
  | .busy => 1
  | .done => 2

/-- R34: the STATUS word, STATE in bits 1:0 and FAIL in bit 2. -/
def statusWord (r : RunState) (fail : Bool) : Word := runStateCode r + (if fail then 4 else 0)

/-- R260: the code of a construction error. -/
def ctorErrCode (e : CtorErr) : BitVec 8 :=
  match e with
  | .versionInHeaderConflicted => 0x21
  | .maxRipEntriesNumberExceeded => 0x22

/-- R260: ERR_CODE. -/
def errCodeOf (e : Err) : BitVec 8 :=
  match e with
  | .insufficientInput _ => 0x01
  | .unknownCommandKind _ _ => 0x02
  | .unknownVersion _ => 0x03
  | .mustBeDiscardedVersion _ => 0x04
  | .notZeroByte _ _ => 0x05
  | .unknownAfi _ _ => 0x06
  | .emptyRipEntry _ => 0x07
  | .maxRipEntries _ => 0x08
  | .invalidPacket _ => 0x09
  | .serUnknownCommandKind => 0x11
  | .serUnknownVersion => 0x12
  | .serUnknownAfi => 0x13
  | .ctor e => ctorErrCode e
  | .illegalOp => 0x30
  | .noPacket => 0x31
  | .wrongPacketKind => 0x32

/-- R36: ERR_CAUSE, the wrapped construction error of InvalidPacket. -/
def errCauseOf (e : Err) : BitVec 8 :=
  match e with
  | .invalidPacket c => ctorErrCode c
  | _ => 0

/-- R37: ERR_BYTE, the offending byte of UnknownCommandKind and NotZeroByte. -/
def errByteOf (e : Err) : BitVec 8 :=
  match e with
  | .unknownCommandKind b _ => b
  | .notZeroByte b _ => b
  | _ => 0

/-- R38: ERR_VALUE, the offending AFI value. -/
def errValueOf (e : Err) : BitVec 16 :=
  match e with
  | .unknownAfi v _ => v
  | _ => 0

/-- R39: ERR_OFFSET, the offset of the parse-side errors 0x01 to 0x08. -/
def errOffsetOf (e : Err) : Nat :=
  match e with
  | .insufficientInput o => o
  | .unknownCommandKind _ o => o
  | .unknownVersion o => o
  | .mustBeDiscardedVersion o => o
  | .notZeroByte _ o => o
  | .unknownAfi _ o => o
  | .emptyRipEntry o => o
  | .maxRipEntries o => o
  | _ => 0

end Sys2Proof.Machine
end

