-- ==== Sys2Proof/Machine/Ops.lean ====
section
/-! DEFINITION. The named operations over memory and registers: the two buffers (20_memory), the cursor reader and
MemRead (R121, R64), how an operation ends (60_exceptions R261), and how it raises an error, the block's one form of
taking an exception (R262), beside reset (70_reset R290). An error transfers no control and there is no return from
one (R268). -/

namespace Sys2Proof.Machine

/-! ## Memory -/

/-- The byte listed at an address, if there is one. -/
def Memory.read (m : Memory) (a : Nat) : Option Byte :=
  match m with
  | [] => Memory.unlisted
  | (x, b) :: r => if x = a then some b else Memory.read r a

/-- Write one byte, keeping addresses strictly rising. -/
def Memory.write (m : Memory) (a : Nat) (b : Byte) : Memory :=
  match m with
  | [] => [(a, b)]
  | (x, y) :: r =>
    if a < x then (a, b) :: (x, y) :: r
    else if a = x then (a, b) :: r
    else (x, y) :: Memory.write r a b

/-- Write bytes at successive addresses. -/
def Memory.writeBytes (m : Memory) (a : Nat) (bs : List Byte) : Memory :=
  match bs with
  | [] => m
  | b :: r => Memory.writeBytes (Memory.write m a b) (a + 1) r

/-- The canonical form: addresses strictly rising. No entry can equal what an unlisted address reads as, since that
is no value (`Memory.unlisted`). -/
def Memory.wf (m : Memory) : Bool :=
  match m with
  | [] => true
  | (a, _) :: r => (r.head?.all fun c => a < c.1) && Memory.wf r

/-- Every listed address lies below a bound. -/
def Memory.below (m : Memory) (cap : Nat) : Bool := m.all fun c => c.1 < cap

/-! ## The buffers -/

/-- The byte of IN at an index: what the host wrote there since reset, else the free value of R291. -/
def State.inByte (s : State) (k : Nat) : Byte := (s.inMem.read k).getD (Config.inAfterReset s.epoch k)

/-- The byte of OUT at an index: what operations wrote there since reset, else the free value of R291. -/
def State.outByte (s : State) (k : Nat) : Byte := (s.outMem.read k).getD (Config.outAfterReset s.epoch k)

/-- R121: ReadByte(c), the cursor reader: the byte at the cursor and the next cursor, or a shortage at the cursor. -/
def readByte (s : State) (c : Nat) : Except Err (Byte × Nat) :=
  if c < s.inLen then .ok (s.inByte c, c + 1) else .error (.insufficientInput c)

/-- R64: MemRead(c, n) after the bytes of value `v`: n successive cursor reads, v ← v × 256 + b. -/
def memReadFrom (s : State) (n c v : Nat) : Except Err (Nat × Nat) :=
  match n with
  | 0 => .ok (v, c)
  | k + 1 => do
    let (b, c) ← readByte s c
    memReadFrom s k c (v * 256 + b.toNat)

/-- R64: MemRead(c, n), the big-endian value of n bytes at the cursor and the next cursor. -/
def memRead (s : State) (c n : Nat) : Except Err (Nat × Nat) := memReadFrom s n c 0

/-- R67: the output commit: every byte of `out` from OUT[0] on, and OUT_LEN ← |out|. Bytes above keep their values. -/
def commitOut (out : List Byte) (s : State) : State :=
  { s with outMem := s.outMem.writeBytes 0 out, outLen := BitVec.ofNat 10 out.length }

/-! ## The end of an operation -/

/-- R261: what every operation that raises nothing also writes. -/
def complete (s : State) : State :=
  { s with
    runState := .done, fail := false,
    errCode := 0, errCause := 0, errByte := 0, errValue := 0, errOffset := 0 }

/-- R262: raising error `e` in state `s`: STATUS and the ERR registers, OUT_LEN ← 0 for an operation that writes OUT,
PKT.VALID ← 0 for one that writes PKT, and nothing else. -/
def raiseErr (w : ResultClass) (e : Err) (s : State) : State :=
  { s with
    runState := .done, fail := true,
    errCode := errCodeOf e, errCause := errCauseOf e, errByte := errByteOf e,
    errValue := errValueOf e, errOffset := errOffsetOf e,
    outLen := if w = .out then 0 else s.outLen,
    pktValid := if w = .packet then false else s.pktValid }

/-- R5, R261, R262: an operation ends in one transition, with all its results or only the failure's writes. -/
def finish (w : ResultClass) (s : State) (r : Except Err State) : Host.Outcome State Fault Refusal :=
  match r with
  | .ok t => .next (complete t)
  | .error e => .next (raiseErr w e s)

/-- R120: an encoding operation ends with its bytes committed to OUT, or with its error. -/
def finishOut (s : State) (r : Except Err (List Byte)) : Host.Outcome State Fault Refusal :=
  finish .out s (r.map fun out => commitOut out s)

/-! ## Reset -/

/-- R290 to R292: reset asserted in any state. Every register takes its reset value, the contents of IN and OUT are
drawn anew, and the parameters and the host are untouched. -/
def resetBlock (s : State) : State :=
  { State.reset with
    par := s.par, pending := s.pending, seen := s.seen, epoch := s.epoch + 1, draws := s.draws }

end Sys2Proof.Machine
end

