-- ==== Sys2Proof/Machine/Operands.lean ====
section
/-! DEFINITION. The operand and result forms of the operations: FV (40_field_codecs R123, R124), HR and ER
(41_header_entry_codecs R170), and the packet that PKT denotes (10_state R48) with its commit (43_parse_serialize
R223). -/

namespace Sys2Proof.Machine

/-! ## FV -/

/-- R123: FV read as an AFI; FV.VAL[31:16] is ignored. -/
def fvAfi (s : State) : Afi := if s.fvUnk then .unknown else afiOf (s.fvVal.setWidth 16)
/-- R123: FV read as a command kind; FV.VAL[31:8] is ignored. -/
def fvCmd (s : State) : CommandKind := if s.fvUnk then .unknown else cmdOf (s.fvVal.setWidth 8)
/-- R123: FV read as a version; FV.VAL[31:8] is ignored. -/
def fvVer (s : State) : Version := if s.fvUnk then .unknown else verOf (s.fvVal.setWidth 8)
/-- R123: FV read as a route tag, FV.VAL[15:0]; FV.UNK is ignored. -/
def fvTag (s : State) : BitVec 16 := s.fvVal.setWidth 16
/-- R123: FV read as a metric; FV.UNK is ignored. -/
def fvMetric (s : State) : BitVec 32 := s.fvVal
/-- R123: FV read as an address; FV.UNK is ignored. -/
def fvIpv4 (s : State) : Ipv4 := ipv4OfWord s.fvVal

/-- R124: a plain value in FV, and the next cursor in CUR. -/
def writeFv (s : State) (v : Word) (c : Nat) : State := { s with fvVal := v, fvUnk := false, cur := c }

/-- R124: an enumerant in FV by its wire value, the sentinel as FV.VAL = 0 and FV.UNK = 1, and the next cursor in
CUR. -/
def writeFvEnum {w : Nat} (s : State) (code : Option (BitVec w)) (c : Nat) : State :=
  match code with
  | some v => { s with fvVal := v.setWidth 32, fvUnk := false, cur := c }
  | none => { s with fvVal := 0, fvUnk := true, cur := c }

/-! ## HR and ER -/

/-- R172: the header that HR holds. -/
def hrHeader (s : State) : Header := { command := s.hrCmd, version := s.hrVer }
/-- R171: a header in HR, and the next cursor in CUR. -/
def writeHr (s : State) (h : Header) (c : Nat) : State :=
  { s with hrCmd := h.command, hrVer := h.version, cur := c }

/-- R173, R223: a v1 entry in register form; the three fields that the v1 layout lacks are 0. -/
def slotOfV1 (e : EntryV1) : Slot :=
  { afi := e.afi, tag := 0, addr := ipv4Word e.address, mask := 0, nh := 0, metric := e.metric }
/-- R174: the v1 entry a slot holds; TAG, MASK and NH are ignored. -/
def slotV1 (x : Slot) : EntryV1 := { afi := x.afi, address := ipv4OfWord x.addr, metric := x.metric }
/-- R175, R223: a v2 entry in register form. -/
def slotOfV2 (e : EntryV2) : Slot :=
  { afi := e.afi, tag := e.routeTag, addr := ipv4Word e.address, mask := ipv4Word e.subnetMask,
    nh := ipv4Word e.nextHop, metric := e.metric }
/-- R176: the v2 entry a slot holds. -/
def slotV2 (x : Slot) : EntryV2 :=
  { afi := x.afi, routeTag := x.tag, address := ipv4OfWord x.addr, subnetMask := ipv4OfWord x.mask,
    nextHop := ipv4OfWord x.nh, metric := x.metric }

/-- R173, R175: an entry in ER, and the next cursor in CUR. -/
def writeEr (s : State) (x : Slot) (c : Nat) : State := { s with er := x, cur := c }

/-! ## PKT -/

/-- R48: the header that PKT holds. -/
def pktHeader (s : State) : Header := { command := s.pktCmd, version := s.pktVer }
/-- R48: the entry slots in use, PKT.ENT[0 .. PKT.N − 1]. -/
def pktSlots (s : State) : List Slot := s.pktEnt.toList.take s.pktN.toNat
/-- R48: the v1 packet that PKT denotes. -/
def pktV1 (s : State) : Packet EntryV1 := { header := pktHeader s, entries := (pktSlots s).map slotV1 }
/-- R48: the v2 packet that PKT denotes. -/
def pktV2 (s : State) : Packet EntryV2 := { header := pktHeader s, entries := (pktSlots s).map slotV2 }

/-- Slots of a list laid over the first slots of another. -/
def overlay (new old : List Slot) : List Slot :=
  match new, old with
  | x :: xs, _ :: ys => x :: overlay xs ys
  | _, ys => ys

/-- Laying slots over a list keeps its length. -/
theorem overlay_length (new old : List Slot) : (overlay new old).length = old.length := by
  induction new generalizing old with
  | nil => cases old <;> rfl
  | cons x xs ih => cases old with
    | nil => rfl
    | cons y ys => simp [overlay, ih]

/-- R223: slots 0 to n − 1 take the new entries, slots n to 24 are not written. -/
def writeSlots (new : List Slot) (old : Vector Slot 25) : Vector Slot 25 :=
  ⟨⟨overlay new old.toList⟩, by simp [overlay_length]⟩

/-- R223: the commit of a packet to PKT. -/
def commitPacket (kind : PktKind) (h : Header) (slots : List Slot) (s : State) : State :=
  { s with
    pktValid := true, pktKind := kind, pktCmd := h.command, pktVer := h.version,
    pktN := BitVec.ofNat 8 slots.length, pktEnt := writeSlots slots s.pktEnt }

/-- R223: the commit of a v1 packet. -/
def commitV1 (p : Packet EntryV1) (s : State) : State :=
  commitPacket .v1 p.header (p.entries.map slotOfV1) s
/-- R223: the commit of a v2 packet. -/
def commitV2 (p : Packet EntryV2) (s : State) : State :=
  commitPacket .v2 p.header (p.entries.map slotOfV2) s
/-- R30, R223: the commit of an envelope. -/
def commitEnvelope (env : Envelope) (s : State) : State :=
  match env with
  | .v1 p => commitV1 p s
  | .v2 p => commitV2 p s

end Sys2Proof.Machine
end

