-- ==== Sys2Proof/Machine/Cursor.lean ====
section
/-! DEFINITION. Group 0, the cursor primitives (40_field_codecs section 2). The cursor reader itself, R121's
ReadByte, stands in Machine/Ops.lean. -/

namespace Sys2Proof.Machine

/-- R122: skipZero(n, c): reads n bytes, each of which must be 0; the offset reported is one past the byte. -/
def skipZero (s : State) (n c : Nat) : Except Err Nat :=
  match n with
  | 0 => .ok c
  | k + 1 => do
    let (b, c) ← readByte s c
    if b = 0 then skipZero s k c else .error (.notZeroByte b c)

/-- READ_BYTE (R121). -/
def execReadByte (s : State) : Host.Outcome State Fault Refusal :=
  finish .regs s do
    let (b, c) ← readByte s s.cur
    return writeFv s (b.setWidth 32) c

/-- SKIP_ZERO (R122). It does not write FV. -/
def execSkipZero (s : State) : Host.Outcome State Fault Refusal :=
  finish .regs s do
    let c ← skipZero s s.cnt.toNat s.cur
    return { s with cur := c }

end Sys2Proof.Machine
end

