-- ==== Sys2Proof/Machine/Fields.lean ====
section
/-! DEFINITION. Group 1, the field codecs (40_field_codecs sections 3 to 9): each field's decoder and encoder function,
and the operation over it. A decoder starts at CUR; an encoder reads FV and builds `out` (R120). -/

namespace Sys2Proof.Machine

/-! ## Address-family identifier -/

/-- R126: the offset of an UnknownAddressFamilyIdentifier raised by decAfi(s). -/
def afiErrOffset (mode : Config.AfiErrOffsetMode) (start : Nat) : Nat :=
  match mode with
  | .secondByte => start + 1
  | .onePast => start + 2

/-- R125: decAfi(c). The value is checked after both bytes are read. -/
def decAfi (s : State) (start : Nat) : Except Err (Afi × Nat) := do
  let (b0, c) ← readByte s start
  let (b1, c) ← readByte s c
  let v := BitVec.ofNat 16 (b0.toNat * 256 + b1.toNat)
  if afiOf v = .unknown then .error (.unknownAfi v (afiErrOffset s.par.afiMode start))
  else return (afiOf v, c)

/-- R127: encAfi(a). -/
def encAfi (a : Afi) : Except Err (List Byte) :=
  match afiCode a with
  | some v => .ok (bytesBE 2 v.toNat)
  | none => .error .serUnknownAfi

/-- DEC_AFI (R125). -/
def execDecAfi (s : State) : Host.Outcome State Fault Refusal :=
  finish .regs s do
    let (a, c) ← decAfi s s.cur
    return writeFvEnum s (afiCode a) c

/-- ENC_AFI (R127). -/
def execEncAfi (s : State) : Host.Outcome State Fault Refusal := finishOut s (encAfi (fvAfi s))

/-! ## Command kind -/

/-- R128: decCmd(c). -/
def decCmd (s : State) (c : Nat) : Except Err (CommandKind × Nat) := do
  let (b, c) ← readByte s c
  if cmdOf b = .unknown then .error (.unknownCommandKind b c) else return (cmdOf b, c)

/-- R129: encCmd(k). -/
def encCmd (k : CommandKind) : Except Err (List Byte) :=
  match cmdCode k with
  | some b => .ok [b]
  | none => .error .serUnknownCommandKind

/-- DEC_CMD (R128). -/
def execDecCmd (s : State) : Host.Outcome State Fault Refusal :=
  finish .regs s do
    let (k, c) ← decCmd s s.cur
    return writeFvEnum s (cmdCode k) c

/-- ENC_CMD (R129). -/
def execEncCmd (s : State) : Host.Outcome State Fault Refusal := finishOut s (encCmd (fvCmd s))

/-! ## Version -/

/-- R130: decVer(c). It never raises on the value. -/
def decVer (s : State) (c : Nat) : Except Err (Version × Nat) := do
  let (b, c) ← readByte s c
  return (verOf b, c)

/-- R131: encVer(v). -/
def encVer (v : Version) : Except Err (List Byte) :=
  match verCode v with
  | some b => .ok [b]
  | none => .error .serUnknownVersion

/-- DEC_VER (R130). -/
def execDecVer (s : State) : Host.Outcome State Fault Refusal :=
  finish .regs s do
    let (v, c) ← decVer s s.cur
    return writeFvEnum s (verCode v) c

/-- ENC_VER (R131). -/
def execEncVer (s : State) : Host.Outcome State Fault Refusal := finishOut s (encVer (fvVer s))

/-! ## Route tag -/

/-- R132: decTag(c). -/
def decTag (s : State) (c : Nat) : Except Err (BitVec 16 × Nat) := do
  let (v, c) ← memRead s c 2
  return (BitVec.ofNat 16 v, c)

/-- R133: encTag(t). -/
def encTag (t : BitVec 16) : List Byte := bytesBE 2 t.toNat

/-- DEC_TAG (R132). -/
def execDecTag (s : State) : Host.Outcome State Fault Refusal :=
  finish .regs s do
    let (t, c) ← decTag s s.cur
    return writeFv s (t.setWidth 32) c

/-- ENC_TAG (R133). -/
def execEncTag (s : State) : Host.Outcome State Fault Refusal := finishOut s (.ok (encTag (fvTag s)))

/-! ## Metric -/

/-- R134: decMetric(c). There is no range check. -/
def decMetric (s : State) (c : Nat) : Except Err (BitVec 32 × Nat) := do
  let (v, c) ← memRead s c 4
  return (BitVec.ofNat 32 v, c)

/-- R135: encMetric(m). -/
def encMetric (m : BitVec 32) : List Byte := bytesBE 4 m.toNat

/-- DEC_METRIC (R134). -/
def execDecMetric (s : State) : Host.Outcome State Fault Refusal :=
  finish .regs s do
    let (m, c) ← decMetric s s.cur
    return writeFv s m c

/-- ENC_METRIC (R135). -/
def execEncMetric (s : State) : Host.Outcome State Fault Refusal := finishOut s (.ok (encMetric (fvMetric s)))

/-! ## IPv4 address -/

/-- R136: decIpv4(c), four octets in wire order. -/
def decIpv4 (s : State) (c : Nat) : Except Err (Ipv4 × Nat) := do
  let (o0, c) ← readByte s c
  let (o1, c) ← readByte s c
  let (o2, c) ← readByte s c
  let (o3, c) ← readByte s c
  return ({ o0 := o0, o1 := o1, o2 := o2, o3 := o3 }, c)

/-- R137: encIpv4(a), the octets unchanged. -/
def encIpv4 (a : Ipv4) : List Byte := ipv4Octets a

/-- DEC_IPV4 (R136). -/
def execDecIpv4 (s : State) : Host.Outcome State Fault Refusal :=
  finish .regs s do
    let (a, c) ← decIpv4 s s.cur
    return writeFv s (ipv4Word a) c

/-- ENC_IPV4 (R137). -/
def execEncIpv4 (s : State) : Host.Outcome State Fault Refusal := finishOut s (.ok (encIpv4 (fvIpv4 s)))

end Sys2Proof.Machine
end

