-- ==== Sys2Proof/Machine/Records.lean ====
section
/-! DEFINITION. Group 2, the header and entry codecs (41_header_entry_codecs). Each is a fixed sequence of field
functions, so the first failing check in byte order is the error raised (R264). -/

namespace Sys2Proof.Machine

/-! ## Header -/

/-- R171: decHdr(c). Any version byte is accepted here. -/
def decHdr (s : State) (c : Nat) : Except Err (Header × Nat) := do
  let (cmd, c) ← decCmd s c
  let (ver, c) ← decVer s c
  let c ← skipZero s 2 c
  return ({ command := cmd, version := ver }, c)

/-- R172: encHdr(h). An Unknown command is reported before an Unknown version. -/
def encHdr (h : Header) : Except Err (List Byte) := do
  let s1 ← encCmd h.command
  let s2 ← encVer h.version
  return s1 ++ s2 ++ [0, 0]

/-- DEC_HDR (R171). -/
def execDecHdr (s : State) : Host.Outcome State Fault Refusal :=
  finish .regs s do
    let (h, c) ← decHdr s s.cur
    return writeHr s h c

/-- ENC_HDR (R172). -/
def execEncHdr (s : State) : Host.Outcome State Fault Refusal := finishOut s (encHdr (hrHeader s))

/-! ## v1 entry -/

/-- R173: decEnt1(c). -/
def decEnt1 (s : State) (c : Nat) : Except Err (EntryV1 × Nat) := do
  let (afi, c) ← decAfi s c
  let c ← skipZero s 2 c
  let (ip, c) ← decIpv4 s c
  let c ← skipZero s 8 c
  let (m, c) ← decMetric s c
  return ({ afi := afi, address := ip, metric := m }, c)

/-- R174: encEnt1(e). -/
def encEnt1 (e : EntryV1) : Except Err (List Byte) := do
  let a ← encAfi e.afi
  return a ++ [0, 0] ++ encIpv4 e.address ++ List.replicate 8 0 ++ encMetric e.metric

/-- DEC_ENT1 (R173). -/
def execDecEnt1 (s : State) : Host.Outcome State Fault Refusal :=
  finish .regs s do
    let (e, c) ← decEnt1 s s.cur
    return writeEr s (slotOfV1 e) c

/-- ENC_ENT1 (R174). -/
def execEncEnt1 (s : State) : Host.Outcome State Fault Refusal := finishOut s (encEnt1 (slotV1 s.er))

/-! ## v2 entry -/

/-- R175: decEnt2(c). -/
def decEnt2 (s : State) (c : Nat) : Except Err (EntryV2 × Nat) := do
  let (afi, c) ← decAfi s c
  let (tag, c) ← decTag s c
  let (ip, c) ← decIpv4 s c
  let (mask, c) ← decIpv4 s c
  let (nh, c) ← decIpv4 s c
  let (m, c) ← decMetric s c
  return ({ afi := afi, routeTag := tag, address := ip, subnetMask := mask, nextHop := nh, metric := m }, c)

/-- R176: encEnt2(e). -/
def encEnt2 (e : EntryV2) : Except Err (List Byte) := do
  let a ← encAfi e.afi
  return a ++ encTag e.routeTag ++ encIpv4 e.address ++ encIpv4 e.subnetMask ++ encIpv4 e.nextHop
    ++ encMetric e.metric

/-- DEC_ENT2 (R175). -/
def execDecEnt2 (s : State) : Host.Outcome State Fault Refusal :=
  finish .regs s do
    let (e, c) ← decEnt2 s s.cur
    return writeEr s (slotOfV2 e) c

/-- ENC_ENT2 (R176). -/
def execEncEnt2 (s : State) : Host.Outcome State Fault Refusal := finishOut s (encEnt2 (slotV2 s.er))

end Sys2Proof.Machine
end

