-- ==== Sys2Proof/Machine/Construct.lean ====
section
/-! DEFINITION. Group 3, packet construction (42_packet_container). -/

namespace Sys2Proof.Machine

/-- R200: the two checks of construction, the version first and then the count. -/
def makeCheck (kind : PktKind) (v : Version) (n : Nat) : Except CtorErr Unit :=
  if v ≠ kindVersion kind then .error .versionInHeaderConflicted
  else if Config.maxEntries < n then .error .maxRipEntriesNumberExceeded
  else .ok ()

/-- R200: make(kind, h, es). Neither the entries' content nor the command is read. -/
def make {ε : Type} (kind : PktKind) (h : Header) (es : List ε) : Except CtorErr (Packet ε) :=
  match makeCheck kind h.version es.length with
  | .ok _ => .ok { header := h, entries := es }
  | .error e => .error e

/-- R201, R202: construction in place. The content registers are not changed. -/
def makeInPlace (kind : PktKind) (s : State) : Host.Outcome State Fault Refusal :=
  finish .packet s <|
    match makeCheck kind s.pktVer s.pktN.toNat with
    | .ok _ => .ok { s with pktValid := true, pktKind := kind }
    | .error e => .error (.ctor e)

/-- MAKE_V1 (R201). -/
def execMakeV1 (s : State) : Host.Outcome State Fault Refusal := makeInPlace .v1 s

/-- MAKE_V2 (R202). -/
def execMakeV2 (s : State) : Host.Outcome State Fault Refusal := makeInPlace .v2 s

end Sys2Proof.Machine
end

