-- ==== Sys2Proof/Machine/Parse.lean ====
section
/-! DEFINITION. Group 4, the top-level parse (43_parse_serialize section 1). The local cursor starts at 0 and CUR is
neither read nor written. -/

namespace Sys2Proof.Machine

/-- R222: the loop of entryLoop with room for `room` more entries: it stops at the end of `buf`, and raises
MaxRIPEntriesNumberExceeded when 25 entries have been read and bytes remain. -/
def entriesFrom {ε : Type} (s : State) (dec : Nat → Except Err (ε × Nat)) (room c : Nat) :
    Except Err (List ε × Nat) :=
  if s.inLen ≤ c then .ok ([], c)
  else
    match room with
    | 0 => .error (.maxRipEntries c)
    | r + 1 => do
      let (e, c) ← dec c
      let (es, c) ← entriesFrom s dec r c
      return (e :: es, c)

/-- R222: entryLoop(dec, c). -/
def entryLoop {ε : Type} (s : State) (dec : Nat → Except Err (ε × Nat)) (c : Nat) : Except Err (List ε × Nat) :=
  if s.inLen ≤ c then .error (.emptyRipEntry c) else entriesFrom s dec Config.maxEntries c

/-- R221: wrapMake(kind, h, es), the one place where an error wraps another. -/
def wrapMake {ε : Type} (kind : PktKind) (h : Header) (es : List ε) : Except Err (Packet ε) :=
  match make kind h es with
  | .ok p => .ok p
  | .error e => .error (.invalidPacket e)

/-- R220: the v1 arm of the dispatch: the entries from the cursor, then construction. -/
def parseBodyV1 (s : State) (h : Header) (c : Nat) : Except Err (Packet EntryV1) := do
  let (es, _) ← entryLoop s (decEnt1 s) c
  wrapMake .v1 h es

/-- R220: the v2 arm of the dispatch. -/
def parseBodyV2 (s : State) (h : Header) (c : Nat) : Except Err (Packet EntryV2) := do
  let (es, _) ← entryLoop s (decEnt2 s) c
  wrapMake .v2 h es

/-- R220: parse(). The offset of the two version errors is always 2. -/
def parse (s : State) : Except Err Envelope := do
  let (h, c) ← decHdr s 0
  match h.version with
  | .version1 => return .v1 (← parseBodyV1 s h c)
  | .version2 => return .v2 (← parseBodyV2 s h c)
  | .mustBeDiscarded => .error (.mustBeDiscardedVersion 2)
  | .unknown => .error (.unknownVersion 2)

/-- R224: parseV1(). The version is judged before any entry is read. -/
def parseV1 (s : State) : Except Err (Packet EntryV1) := do
  let (h, c) ← decHdr s 0
  if h.version ≠ .version1 then .error (.invalidPacket .versionInHeaderConflicted)
  else parseBodyV1 s h c

/-- R225: parseV2(). -/
def parseV2 (s : State) : Except Err (Packet EntryV2) := do
  let (h, c) ← decHdr s 0
  if h.version ≠ .version2 then .error (.invalidPacket .versionInHeaderConflicted)
  else parseBodyV2 s h c

/-- PARSE (R220). -/
def execParse (s : State) : Host.Outcome State Fault Refusal :=
  finish .packet s do
    let env ← parse s
    return commitEnvelope env s

/-- PARSE_V1 (R224). -/
def execParseV1 (s : State) : Host.Outcome State Fault Refusal :=
  finish .packet s do
    let p ← parseV1 s
    return commitV1 p s

/-- PARSE_V2 (R225). -/
def execParseV2 (s : State) : Host.Outcome State Fault Refusal :=
  finish .packet s do
    let p ← parseV2 s
    return commitV2 p s

end Sys2Proof.Machine
end

