-- ==== Sys2Proof/Machine/Serialize.lean ====
section
/-! DEFINITION. Group 5, serialization (43_parse_serialize section 2). -/

namespace Sys2Proof.Machine

/-- R226: the entries' bytes in sequence order; the first entry that does not encode raises. -/
def encEntries {ε : Type} (enc : ε → Except Err (List Byte)) (es : List ε) : Except Err (List Byte) :=
  match es with
  | [] => .ok []
  | e :: r => do
    let b ← enc e
    let bs ← encEntries enc r
    return b ++ bs

/-- R226: serialize(p): header bytes, then each entry's bytes. -/
def serializePacket {ε : Type} (enc : ε → Except Err (List Byte)) (p : Packet ε) : Except Err (List Byte) := do
  let hb ← encHdr p.header
  let eb ← encEntries enc p.entries
  return hb ++ eb

/-- R226: the bytes of the v1 packet that PKT denotes. -/
def serializeV1 (s : State) : Except Err (List Byte) := serializePacket encEnt1 (pktV1 s)
/-- R226: the bytes of the v2 packet that PKT denotes. -/
def serializeV2 (s : State) : Except Err (List Byte) := serializePacket encEnt2 (pktV2 s)

/-- SER_V1 (R227). -/
def execSerV1 (s : State) : Host.Outcome State Fault Refusal :=
  finishOut s <|
    if s.pktValid = false then .error .noPacket
    else if s.pktKind ≠ .v1 then .error .wrongPacketKind
    else serializeV1 s

/-- SER_V2 (R228). -/
def execSerV2 (s : State) : Host.Outcome State Fault Refusal :=
  finishOut s <|
    if s.pktValid = false then .error .noPacket
    else if s.pktKind ≠ .v2 then .error .wrongPacketKind
    else serializeV2 s

/-- SERIALIZE (R229). -/
def execSerialize (s : State) : Host.Outcome State Fault Refusal :=
  finishOut s <|
    if s.pktValid = false then .error .noPacket
    else
      match s.pktKind with
      | .v1 => serializeV1 s
      | .v2 => serializeV2 s

end Sys2Proof.Machine
end

