-- ==== Sys2Proof/Machine/Dispatch.lean ====
section
/-! DEFINITION. One arm per operation of the block: the meaning of the opcode table (30_encoding R100). -/

namespace Sys2Proof.Machine

def exec (i : Instr) (s : State) : Host.Outcome State Fault Refusal :=
  match i with
  | .readByte => Sys2Proof.Machine.execReadByte s
  | .skipZero => Sys2Proof.Machine.execSkipZero s
  | .decAfi => Sys2Proof.Machine.execDecAfi s
  | .encAfi => Sys2Proof.Machine.execEncAfi s
  | .decCmd => Sys2Proof.Machine.execDecCmd s
  | .encCmd => Sys2Proof.Machine.execEncCmd s
  | .decVer => Sys2Proof.Machine.execDecVer s
  | .encVer => Sys2Proof.Machine.execEncVer s
  | .decTag => Sys2Proof.Machine.execDecTag s
  | .encTag => Sys2Proof.Machine.execEncTag s
  | .decMetric => Sys2Proof.Machine.execDecMetric s
  | .encMetric => Sys2Proof.Machine.execEncMetric s
  | .decIpv4 => Sys2Proof.Machine.execDecIpv4 s
  | .encIpv4 => Sys2Proof.Machine.execEncIpv4 s
  | .decHdr => Sys2Proof.Machine.execDecHdr s
  | .encHdr => Sys2Proof.Machine.execEncHdr s
  | .decEnt1 => Sys2Proof.Machine.execDecEnt1 s
  | .encEnt1 => Sys2Proof.Machine.execEncEnt1 s
  | .decEnt2 => Sys2Proof.Machine.execDecEnt2 s
  | .encEnt2 => Sys2Proof.Machine.execEncEnt2 s
  | .makeV1 => Sys2Proof.Machine.execMakeV1 s
  | .makeV2 => Sys2Proof.Machine.execMakeV2 s
  | .parse => Sys2Proof.Machine.execParse s
  | .parseV1 => Sys2Proof.Machine.execParseV1 s
  | .parseV2 => Sys2Proof.Machine.execParseV2 s
  | .serV1 => Sys2Proof.Machine.execSerV1 s
  | .serV2 => Sys2Proof.Machine.execSerV2 s
  | .serialize => Sys2Proof.Machine.execSerialize s

end Sys2Proof.Machine
end

