-- ==== Sys2Proof/Machine/Bus.lean ====
section
/-! DEFINITION. The host's side of the block: the register map (10_state R51) with its access rights, WARL writes (R31)
and the clearing of PKT.VALID (R49); the IN and OUT spaces (20_memory R60); the START strobe (R33, R265); what the
host may do and the hazards (70_reset R294 to R296). -/

namespace Sys2Proof.Machine

/-! ## The register map -/

/-- R46: the six fields of an entry, f = 0 to 5. -/
inductive EntField where
  | afi | tag | addr | mask | nh | metric
  deriving DecidableEq, Repr

/-- R51: the named registers. -/
inductive Reg where
  | op | ctrl | status | errCode | errCause | errByte | errValue | errOffset
  | inLen | outLen | cur | cnt | fvVal | fvUnk | hrCmd | hrVer
  | er (f : EntField)
  | pktValid | pktKind | pktCmd | pktVer | pktN
  | ent (i : Fin 25) (f : EntField)
  deriving DecidableEq, Repr

/-- R51: the field number of an entry field. -/
def entFieldNumber (f : EntField) : Nat :=
  match f with
  | .afi => 0
  | .tag => 1
  | .addr => 2
  | .mask => 3
  | .nh => 4
  | .metric => 5

/-- R51: the entry field of a number; 6 and 7 are unmapped. -/
def entFieldAt (n : Nat) : Option EntField :=
  match n with
  | 0 => some .afi
  | 1 => some .tag
  | 2 => some .addr
  | 3 => some .mask
  | 4 => some .nh
  | 5 => some .metric
  | _ => none

/-- R51: the number of a register. -/
def regNumber (r : Reg) : Nat :=
  match r with
  | .op => 0x000
  | .ctrl => 0x001
  | .status => 0x002
  | .errCode => 0x003
  | .errCause => 0x004
  | .errByte => 0x005
  | .errValue => 0x006
  | .errOffset => 0x007
  | .inLen => 0x008
  | .outLen => 0x009
  | .cur => 0x00A
  | .cnt => 0x00B
  | .fvVal => 0x00C
  | .fvUnk => 0x00D
  | .hrCmd => 0x010
  | .hrVer => 0x011
  | .er f => 0x018 + entFieldNumber f
  | .pktValid => 0x020
  | .pktKind => 0x021
  | .pktCmd => 0x022
  | .pktVer => 0x023
  | .pktN => 0x024
  | .ent i f => 0x100 + 8 * i.val + entFieldNumber f

/-- R51: the slot field at a number: 0x100 + 8i + f with i = 0 to 24 and f = 0 to 5. -/
def entRegAt (n : Nat) : Option Reg :=
  if n < 0x100 then none
  else if h : (n - 0x100) / 8 < 25 then (entFieldAt ((n - 0x100) % 8)).map (.ent ⟨(n - 0x100) / 8, h⟩)
  else none

/-- R51: the register at a number; none where the number is unmapped. -/
def regAt (n : Nat) : Option Reg :=
  match n with
  | 0x000 => some .op
  | 0x001 => some .ctrl
  | 0x002 => some .status
  | 0x003 => some .errCode
  | 0x004 => some .errCause
  | 0x005 => some .errByte
  | 0x006 => some .errValue
  | 0x007 => some .errOffset
  | 0x008 => some .inLen
  | 0x009 => some .outLen
  | 0x00A => some .cur
  | 0x00B => some .cnt
  | 0x00C => some .fvVal
  | 0x00D => some .fvUnk
  | 0x010 => some .hrCmd
  | 0x011 => some .hrVer
  | 0x018 => some (.er .afi)
  | 0x019 => some (.er .tag)
  | 0x01A => some (.er .addr)
  | 0x01B => some (.er .mask)
  | 0x01C => some (.er .nh)
  | 0x01D => some (.er .metric)
  | 0x020 => some .pktValid
  | 0x021 => some .pktKind
  | 0x022 => some .pktCmd
  | 0x023 => some .pktVer
  | 0x024 => some .pktN
  | n => entRegAt n

/-! ## Reads -/

/-- R46, R48: the word an entry field reads as. -/
def slotRead (x : Slot) (f : EntField) : Word :=
  match f with
  | .afi => afiHeld x.afi
  | .tag => x.tag.setWidth 32
  | .addr => x.addr
  | .mask => x.mask
  | .nh => x.nh
  | .metric => x.metric

/-- R32 to R48: the word a register reads as. CTRL reads 0 (R33). -/
def regRead (s : State) (r : Reg) : Word :=
  match r with
  | .op => s.op.setWidth 32
  | .ctrl => 0
  | .status => statusWord s.runState s.fail
  | .errCode => s.errCode.setWidth 32
  | .errCause => s.errCause.setWidth 32
  | .errByte => s.errByte.setWidth 32
  | .errValue => s.errValue.setWidth 32
  | .errOffset => BitVec.ofNat 32 s.errOffset
  | .inLen => BitVec.ofNat 32 s.inLen
  | .outLen => s.outLen.setWidth 32
  | .cur => BitVec.ofNat 32 s.cur
  | .cnt => s.cnt.setWidth 32
  | .fvVal => s.fvVal
  | .fvUnk => if s.fvUnk then 1 else 0
  | .hrCmd => cmdHeld s.hrCmd
  | .hrVer => verHeld s.hrVer
  | .er f => slotRead s.er f
  | .pktValid => if s.pktValid then 1 else 0
  | .pktKind => if s.pktKind = .v2 then 1 else 0
  | .pktCmd => cmdHeld s.pktCmd
  | .pktVer => verHeld s.pktVer
  | .pktN => s.pktN.setWidth 32
  | .ent i f => slotRead s.pktEnt[i] f

/-- R46: the width of an entry field. -/
def slotWidth (f : EntField) : Nat :=
  match f with
  | .afi => 17
  | .tag => 16
  | .addr | .mask | .nh | .metric => 32

/-- R51: the width of a register, in bits. -/
def regWidth (p : Config.Params) (r : Reg) : Nat :=
  match r with
  | .op | .errCode | .errCause | .errByte | .pktN => 8
  | .ctrl | .fvUnk | .pktValid | .pktKind => 1
  | .status => 3
  | .errValue | .cnt => 16
  | .errOffset | .inLen | .cur => p.wLen
  | .outLen => 10
  | .fvVal => 32
  | .hrCmd | .hrVer | .pktCmd | .pktVer => 9
  | .er f | .ent _ f => slotWidth f

/-- R296: the result registers, whose reads while BUSY are unspecified: CUR, FV, HR, ER, PKT, OUT_LEN, ERR_*. -/
def regIsResult (r : Reg) : Bool :=
  match r with
  | .cur | .fvVal | .fvUnk | .hrCmd | .hrVer | .er _ | .outLen => true
  | .pktValid | .pktKind | .pktCmd | .pktVer | .pktN | .ent _ _ => true
  | .errCode | .errCause | .errByte | .errValue | .errOffset => true
  | .op | .ctrl | .status | .inLen | .cnt => false

/-- The host has read a word. -/
def note (s : State) (v : Word) : State := { s with seen := v :: s.seen }

/-- R296: the host has read a free value of the given width. -/
def noteDraw (s : State) (width : Nat) : State :=
  { s with seen := BitVec.ofNat 32 ((Config.busyRead s.draws).toNat % 2 ^ width) :: s.seen, draws := s.draws + 1 }

/-- R51, R294, R296: a host read of the register space. An unmapped number reads 0. -/
def busReadReg (n : Nat) (s : State) : State :=
  match regAt n with
  | none => note s 0
  | some r =>
    if s.runState = .busy ∧ regIsResult r = true then noteDraw s (regWidth s.par r)
    else note s (regRead s r)

/-- R60: an IN index that exists. The first test only spares the second where it is known (505 ≤ IN_CAP, R6; log
entry 18). -/
def inMapped (s : State) (k : Nat) : Bool := decide (k < Config.minInCap) || decide (k < s.par.inCap)

/-- R60, R294: a host read of the IN space. An unmapped index reads 0. -/
def busReadIn (k : Nat) (s : State) : State :=
  note s (if inMapped s k then (s.inByte k).setWidth 32 else 0)

/-- R60, R294, R296: a host read of the OUT space. An unmapped index reads 0. -/
def busReadOut (k : Nat) (s : State) : State :=
  if k < Config.outCap then
    if s.runState = .busy then noteDraw s 8 else note s ((s.outByte k).setWidth 32)
  else note s 0

/-! ## Writes -/

/-- R295: a write that is stored, unless the block is BUSY, where it has no move. -/
def unlessBusy (s t : State) : Host.Outcome State Fault Refusal :=
  if s.runState = .busy then .fault .hostWriteWhileBusy else .next t

/-- R42, R40: the W_LEN bits of a written word; the bits above are reserved and ignored. Where the word is below
512 ≤ 2^W_LEN nothing is cut (log entry 18). -/
def cutLen (p : Config.Params) (v : Word) : Nat := if v.toNat < 512 then v.toNat else v.toNat % 2 ^ p.wLen

/-- R40: a length that IN holds. -/
def lenLegal (p : Config.Params) (n : Nat) : Bool := decide (n ≤ Config.minInCap) || decide (n ≤ p.inCap)

/-- R31, R46, R48: a host write to an entry field. AFI is WARL. -/
def slotWrite (x : Slot) (f : EntField) (v : Word) : Slot :=
  match f with
  | .afi => { x with afi := afiWarl v }
  | .tag => { x with tag := v.setWidth 16 }
  | .addr => { x with addr := v }
  | .mask => { x with mask := v }
  | .nh => { x with nh := v }
  | .metric => { x with metric := v }

/-- R265: IllegalOp reads no operand and writes only STATUS and the ERR registers. -/
def illegalOp (s : State) : State := raiseErr .regs .illegalOp s

/-- R33, R101: START runs the operation that OP selects, as one transition; an unassigned OP raises IllegalOp. -/
def startOp (s : State) : Host.Outcome State Fault Refusal :=
  match decode [s.op] with
  | .ok (i, _) => exec i s
  | .error _ => .next (illegalOp s)

/-- R33: a host write to CTRL: bit 0 = 1 is the START strobe, 0 has no effect. -/
def writeCtrl (v : Word) (s : State) : Host.Outcome State Fault Refusal :=
  if v.getLsbD 0 then
    if s.runState = .busy then .fault .hostStartWhileBusy else startOp s
  else .next s

/-- R40, R294: a host write to IN_LEN; above IN_CAP it has no move. -/
def writeInLen (v : Word) (s : State) : Host.Outcome State Fault Refusal :=
  if lenLegal s.par (cutLen s.par v) then unlessBusy s { s with inLen := cutLen s.par v }
  else .fault .hostInLenAboveCap

/-- R32 to R49, R294: a host write to a register. Read-only registers ignore it, enumeration registers are WARL, and
the content of PKT clears PKT.VALID. -/
def regWrite (r : Reg) (v : Word) (s : State) : Host.Outcome State Fault Refusal :=
  match r with
  | .op => unlessBusy s { s with op := v.setWidth 8 }
  | .ctrl => writeCtrl v s
  | .status | .errCode | .errCause | .errByte | .errValue | .errOffset => .next s
  | .outLen | .pktValid | .pktKind => .next s
  | .inLen => writeInLen v s
  | .cur => unlessBusy s { s with cur := cutLen s.par v }
  | .cnt => unlessBusy s { s with cnt := v.setWidth 16 }
  | .fvVal => unlessBusy s { s with fvVal := v }
  | .fvUnk => unlessBusy s { s with fvUnk := v.getLsbD 0 }
  | .hrCmd => unlessBusy s { s with hrCmd := cmdWarl v }
  | .hrVer => unlessBusy s { s with hrVer := verWarl v }
  | .er f => unlessBusy s { s with er := slotWrite s.er f v }
  | .pktCmd => unlessBusy s { s with pktCmd := cmdWarl v, pktValid := false }
  | .pktVer => unlessBusy s { s with pktVer := verWarl v, pktValid := false }
  | .pktN => unlessBusy s { s with pktN := v.setWidth 8, pktValid := false }
  | .ent i f =>
    unlessBusy s { s with pktEnt := s.pktEnt.set i.val (slotWrite s.pktEnt[i] f v) i.isLt, pktValid := false }

/-- R51: a host write to the register space. An unmapped number ignores it. -/
def busWriteReg (n : Nat) (v : Word) (s : State) : Host.Outcome State Fault Refusal :=
  match regAt n with
  | none => .next s
  | some r => regWrite r v s

/-- R40, R60: a host write to the IN space. An unmapped index ignores it. -/
def busWriteIn (k : Nat) (b : Byte) (s : State) : Host.Outcome State Fault Refusal :=
  if inMapped s k then unlessBusy s { s with inMem := s.inMem.write k b } else .next s

/-! ## One bus action -/

/-- R103: one poll of STATUS; `wait` stays at the head of the host's list until STATE = DONE. -/
def busWait (s : State) : State :=
  if s.runState = .done then note s (statusWord s.runState s.fail)
  else note { s with pending := .wait :: s.pending } (statusWord s.runState s.fail)

/-- R294: one bus action of the host, taken from its list already. -/
def busAct (a : BusAction) (s : State) : Host.Outcome State Fault Refusal :=
  match a with
  | .writeReg n v => busWriteReg n v s
  | .readReg n => .next (busReadReg n s)
  | .writeIn k b => busWriteIn k b s
  | .readIn k => .next (busReadIn k s)
  | .writeOut _ _ => .next s
  | .readOut k => .next (busReadOut k s)
  | .wait => .next (busWait s)
  | .reset => .next (resetBlock s)

/-- One step of block and host: the host's next action, or nothing where it has none (R272, R292, R300). -/
def busStep (s : State) : Host.Outcome State Fault Refusal :=
  match s.pending with
  | [] => .next s
  | a :: rest => busAct a { s with pending := rest }

/-- The state in which the next step runs the operation whose OP word is `op`: OP holds it, the host's next action is
the START strobe, and the block is not BUSY. -/
def placeOp (s : State) (op : Byte) : State :=
  { s with
    op := op, pending := .writeReg (regNumber .ctrl) 1 :: s.pending,
    runState := if s.runState = .busy then .done else s.runState }

end Sys2Proof.Machine
end

