-- ==== Sys2Proof/Machine/Programs.lean ====
section
/-! DEFINITION. The host program notation (30_encoding R103, R104) as lists of bus actions. -/

namespace Sys2Proof.Machine

/-- R103: `w REG, v`. -/
def progWrite (r : Reg) (v : Word) : List BusAction := [.writeReg (regNumber r) v]
/-- R103: `wi k, b0, b1, ...`, one byte write per byte. -/
def progWriteIn (k : Nat) (bs : List Byte) : List BusAction :=
  match bs with
  | [] => []
  | b :: r => .writeIn k b :: progWriteIn (k + 1) r
/-- R103: `r REG`. -/
def progRead (r : Reg) : List BusAction := [.readReg (regNumber r)]
/-- R103: `ro k, n`, n byte reads of OUT from k. -/
def progReadOut (k n : Nat) : List BusAction := (List.range' k n).map .readOut
/-- R103: `start`. -/
def progStart : List BusAction := progWrite .ctrl 1
/-- R103: `wait`. -/
def progWait : List BusAction := [.wait]

/-- R104: `op MNEMONIC`: write OP, start, wait. -/
def progOp (i : Instr) : List BusAction := progWrite .op ((opCode i).setWidth 32) ++ progStart ++ progWait
/-- R104: `load b0, ..., b(n−1)`: the bytes from IN[0], then IN_LEN. -/
def progLoad (bs : List Byte) : List BusAction :=
  progWriteIn 0 bs ++ progWrite .inLen (BitVec.ofNat 32 bs.length)
/-- R104: `entry i, afi, tag, addr, mask, nh, metric`: six writes in that order. -/
def progEntry (i : Fin 25) (afi tag addr mask nh metric : Word) : List BusAction :=
  progWrite (.ent i .afi) afi ++ progWrite (.ent i .tag) tag ++ progWrite (.ent i .addr) addr
    ++ progWrite (.ent i .mask) mask ++ progWrite (.ent i .nh) nh ++ progWrite (.ent i .metric) metric
/-- R104: `entry1 i, afi, addr, metric`: three writes. -/
def progEntry1 (i : Fin 25) (afi addr metric : Word) : List BusAction :=
  progWrite (.ent i .afi) afi ++ progWrite (.ent i .addr) addr ++ progWrite (.ent i .metric) metric

end Sys2Proof.Machine
end

