-- ==== Sys2Proof/Machine/Step.lean ====
section
/-! DEFINITION. One step of the whole machine, and how the host's table check places an operation. -/

namespace Sys2Proof.Machine

/-- One step: the host's next bus action, or nothing where it has none. A START runs the decoded operation. -/
def step (s : State) : Host.Outcome State Fault Refusal := busStep s

/-- `s` with the operation whose bits are `w` selected by OP and started by the host's next action. -/
def State.withFetchWord (s : State) (nbits w : Nat) : State := placeOp s (BitVec.ofNat 8 (w % 2 ^ nbits))

end Sys2Proof.Machine
end

