-- ==== Sys2Proof/Safety.lean ====
section
/-! DEFINITION. The terms that claims use: how an operation ends as the spec words it (60_exceptions R261, R262), the
wire fields of a buffer and of a packet (30_encoding R81 to R84) written without the model's codecs, the invariants of
the machine, what a host write stores (10_state R31, R48), and the host's duties (70_reset R294). -/

namespace Sys2Proof.Machine

/-! ## How an operation ends -/

/-- R261: `t` with the completion writes of a success. -/
def okEnd (t : State) : State :=
  { t with
    runState := .done, fail := false,
    errCode := 0, errCause := 0, errByte := 0, errValue := 0, errOffset := 0 }

/-- R262: `s` with the completion writes of an error: its code and payload (R260). -/
def errEnd (s : State) (code cause byte : BitVec 8) (value : BitVec 16) (offset : Nat) : State :=
  { s with
    runState := .done, fail := true,
    errCode := code, errCause := cause, errByte := byte, errValue := value, errOffset := offset }

/-- R262: a failed operation that writes OUT: OUT_LEN is 0 and the error has no payload (R260, serialize side). -/
def errOut (s : State) (code : BitVec 8) : State := { errEnd s code 0 0 0 0 with outLen := 0 }

/-- R262: a failed operation that writes PKT: PKT.VALID is 0. -/
def errPkt (s : State) (code cause byte : BitVec 8) (value : BitVec 16) (offset : Nat) : State :=
  { errEnd s code cause byte value offset with pktValid := false }

/-- R67, R261: `t` is what a successful encoding of `bs` leaves of `s`: the bytes in OUT, OUT_LEN, the completion
writes, and nothing else. -/
def EncodedAs (s t : State) (bs : List Byte) : Prop :=
  t = okEnd { s with outMem := t.outMem, outLen := BitVec.ofNat 10 bs.length }
    ∧ (∀ k (h : k < bs.length), t.outByte k = bs[k])
    ∧ ∀ k, bs.length ≤ k → t.outByte k = s.outByte k

/-- `t` is `s` but for STATUS and the ERR registers. -/
def ErrFrame (s t : State) : Prop :=
  t = { s with
    runState := t.runState, fail := t.fail,
    errCode := t.errCode, errCause := t.errCause, errByte := t.errByte,
    errValue := t.errValue, errOffset := t.errOffset }

/-! ## Wire fields -/

/-- R84: the 16-bit field at a cursor, most significant byte first. -/
def field16 (s : State) (c : Nat) : BitVec 16 := s.inByte c ++ s.inByte (c + 1)

/-- R84: the 32-bit field at a cursor, most significant byte first. -/
def field32 (s : State) (c : Nat) : BitVec 32 :=
  s.inByte c ++ s.inByte (c + 1) ++ s.inByte (c + 2) ++ s.inByte (c + 3)

/-- R84: the two wire bytes of a 16-bit field. -/
def wire16 (v : BitVec 16) : List Byte := [v.extractLsb' 8 8, v.extractLsb' 0 8]

/-- R84: the four wire bytes of a 32-bit field. -/
def wire32 (v : BitVec 32) : List Byte :=
  [v.extractLsb' 24 8, v.extractLsb' 16 8, v.extractLsb' 8 8, v.extractLsb' 0 8]

/-- R85: the wire values of the named AFIs. -/
abbrev afiNamed (v : BitVec 16) : Prop := v = 0 ∨ v = 2 ∨ v = 0xFFFF

/-- Every byte of IN from `lo` up to `hi` is 0. -/
def zeroOn (s : State) (lo hi : Nat) : Prop := ∀ k, lo ≤ k → k < hi → s.inByte k = 0

/-- `buf` holds the bytes `bs` at cursor `c`. -/
def holdsAt (s : State) (c : Nat) (bs : List Byte) : Prop :=
  c + bs.length ≤ s.inLen ∧ ∀ k (h : k < bs.length), s.inByte (c + k) = bs[k]

/-- R81: a header that decodes: a named command, two reserved zeros. Any version is allowed. -/
def headerOk (s : State) (c : Nat) : Prop :=
  c + 4 ≤ s.inLen ∧ s.inByte c < 12 ∧ s.inByte (c + 2) = 0 ∧ s.inByte (c + 3) = 0

/-- R82: a v1 entry that decodes. -/
def entryV1Ok (s : State) (c : Nat) : Prop :=
  c + 20 ≤ s.inLen ∧ afiNamed (field16 s c) ∧ zeroOn s (c + 2) (c + 4) ∧ zeroOn s (c + 8) (c + 16)

/-- R83: a v2 entry that decodes. -/
def entryV2Ok (s : State) (c : Nat) : Prop := c + 20 ≤ s.inLen ∧ afiNamed (field16 s c)

/-- R82, R173: the slot of the v1 entry at a cursor. -/
def slotV1At (s : State) (c : Nat) : Slot where
  afi := afiOf (field16 s c)
  tag := 0
  addr := field32 s (c + 4)
  mask := 0
  nh := 0
  metric := field32 s (c + 16)

/-- R83, R175: the slot of the v2 entry at a cursor. -/
def slotV2At (s : State) (c : Nat) : Slot where
  afi := afiOf (field16 s c)
  tag := field16 s (c + 2)
  addr := field32 s (c + 4)
  mask := field32 s (c + 8)
  nh := field32 s (c + 12)
  metric := field32 s (c + 16)

/-- R82: the 20 wire bytes of a v1 entry; an AFI without a wire value counts as 0 here. -/
def wireV1 (x : Slot) : List Byte :=
  wire16 ((afiCode x.afi).getD 0) ++ [0, 0] ++ wire32 x.addr ++ [0, 0, 0, 0, 0, 0, 0, 0] ++ wire32 x.metric

/-- R83: the 20 wire bytes of a v2 entry; an AFI without a wire value counts as 0 here. -/
def wireV2 (x : Slot) : List Byte :=
  wire16 ((afiCode x.afi).getD 0) ++ wire16 x.tag ++ wire32 x.addr ++ wire32 x.mask ++ wire32 x.nh ++ wire32 x.metric

/-- R81: the 4 wire bytes of a header; an enumerant without a wire value counts as 0 here. -/
def wireHdr (k : CommandKind) (v : Version) : List Byte := [(cmdCode k).getD 0, (verCode v).getD 0, 0, 0]

/-! ## Which operations write what -/

/-- R262: the operations that write OUT. -/
def writesOut (i : Instr) : Bool :=
  match i with
  | .encAfi | .encCmd | .encVer | .encTag | .encMetric | .encIpv4 | .encHdr | .encEnt1 | .encEnt2 => true
  | .serV1 | .serV2 | .serialize => true
  | .readByte | .skipZero | .decAfi | .decCmd | .decVer | .decTag | .decMetric | .decIpv4 => false
  | .decHdr | .decEnt1 | .decEnt2 | .makeV1 | .makeV2 | .parse | .parseV1 | .parseV2 => false

/-- R262: the operations that write PKT. -/
def writesPkt (i : Instr) : Bool :=
  match i with
  | .makeV1 | .makeV2 | .parse | .parseV1 | .parseV2 => true
  | .readByte | .skipZero | .decAfi | .decCmd | .decVer | .decTag | .decMetric | .decIpv4 => false
  | .encAfi | .encCmd | .encVer | .encTag | .encMetric | .encIpv4 | .encHdr | .encEnt1 | .encEnt2 => false
  | .decHdr | .decEnt1 | .decEnt2 | .serV1 | .serV2 | .serialize => false

/-- R260, the column "raised by": the codes an operation can raise in a state whose PKT satisfies R203. Code 0x09 of
PARSE and code 0x12 of the serializers are left out, as the table says they cannot occur. -/
def raises (i : Instr) : List (BitVec 8) :=
  match i with
  | .readByte | .decVer | .decTag | .decMetric | .decIpv4 => [0x01]
  | .skipZero => [0x01, 0x05]
  | .decAfi | .decEnt2 => [0x01, 0x06]
  | .decCmd => [0x01, 0x02]
  | .decHdr => [0x01, 0x02, 0x05]
  | .decEnt1 => [0x01, 0x05, 0x06]
  | .encAfi | .encEnt1 | .encEnt2 => [0x13]
  | .encCmd => [0x11]
  | .encVer => [0x12]
  | .encTag | .encMetric | .encIpv4 => []
  | .encHdr => [0x11, 0x12]
  | .makeV1 | .makeV2 => [0x21, 0x22]
  | .parse => [0x01, 0x02, 0x03, 0x04, 0x05, 0x06, 0x07, 0x08]
  | .parseV1 | .parseV2 => [0x01, 0x02, 0x05, 0x06, 0x07, 0x08, 0x09]
  | .serV1 | .serV2 => [0x11, 0x13, 0x31, 0x32]
  | .serialize => [0x11, 0x13, 0x31]

/-! ## Invariants -/

/-- R203: what PKT.VALID = 1 implies. -/
def PktOk (s : State) : Prop :=
  s.pktValid = true → s.pktN.toNat ≤ 25 ∧ s.pktVer = kindVersion s.pktKind

/-- R35 to R39, R260: what the STATUS and ERR registers can hold together: nothing, after a success or none; or a
code of the table, with a payload only in the registers that the code uses. -/
def ErrOk (s : State) : Prop :=
  (s.fail = false ∧ s.errCode = 0 ∧ s.errCause = 0 ∧ s.errByte = 0 ∧ s.errValue = 0 ∧ s.errOffset = 0)
  ∨ (s.fail = true ∧ s.runState = .done
      ∧ s.errCode ∈ [0x01#8, 0x02#8, 0x03#8, 0x04#8, 0x05#8, 0x06#8, 0x07#8, 0x08#8, 0x09#8, 0x11#8, 0x12#8, 0x13#8,
          0x21#8, 0x22#8, 0x30#8, 0x31#8, 0x32#8]
      ∧ (if s.errCode = 0x09 then s.errCause = 0x21 ∨ s.errCause = 0x22 else s.errCause = 0)
      ∧ (s.errByte ≠ 0 → s.errCode = 0x02 ∨ s.errCode = 0x05)
      ∧ (s.errValue ≠ 0 → s.errCode = 0x06)
      ∧ (s.errOffset ≠ 0 → 0x01 ≤ s.errCode ∧ s.errCode ≤ 0x08))

/-- The invariant of the machine: admissible parameters (R6), both buffers canonical and inside their spaces (R60),
lengths and cursors within W_LEN bits (R39 to R42), BUSY never observed (R34), R203 and the ERR registers. -/
structure BlockInv (s : State) : Prop where
  par : s.par.wf = true
  inWf : s.inMem.wf = true
  inBelow : s.inMem.below s.par.inCap = true
  outWf : s.outMem.wf = true
  outBelow : s.outMem.below Config.outCap = true
  inLen : s.inLen ≤ s.par.inCap
  outLen : s.outLen.toNat ≤ Config.outCap
  cur : s.cur < 2 ^ s.par.wLen
  errOffset : s.errOffset < 2 ^ s.par.wLen
  notBusy : s.runState ≠ .busy
  pkt : PktOk s
  err : ErrOk s

/-! ## What the host stores and reads -/

/-- R31: the AFI that a host write of `v` stores: bits 15:0 read as an AFI if UNK (bit 16) is 0 and they are named,
else `Unknown`. -/
def afiStored (v : Word) : Afi :=
  if v.getLsbD 16 = false ∧ afiNamed (v.extractLsb' 0 16) then afiOf (v.extractLsb' 0 16) else .unknown

/-- R31: the command that a host write of `v` stores. -/
def cmdStored (v : Word) : CommandKind :=
  if v.getLsbD 8 = false ∧ v.extractLsb' 0 8 < 12 then cmdOf (v.extractLsb' 0 8) else .unknown

/-- R31: the version that a host write of `v` stores. -/
def verStored (v : Word) : Version :=
  if v.getLsbD 8 = false ∧ v.extractLsb' 0 8 ≤ 2 then verOf (v.extractLsb' 0 8) else .unknown

/-- R31: what an AFI register reads as after a host write of `v`: the value written, or `1 << 16`. -/
def afiReadBack (v : Word) : Word :=
  if v.getLsbD 16 = false ∧ afiNamed (v.extractLsb' 0 16) then (v.extractLsb' 0 16).setWidth 32 else 0x10000

/-- R31: what a command register reads as after a host write of `v`: the value written, or `1 << 8`. -/
def cmdReadBack (v : Word) : Word :=
  if v.getLsbD 8 = false ∧ v.extractLsb' 0 8 < 12 then (v.extractLsb' 0 8).setWidth 32 else 0x100

/-- R31: what a version register reads as after a host write of `v`: the value written, or `1 << 8`. -/
def verReadBack (v : Word) : Word :=
  if v.getLsbD 8 = false ∧ v.extractLsb' 0 8 ≤ 2 then (v.extractLsb' 0 8).setWidth 32 else 0x100

/-- R294: a host read has returned `w` and changed nothing else. -/
def readAs (s : State) (w : Word) : State := { s with seen := w :: s.seen }

/-- R294: the host's write of `v` to register number `n` takes `s` to `t`, where its read of `n` returns `w`. -/
def WritesThenReads (n : Nat) (v : Word) (s t : State) (w : Word) : Prop :=
  busWriteReg n v s = .next t ∧ busReadReg n t = readAs t w

/-- R48, R49: `s` with slot `i` of PKT.ENT replaced by a host write, which clears PKT.VALID. -/
def putSlot (s : State) (i : Fin 25) (x : Slot) : State :=
  { s with pktEnt := s.pktEnt.set i.val x i.isLt, pktValid := false }

/-- R34: the word that STATUS reads as. -/
def statusReads (s : State) : Word :=
  (match s.runState with | .idle => 0 | .busy => 1 | .done => 2) + (if s.fail then 4 else 0)

/-! ## The host's duties -/

/-- R51: the read-only registers. -/
def regReadOnly (r : Reg) : Bool :=
  match r with
  | .status | .errCode | .errCause | .errByte | .errValue | .errOffset | .outLen | .pktValid | .pktKind => true
  | .op | .ctrl | .inLen | .cur | .cnt | .fvVal | .fvUnk | .hrCmd | .hrVer | .er _ => false
  | .pktCmd | .pktVer | .pktN | .ent _ _ => false

/-- R48, R49: the content registers of PKT. -/
def regPktContent (r : Reg) : Bool :=
  match r with
  | .pktCmd | .pktVer | .pktN | .ent _ _ => true
  | .op | .ctrl | .status | .errCode | .errCause | .errByte | .errValue | .errOffset => false
  | .inLen | .outLen | .cur | .cnt | .fvVal | .fvUnk | .hrCmd | .hrVer | .er _ | .pktValid | .pktKind => false

/-- R294: the action keeps the host's duties in this state: IN_LEN stays within IN_CAP, and while BUSY nothing is
written but what is ignored anyway. -/
def hostDuty (s : State) (a : BusAction) : Prop :=
  match a with
  | .writeReg n v =>
    (regAt n = some .inLen → cutLen s.par v ≤ s.par.inCap)
    ∧ (s.runState = .busy → ∀ r, regAt n = some r → regReadOnly r = true ∨ (r = .ctrl ∧ v.getLsbD 0 = false))
  | .writeIn k _ => s.runState = .busy → s.par.inCap ≤ k
  | .readReg _ | .readIn _ | .writeOut _ _ | .readOut _ | .wait | .reset => True

end Sys2Proof.Machine
end

