-- ==== Sys2Proof/Certificates/Slice0/Obligations.lean ====
section
/-! DEFINITION. The statements for the provers. Each is about the block for every state, in the terms of
Sys2Proof/Safety.lean; its docstring names the rule of spec/ that it formalises. A statement that rests on a choice of
the model names the log entry (n<k> is notes/assumptions/<k>.md). -/

open Sys2Proof Sys2Proof.Machine

/-! ## Group 0: cursor primitives -/

/-- R121: READ_BYTE reads the byte at CUR into FV and moves CUR, or reports the shortage at CUR. -/
def Obligations.ReadByteResult : Prop :=
  decodeOp 0x01 = some .readByte ∧
  ∀ s : State, exec .readByte s = .next (
    if s.cur < s.inLen then okEnd { s with fvVal := (s.inByte s.cur).setWidth 32, fvUnk := false, cur := s.cur + 1 }
    else errEnd s 0x01 0 0 0 s.cur)

/-- R122: SKIP_ZERO moves CUR over CNT zero bytes; it reports the first byte that is not zero, one past it, and
otherwise the shortage. -/
def Obligations.SkipZeroResult : Prop :=
  decodeOp 0x02 = some .skipZero ∧
  (∀ s : State, zeroOn s s.cur (s.cur + s.cnt.toNat) → (s.cnt = 0 ∨ s.cur + s.cnt.toNat ≤ s.inLen) →
    exec .skipZero s = .next (okEnd { s with cur := s.cur + s.cnt.toNat })) ∧
  (∀ (s : State) (k : Nat), s.cur ≤ k → k < s.cur + s.cnt.toNat → k < s.inLen → zeroOn s s.cur k → s.inByte k ≠ 0 →
    exec .skipZero s = .next (errEnd s 0x05 0 (s.inByte k) 0 (k + 1))) ∧
  (∀ s : State, s.cnt ≠ 0 → s.inLen < s.cur + s.cnt.toNat → zeroOn s s.cur s.inLen →
    exec .skipZero s = .next (errEnd s 0x01 0 0 0 (max s.cur s.inLen)))

/-! ## Group 1: field decoders -/

/-- R125, R126: DEC_AFI reads the two bytes first, then checks the value; the offset of an unlisted value depends on
AFI_ERR_OFFSET_MODE. -/
def Obligations.DecAfiResult : Prop :=
  decodeOp 0x10 = some .decAfi ∧
  ∀ s : State, exec .decAfi s = .next (
    if s.inLen < s.cur + 2 then errEnd s 0x01 0 0 0 (max s.cur s.inLen)
    else if afiNamed (field16 s s.cur) then
      okEnd { s with fvVal := (field16 s s.cur).setWidth 32, fvUnk := false, cur := s.cur + 2 }
    else errEnd s 0x06 0 0 (field16 s s.cur)
      (match s.par.afiMode with | .secondByte => s.cur + 1 | .onePast => s.cur + 2))

/-- R128: DEC_CMD accepts the bytes 0 to 11 and reports any other, one past it. -/
def Obligations.DecCmdResult : Prop :=
  decodeOp 0x12 = some .decCmd ∧
  ∀ s : State, exec .decCmd s = .next (
    if s.inLen ≤ s.cur then errEnd s 0x01 0 0 0 s.cur
    else if s.inByte s.cur < 12 then
      okEnd { s with fvVal := (s.inByte s.cur).setWidth 32, fvUnk := false, cur := s.cur + 1 }
    else errEnd s 0x02 0 (s.inByte s.cur) 0 (s.cur + 1))

/-- R130: DEC_VER never fails on the value; a byte above 2 decodes to the sentinel. -/
def Obligations.DecVerResult : Prop :=
  decodeOp 0x14 = some .decVer ∧
  ∀ s : State, exec .decVer s = .next (
    if s.inLen ≤ s.cur then errEnd s 0x01 0 0 0 s.cur
    else if s.inByte s.cur ≤ 2 then
      okEnd { s with fvVal := (s.inByte s.cur).setWidth 32, fvUnk := false, cur := s.cur + 1 }
    else okEnd { s with fvVal := 0, fvUnk := true, cur := s.cur + 1 })

/-- R132: DEC_TAG reads two bytes, most significant first. -/
def Obligations.DecTagResult : Prop :=
  decodeOp 0x16 = some .decTag ∧
  ∀ s : State, exec .decTag s = .next (
    if s.inLen < s.cur + 2 then errEnd s 0x01 0 0 0 (max s.cur s.inLen)
    else okEnd { s with fvVal := (field16 s s.cur).setWidth 32, fvUnk := false, cur := s.cur + 2 })

/-- R134: DEC_METRIC reads four bytes, most significant first, without a range check. -/
def Obligations.DecMetricResult : Prop :=
  decodeOp 0x18 = some .decMetric ∧
  ∀ s : State, exec .decMetric s = .next (
    if s.inLen < s.cur + 4 then errEnd s 0x01 0 0 0 (max s.cur s.inLen)
    else okEnd { s with fvVal := field32 s s.cur, fvUnk := false, cur := s.cur + 4 })

/-- R136: DEC_IPV4 reads four octets, the first in bits 31:24. -/
def Obligations.DecIpv4Result : Prop :=
  decodeOp 0x1A = some .decIpv4 ∧
  ∀ s : State, exec .decIpv4 s = .next (
    if s.inLen < s.cur + 4 then errEnd s 0x01 0 0 0 (max s.cur s.inLen)
    else okEnd { s with fvVal := field32 s s.cur, fvUnk := false, cur := s.cur + 4 })

/-! ## Group 1: field encoders -/

/-- R127: ENC_AFI encodes a named AFI in two bytes and refuses the sentinel; FV.VAL[31:16] is ignored. -/
def Obligations.EncAfiResult : Prop :=
  decodeOp 0x11 = some .encAfi ∧
  (∀ s : State, s.fvUnk = false → afiNamed (s.fvVal.extractLsb' 0 16) →
    ∃ t, exec .encAfi s = .next t ∧ EncodedAs s t [s.fvVal.extractLsb' 8 8, s.fvVal.extractLsb' 0 8]) ∧
  (∀ s : State, s.fvUnk = true ∨ ¬ afiNamed (s.fvVal.extractLsb' 0 16) →
    exec .encAfi s = .next (errOut s 0x13))

/-- R129: ENC_CMD encodes the bytes 0 to 11 and refuses the sentinel. -/
def Obligations.EncCmdResult : Prop :=
  decodeOp 0x13 = some .encCmd ∧
  (∀ s : State, s.fvUnk = false → s.fvVal.extractLsb' 0 8 < 12 →
    ∃ t, exec .encCmd s = .next t ∧ EncodedAs s t [s.fvVal.extractLsb' 0 8]) ∧
  (∀ s : State, s.fvUnk = true ∨ 12 ≤ s.fvVal.extractLsb' 0 8 → exec .encCmd s = .next (errOut s 0x11))

/-- R131: ENC_VER encodes the bytes 0 to 2 and refuses the sentinel. -/
def Obligations.EncVerResult : Prop :=
  decodeOp 0x15 = some .encVer ∧
  (∀ s : State, s.fvUnk = false → s.fvVal.extractLsb' 0 8 ≤ 2 →
    ∃ t, exec .encVer s = .next t ∧ EncodedAs s t [s.fvVal.extractLsb' 0 8]) ∧
  (∀ s : State, s.fvUnk = true ∨ 2 < s.fvVal.extractLsb' 0 8 → exec .encVer s = .next (errOut s 0x12))

/-- R133, R135, R137: ENC_TAG, ENC_METRIC and ENC_IPV4 always encode FV.VAL, most significant byte first; FV.UNK and
the bits above the field are ignored. -/
def Obligations.EncPlainResult : Prop :=
  decodeOp 0x17 = some .encTag ∧ decodeOp 0x19 = some .encMetric ∧ decodeOp 0x1B = some .encIpv4 ∧
  ∀ s : State,
    (∃ t, exec .encTag s = .next t ∧ EncodedAs s t [s.fvVal.extractLsb' 8 8, s.fvVal.extractLsb' 0 8]) ∧
    (∃ t, exec .encMetric s = .next t ∧ EncodedAs s t
      [s.fvVal.extractLsb' 24 8, s.fvVal.extractLsb' 16 8, s.fvVal.extractLsb' 8 8, s.fvVal.extractLsb' 0 8]) ∧
    (∃ t, exec .encIpv4 s = .next t ∧ EncodedAs s t
      [s.fvVal.extractLsb' 24 8, s.fvVal.extractLsb' 16 8, s.fvVal.extractLsb' 8 8, s.fvVal.extractLsb' 0 8])

/-! ## Group 2: record codecs -/

/-- R171: DEC_HDR decodes the four header bytes; the first failing check in byte order is reported. -/
def Obligations.DecHdrResult : Prop :=
  decodeOp 0x20 = some .decHdr ∧
  ∀ s : State, exec .decHdr s = .next (
    if s.inLen ≤ s.cur then errEnd s 0x01 0 0 0 s.cur
    else if 12 ≤ s.inByte s.cur then errEnd s 0x02 0 (s.inByte s.cur) 0 (s.cur + 1)
    else if s.inLen ≤ s.cur + 1 then errEnd s 0x01 0 0 0 (s.cur + 1)
    else if s.inLen ≤ s.cur + 2 then errEnd s 0x01 0 0 0 (s.cur + 2)
    else if s.inByte (s.cur + 2) ≠ 0 then errEnd s 0x05 0 (s.inByte (s.cur + 2)) 0 (s.cur + 3)
    else if s.inLen ≤ s.cur + 3 then errEnd s 0x01 0 0 0 (s.cur + 3)
    else if s.inByte (s.cur + 3) ≠ 0 then errEnd s 0x05 0 (s.inByte (s.cur + 3)) 0 (s.cur + 4)
    else okEnd { s with
      hrCmd := cmdOf (s.inByte s.cur), hrVer := verOf (s.inByte (s.cur + 1)), cur := s.cur + 4 })

/-- R172: ENC_HDR encodes HR in four bytes; an Unknown command is reported before an Unknown version. -/
def Obligations.EncHdrResult : Prop :=
  decodeOp 0x21 = some .encHdr ∧
  (∀ s : State, s.hrCmd ≠ .unknown → s.hrVer ≠ .unknown →
    ∃ t, exec .encHdr s = .next t ∧ EncodedAs s t (wireHdr s.hrCmd s.hrVer)) ∧
  (∀ s : State, s.hrCmd = .unknown → exec .encHdr s = .next (errOut s 0x11)) ∧
  (∀ s : State, s.hrCmd ≠ .unknown → s.hrVer = .unknown → exec .encHdr s = .next (errOut s 0x12))

/-- R173: DEC_ENT1 decodes a v1 entry into ER; the AFI is judged first, then the reserved bytes in byte order, each
reported one past it, and a shortage where it is met. -/
def Obligations.DecEnt1Result : Prop :=
  decodeOp 0x22 = some .decEnt1 ∧
  (∀ s : State, entryV1Ok s s.cur →
    exec .decEnt1 s = .next (okEnd { s with er := slotV1At s s.cur, cur := s.cur + 20 })) ∧
  (∀ s : State, s.cur + 2 ≤ s.inLen → ¬ afiNamed (field16 s s.cur) →
    exec .decEnt1 s = .next (errEnd s 0x06 0 0 (field16 s s.cur)
      (match s.par.afiMode with | .secondByte => s.cur + 1 | .onePast => s.cur + 2))) ∧
  (∀ (s : State) (j : Nat), j ∈ [2, 3, 8, 9, 10, 11, 12, 13, 14, 15] → s.cur + j < s.inLen →
    afiNamed (field16 s s.cur) →
    (∀ k ∈ [2, 3, 8, 9, 10, 11, 12, 13, 14, 15], k < j → s.inByte (s.cur + k) = 0) → s.inByte (s.cur + j) ≠ 0 →
    exec .decEnt1 s = .next (errEnd s 0x05 0 (s.inByte (s.cur + j)) 0 (s.cur + j + 1))) ∧
  (∀ s : State, s.inLen < s.cur + 20 → (s.cur + 2 ≤ s.inLen → afiNamed (field16 s s.cur)) →
    (∀ k ∈ [2, 3, 8, 9, 10, 11, 12, 13, 14, 15], s.cur + k < s.inLen → s.inByte (s.cur + k) = 0) →
    exec .decEnt1 s = .next (errEnd s 0x01 0 0 0 (max s.cur s.inLen)))

/-- R174: ENC_ENT1 encodes ER as a v1 entry of 20 bytes; TAG, MASK and NH are ignored. -/
def Obligations.EncEnt1Result : Prop :=
  decodeOp 0x23 = some .encEnt1 ∧
  (∀ s : State, s.er.afi ≠ .unknown → ∃ t, exec .encEnt1 s = .next t ∧ EncodedAs s t (wireV1 s.er)) ∧
  (∀ s : State, s.er.afi = .unknown → exec .encEnt1 s = .next (errOut s 0x13))

/-- R175: DEC_ENT2 decodes a v2 entry into ER; only the AFI and the length can fail. -/
def Obligations.DecEnt2Result : Prop :=
  decodeOp 0x24 = some .decEnt2 ∧
  ∀ s : State, exec .decEnt2 s = .next (
    if s.inLen < s.cur + 2 then errEnd s 0x01 0 0 0 (max s.cur s.inLen)
    else if ¬ afiNamed (field16 s s.cur) then errEnd s 0x06 0 0 (field16 s s.cur)
      (match s.par.afiMode with | .secondByte => s.cur + 1 | .onePast => s.cur + 2)
    else if s.inLen < s.cur + 20 then errEnd s 0x01 0 0 0 (max s.cur s.inLen)
    else okEnd { s with er := slotV2At s s.cur, cur := s.cur + 20 })

/-- R176: ENC_ENT2 encodes all six fields of ER in 20 bytes. -/
def Obligations.EncEnt2Result : Prop :=
  decodeOp 0x25 = some .encEnt2 ∧
  (∀ s : State, s.er.afi ≠ .unknown → ∃ t, exec .encEnt2 s = .next t ∧ EncodedAs s t (wireV2 s.er)) ∧
  (∀ s : State, s.er.afi = .unknown → exec .encEnt2 s = .next (errOut s 0x13))

/-! ## Group 3: construction -/

/-- R201, R202: MAKE_V1 and MAKE_V2 check the version before the count, mark PKT valid with its kind, and leave the
content registers alone. -/
def Obligations.MakeResult : Prop :=
  decodeOp 0x30 = some .makeV1 ∧ decodeOp 0x31 = some .makeV2 ∧
  ∀ s : State,
    exec .makeV1 s = .next (
      if s.pktVer ≠ .version1 then errPkt s 0x21 0 0 0 0
      else if 25 < s.pktN.toNat then errPkt s 0x22 0 0 0 0
      else okEnd { s with pktValid := true, pktKind := .v1 }) ∧
    exec .makeV2 s = .next (
      if s.pktVer ≠ .version2 then errPkt s 0x21 0 0 0 0
      else if 25 < s.pktN.toNat then errPkt s 0x22 0 0 0 0
      else okEnd { s with pktValid := true, pktKind := .v2 })

/-! ## Group 4: parse -/

/-- R220, R222, R223, R224: a buffer of a v1 header and 1 to 25 v1 entries parses, by PARSE and by PARSE_V1, into PKT:
the header, the count, the entries in order, and the slots above untouched. -/
def Obligations.ParseAcceptsV1 : Prop :=
  ∀ (s : State) (n : Nat), 1 ≤ n → n ≤ 25 → s.inLen = 4 + 20 * n → headerOk s 0 → s.inByte 1 = 1 →
    (∀ i, i < n → entryV1Ok s (4 + 20 * i)) →
    ∃ t, exec .parse s = .next t ∧ exec .parseV1 s = .next t ∧
      t = okEnd { s with
        pktValid := true, pktKind := .v1, pktCmd := cmdOf (s.inByte 0), pktVer := .version1,
        pktN := BitVec.ofNat 8 n, pktEnt := t.pktEnt } ∧
      ∀ i : Fin 25, t.pktEnt[i] = if i.val < n then slotV1At s (4 + 20 * i.val) else s.pktEnt[i]

/-- R220, R222, R223, R225: a buffer of a v2 header and 1 to 25 v2 entries parses, by PARSE and by PARSE_V2. -/
def Obligations.ParseAcceptsV2 : Prop :=
  ∀ (s : State) (n : Nat), 1 ≤ n → n ≤ 25 → s.inLen = 4 + 20 * n → headerOk s 0 → s.inByte 1 = 2 →
    (∀ i, i < n → entryV2Ok s (4 + 20 * i)) →
    ∃ t, exec .parse s = .next t ∧ exec .parseV2 s = .next t ∧
      t = okEnd { s with
        pktValid := true, pktKind := .v2, pktCmd := cmdOf (s.inByte 0), pktVer := .version2,
        pktN := BitVec.ofNat 8 n, pktEnt := t.pktEnt } ∧
      ∀ i : Fin 25, t.pktEnt[i] = if i.val < n then slotV2At s (4 + 20 * i.val) else s.pktEnt[i]

/-- R220, R224, R225: after a good header PARSE rejects version 0 with MustBeDiscardedVersion(2) and versions 3 to 255
with UnknownVersion(2); PARSE_V1 and PARSE_V2 reject every other version with InvalidPacket(VersionInHeaderConflicted).
No entry is read: the outcome is the same whatever follows the header. -/
def Obligations.ParseRejectsVersion : Prop :=
  ∀ s : State, headerOk s 0 →
    (s.inByte 1 = 0 → exec .parse s = .next (errPkt s 0x04 0 0 0 2)) ∧
    (3 ≤ s.inByte 1 → exec .parse s = .next (errPkt s 0x03 0 0 0 2)) ∧
    (s.inByte 1 ≠ 1 → exec .parseV1 s = .next (errPkt s 0x09 0x21 0 0 0)) ∧
    (s.inByte 1 ≠ 2 → exec .parseV2 s = .next (errPkt s 0x09 0x21 0 0 0))

/-- R222: a good header with nothing after it has no entry: EmptyRIPEntry(4). When more than 504 bytes are there and the
first 25 entries decode, MaxRIPEntriesNumberExceeded(504). -/
def Obligations.ParseRejectsEntryCount : Prop :=
  ∀ s : State, headerOk s 0 →
    (s.inLen = 4 →
      (s.inByte 1 = 1 → ∀ i ∈ [Instr.parse, .parseV1], exec i s = .next (errPkt s 0x07 0 0 0 4)) ∧
      (s.inByte 1 = 2 → ∀ i ∈ [Instr.parse, .parseV2], exec i s = .next (errPkt s 0x07 0 0 0 4))) ∧
    (504 < s.inLen →
      (s.inByte 1 = 1 → (∀ k, k < 25 → entryV1Ok s (4 + 20 * k)) →
        ∀ i ∈ [Instr.parse, .parseV1], exec i s = .next (errPkt s 0x08 0 0 0 504)) ∧
      (s.inByte 1 = 2 → (∀ k, k < 25 → entryV2Ok s (4 + 20 * k)) →
        ∀ i ∈ [Instr.parse, .parseV2], exec i s = .next (errPkt s 0x08 0 0 0 504)))

/-- R220, R224, R225, R264: where DEC_HDR at offset 0 fails, the three parse operations fail with the same error. -/
def Obligations.ParseSurfacesHeaderError : Prop :=
  ∀ s u : State, exec .decHdr { s with cur := 0 } = .next u → u.fail = true →
    ∀ i ∈ [Instr.parse, .parseV1, .parseV2],
      exec i s = .next (errPkt s u.errCode u.errCause u.errByte u.errValue u.errOffset)

/-- R222, R264: where the entries before entry k decode and DEC_ENT1 (DEC_ENT2) at 4 + 20k fails, the parse of that
version fails with the same error, unchanged. -/
def Obligations.ParseSurfacesEntryError : Prop :=
  ∀ (s u : State) (k : Nat), headerOk s 0 → k < 25 → 4 + 20 * k < s.inLen → u.fail = true →
    (s.inByte 1 = 1 → (∀ i, i < k → entryV1Ok s (4 + 20 * i)) →
      exec .decEnt1 { s with cur := 4 + 20 * k } = .next u →
      ∀ i ∈ [Instr.parse, .parseV1],
        exec i s = .next (errPkt s u.errCode u.errCause u.errByte u.errValue u.errOffset)) ∧
    (s.inByte 1 = 2 → (∀ i, i < k → entryV2Ok s (4 + 20 * i)) →
      exec .decEnt2 { s with cur := 4 + 20 * k } = .next u →
      ∀ i ∈ [Instr.parse, .parseV2],
        exec i s = .next (errPkt s u.errCode u.errCause u.errByte u.errValue u.errOffset))

/-- R231: the three parse operations read no byte at an index ≥ min(IN_LEN, 504), so that their outcome does not depend
on any other content of IN; and the range of the offset that each of their errors reports, at most 504. -/
def Obligations.ParseReadsAndOffsetsBounded : Prop :=
  ∀ (s : State) (i : Instr), i ∈ [Instr.parse, .parseV1, .parseV2] →
    (∀ m : Memory, (∀ k, k < min s.inLen 504 → State.inByte { s with inMem := m } k = s.inByte k) →
      ∃ t, exec i s = .next t ∧ exec i { s with inMem := m } = .next { t with inMem := m }) ∧
    ∀ t : State, exec i s = .next t → t.fail = true →
      t.errOffset ≤ 504
      ∧ (t.errCode = 0x01 → t.errOffset = s.inLen ∧ s.inLen ≤ 503)
      ∧ (t.errCode = 0x02 → t.errOffset = 1)
      ∧ (t.errCode = 0x03 ∨ t.errCode = 0x04 → t.errOffset = 2)
      ∧ (t.errCode = 0x05 → t.errOffset ≤ 500)
      ∧ (t.errCode = 0x06 → t.errOffset ≤ 486)
      ∧ (t.errCode = 0x07 → t.errOffset = 4)
      ∧ (t.errCode = 0x08 → t.errOffset = 504)

/-! ## Group 5: serialize -/

/-- R227, R229: SER_V1, and SERIALIZE of a v1 packet: header bytes, then the bytes of each entry in order. -/
def Obligations.SerializeV1Result : Prop :=
  ∀ s : State, s.pktValid = true → s.pktKind = .v1 → s.pktN.toNat ≤ 25 →
    s.pktCmd ≠ .unknown → s.pktVer ≠ .unknown → (∀ i : Fin 25, i.val < s.pktN.toNat → s.pktEnt[i].afi ≠ .unknown) →
    ∃ t, exec .serV1 s = .next t ∧ exec .serialize s = .next t ∧
      EncodedAs s t (wireHdr s.pktCmd s.pktVer ++ (s.pktEnt.toList.take s.pktN.toNat).flatMap wireV1) ∧
      t.outLen.toNat = 4 + 20 * s.pktN.toNat

/-- R228, R229: SER_V2, and SERIALIZE of a v2 packet. -/
def Obligations.SerializeV2Result : Prop :=
  ∀ s : State, s.pktValid = true → s.pktKind = .v2 → s.pktN.toNat ≤ 25 →
    s.pktCmd ≠ .unknown → s.pktVer ≠ .unknown → (∀ i : Fin 25, i.val < s.pktN.toNat → s.pktEnt[i].afi ≠ .unknown) →
    ∃ t, exec .serV2 s = .next t ∧ exec .serialize s = .next t ∧
      EncodedAs s t (wireHdr s.pktCmd s.pktVer ++ (s.pktEnt.toList.take s.pktN.toNat).flatMap wireV2) ∧
      t.outLen.toNat = 4 + 20 * s.pktN.toNat

/-- R266: without a valid packet the three serializers raise NoPacket; SER_V1 and SER_V2 refuse the other kind. -/
def Obligations.SerializeRefusesOtherPacket : Prop :=
  ∀ s : State,
    (s.pktValid = false → ∀ i ∈ [Instr.serV1, .serV2, .serialize], exec i s = .next (errOut s 0x31)) ∧
    (s.pktValid = true → s.pktKind = .v2 → exec .serV1 s = .next (errOut s 0x32)) ∧
    (s.pktValid = true → s.pktKind = .v1 → exec .serV2 s = .next (errOut s 0x32))

/-- R226, R264: a valid packet with an Unknown command does not serialize, whatever its entries; one with an Unknown
AFI in an entry in use does not either. -/
def Obligations.SerializeRefusesUnknown : Prop :=
  ∀ (s : State) (i : Instr), s.pktValid = true → s.pktN.toNat ≤ 25 →
    (i = .serialize ∨ (i = .serV1 ∧ s.pktKind = .v1) ∨ (i = .serV2 ∧ s.pktKind = .v2)) →
    (s.pktCmd = .unknown → exec i s = .next (errOut s 0x11)) ∧
    (s.pktCmd ≠ .unknown → s.pktVer ≠ .unknown →
      (∃ j : Fin 25, j.val < s.pktN.toNat ∧ s.pktEnt[j].afi = .unknown) → exec i s = .next (errOut s 0x13))

/-! ## Laws of the codecs -/

/-- R138: each field codec decodes what it encoded; a decode moves the cursor by the field's width and, unless it gave
the sentinel, encodes back to the bytes read; only decVer gives a result that its encoder refuses. -/
def Obligations.FieldCodecLaws : Prop :=
  ∀ (s : State) (c : Nat),
    (∀ a bs, encAfi a = .ok bs → holdsAt s c bs → decAfi s c = .ok (a, c + bs.length)) ∧
    (∀ k bs, encCmd k = .ok bs → holdsAt s c bs → decCmd s c = .ok (k, c + bs.length)) ∧
    (∀ v bs, encVer v = .ok bs → holdsAt s c bs → decVer s c = .ok (v, c + bs.length)) ∧
    (∀ t, holdsAt s c (encTag t) → decTag s c = .ok (t, c + 2)) ∧
    (∀ m, holdsAt s c (encMetric m) → decMetric s c = .ok (m, c + 4)) ∧
    (∀ a, holdsAt s c (encIpv4 a) → decIpv4 s c = .ok (a, c + 4)) ∧
    (∀ a c', decAfi s c = .ok (a, c') → c' = c + 2 ∧ ∃ bs, encAfi a = .ok bs ∧ bs.length = 2 ∧ holdsAt s c bs) ∧
    (∀ k c', decCmd s c = .ok (k, c') → c' = c + 1 ∧ ∃ bs, encCmd k = .ok bs ∧ bs.length = 1 ∧ holdsAt s c bs) ∧
    (∀ v c', decVer s c = .ok (v, c') → c' = c + 1
      ∧ if v = .unknown then encVer v = .error .serUnknownVersion
        else ∃ bs, encVer v = .ok bs ∧ bs.length = 1 ∧ holdsAt s c bs) ∧
    (∀ t c', decTag s c = .ok (t, c') → c' = c + 2 ∧ (encTag t).length = 2 ∧ holdsAt s c (encTag t)) ∧
    (∀ m c', decMetric s c = .ok (m, c') → c' = c + 4 ∧ (encMetric m).length = 4 ∧ holdsAt s c (encMetric m)) ∧
    (∀ a c', decIpv4 s c = .ok (a, c') → c' = c + 4 ∧ (encIpv4 a).length = 4 ∧ holdsAt s c (encIpv4 a))

/-- R177: the record codecs decode what they encoded, and encode back the bytes a decode has read. -/
def Obligations.RecordCodecLaws : Prop :=
  ∀ (s : State) (c : Nat),
    (∀ h : Header, h.command ≠ .unknown → h.version ≠ .unknown →
      ∃ bs, encHdr h = .ok bs ∧ (holdsAt s c bs → decHdr s c = .ok (h, c + 4))) ∧
    (∀ e : EntryV1, e.afi ≠ .unknown →
      ∃ bs, encEnt1 e = .ok bs ∧ (holdsAt s c bs → decEnt1 s c = .ok (e, c + 20))) ∧
    (∀ e : EntryV2, e.afi ≠ .unknown →
      ∃ bs, encEnt2 e = .ok bs ∧ (holdsAt s c bs → decEnt2 s c = .ok (e, c + 20))) ∧
    (∀ h c', decHdr s c = .ok (h, c') → h.command ≠ .unknown
      ∧ (h.version ≠ .unknown → ∃ bs, encHdr h = .ok bs ∧ bs.length = 4 ∧ holdsAt s c bs)) ∧
    (∀ e c', decEnt1 s c = .ok (e, c') → ∃ bs, encEnt1 e = .ok bs ∧ bs.length = 20 ∧ holdsAt s c bs) ∧
    (∀ e c', decEnt2 s c = .ok (e, c') → ∃ bs, encEnt2 e = .ok bs ∧ bs.length = 20 ∧ holdsAt s c bs)

/-- R230 law 1: if a parse operation succeeds on `buf`, a following SERIALIZE gives back exactly `buf` in OUT. -/
def Obligations.ParseThenSerialize : Prop :=
  ∀ (s t : State) (i : Instr), i ∈ [Instr.parse, .parseV1, .parseV2] → exec i s = .next t → t.fail = false →
    ∃ u, exec .serialize t = .next u ∧ u.fail = false ∧ u.outLen.toNat = s.inLen
      ∧ ∀ k, k < s.inLen → u.outByte k = s.inByte k

/-- R230 law 2: let the bytes that SERIALIZE gives of a valid packet with at least one entry (R203's facts hold of it)
be the input of a state `u`; PARSE of `u` gives back a packet of the same kind, header and entries. -/
def Obligations.SerializeThenParse : Prop :=
  ∀ s t u : State, s.pktValid = true → PktOk s → 1 ≤ s.pktN.toNat →
    exec .serialize s = .next t → t.fail = false →
    u.inLen = t.outLen.toNat → (∀ k, k < u.inLen → u.inByte k = t.outByte k) →
    ∃ v, exec .parse u = .next v ∧ v.fail = false ∧ v.pktValid = true ∧ v.pktKind = s.pktKind
      ∧ v.pktN = s.pktN
      ∧ match s.pktKind with
        | .v1 => pktV1 v = pktV1 s
        | .v2 => pktV2 v = pktV2 s

/-- R230 law 3: a valid packet without entries serializes to its 4 header bytes, and PARSE of those raises
EmptyRIPEntry(4). -/
def Obligations.EmptyPacketDoesNotRoundTrip : Prop :=
  ∀ s u : State, s.pktValid = true → PktOk s → s.pktN = 0 → s.pktCmd ≠ .unknown →
    holdsAt u 0 (wireHdr s.pktCmd s.pktVer) → u.inLen = 4 →
    (∃ t, exec .serialize s = .next t ∧ EncodedAs s t (wireHdr s.pktCmd s.pktVer))
      ∧ exec .parse u = .next (errPkt u 0x07 0 0 0 4)

/-! ## Completion, errors and frames -/

/-- R261: every operation ends, in one transition, with STATUS DONE, which the host reads as 0x2 after a success and
0x6 after an error (R34); where it raised nothing every ERR register is 0. -/
def Obligations.EveryOperationEndsDone : Prop :=
  ∀ (i : Instr) (s : State), ∃ t, exec i s = .next t ∧ t.runState = .done
    ∧ regRead t .status = (if t.fail then 0x6 else 0x2)
    ∧ (t.fail = false → t.errCode = 0 ∧ t.errCause = 0 ∧ t.errByte = 0 ∧ t.errValue = 0 ∧ t.errOffset = 0)

/-- R262, R263: a failed operation leaves the state before it intact but for STATUS, the ERR registers, OUT_LEN of an
operation that writes OUT, and PKT.VALID of one that writes PKT. -/
def Obligations.FailureBookkeeping : Prop :=
  ∀ (i : Instr) (s t : State), exec i s = .next t → t.fail = true →
    t = { errEnd s t.errCode t.errCause t.errByte t.errValue t.errOffset with
      outLen := if writesOut i then 0 else s.outLen,
      pktValid := if writesPkt i then false else s.pktValid }

/-- R260: an operation raises only the codes that the table lists it under, in a state whose PKT satisfies R203, and
each payload register holds 0 unless the code uses it. -/
def Obligations.ErrorCodesOfTable : Prop :=
  ∀ (i : Instr) (s t : State), PktOk s → exec i s = .next t → t.fail = true → t.errCode ∈ raises i ∧ ErrOk t

/-- R265: where OP holds a value that the table does not assign, writing 1 to CTRL.START outside BUSY raises IllegalOp,
which writes STATUS and the ERR registers and nothing else; OP = 0, its reset value, is one. -/
def Obligations.IllegalOpResult : Prop :=
  (∀ (s : State) (v : Word), decodeOp s.op = none → v.getLsbD 0 = true → s.runState ≠ .busy →
    busWriteReg 0x001 v s = .next (errEnd s 0x30 0 0 0 0)) ∧
  busWriteReg 0x001 1 State.reset = .next (errEnd State.reset 0x30 0 0 0 0)

/-- The frame of the decoders (R120, R170): READ_BYTE, SKIP_ZERO and the field decoders write FV and CUR, DEC_HDR
writes HR and CUR, the entry decoders write ER and CUR, SKIP_ZERO writes CUR alone; beside these only STATUS and the
ERR registers change, and no byte of IN or OUT. -/
def Obligations.DecoderFrame : Prop :=
  ∀ (i : Instr) (s t : State), exec i s = .next t →
    i ∈ [Instr.readByte, .skipZero, .decAfi, .decCmd, .decVer, .decTag, .decMetric, .decIpv4, .decHdr, .decEnt1,
      .decEnt2] →
    ErrFrame { s with fvVal := t.fvVal, fvUnk := t.fvUnk, hrCmd := t.hrCmd, hrVer := t.hrVer, er := t.er, cur := t.cur } t
    ∧ (∀ k, t.inByte k = s.inByte k) ∧ (∀ k, t.outByte k = s.outByte k)
    ∧ (i ∈ [Instr.skipZero, .decHdr, .decEnt1, .decEnt2] → t.fvVal = s.fvVal ∧ t.fvUnk = s.fvUnk)
    ∧ (i ≠ .decHdr → t.hrCmd = s.hrCmd ∧ t.hrVer = s.hrVer)
    ∧ (i ≠ .decEnt1 → i ≠ .decEnt2 → t.er = s.er)
    ∧ s.cur ≤ t.cur

/-- The frame of the encoders and serializers (R67, R120): only OUT[0 .. OUT_LEN − 1], OUT_LEN, STATUS and the ERR
registers change, and no byte of IN; a failure writes no byte of OUT, since OUT_LEN is then 0. -/
def Obligations.EncoderFrame : Prop :=
  ∀ (i : Instr) (s t : State), exec i s = .next t → writesOut i = true →
    ErrFrame { s with outMem := t.outMem, outLen := t.outLen } t
    ∧ (∀ k, t.inByte k = s.inByte k)
    ∧ (∀ k, t.outLen.toNat ≤ k → t.outByte k = s.outByte k)
    ∧ (t.fail = true → t.outLen = 0) ∧ t.outLen.toNat ≤ 504

/-- The frame of construction and parse (R201, R202, R223): MAKE_V1 and MAKE_V2 write PKT.VALID and PKT.KIND, a parse
also the content of PKT, slots at index ≥ PKT.N excepted; CUR, IN and OUT are not written. -/
def Obligations.PacketFrame : Prop :=
  ∀ (i : Instr) (s t : State), exec i s = .next t → writesPkt i = true →
    ErrFrame { s with
      pktValid := t.pktValid, pktKind := t.pktKind, pktCmd := t.pktCmd, pktVer := t.pktVer, pktN := t.pktN,
      pktEnt := t.pktEnt } t
    ∧ (∀ k, t.inByte k = s.inByte k) ∧ (∀ k, t.outByte k = s.outByte k)
    ∧ (∀ j : Fin 25, t.pktN.toNat ≤ j.val → t.pktEnt[j] = s.pktEnt[j])
    ∧ (i = .makeV1 ∨ i = .makeV2 ∨ t.fail = true →
        t.pktCmd = s.pktCmd ∧ t.pktVer = s.pktVer ∧ t.pktN = s.pktN ∧ t.pktEnt = s.pktEnt)
    ∧ (t.fail = true → t.pktValid = false ∧ t.pktKind = s.pktKind)

/-- R61: IN bytes at indices ≥ IN_LEN never affect a result, for any operation. -/
def Obligations.OnlyTheBufferMatters : Prop :=
  ∀ (i : Instr) (s : State) (m : Memory),
    (∀ k, k < s.inLen → State.inByte { s with inMem := m } k = s.inByte k) →
    ∃ t, exec i s = .next t ∧ exec i { s with inMem := m } = .next { t with inMem := m }

/-! ## The value maps and the host's side -/

/-- R31, R45, R46, R48: the six kinds of enumeration register, HR.CMD, HR.VER, ER.AFI, PKT.CMD, PKT.VER and
PKT.ENT[i].AFI. Outside BUSY a host write stores the enumerant of the written bits if they are named with UNK = 0, else
`Unknown`, and changes nothing else but PKT.VALID for a PKT register (R49); the host then reads the written bits, or
`1 << w`. The two maps between enumerants and words that the registers use agree, for every word and enumerant. -/
def Obligations.EnumRegistersAreWarl : Prop :=
  (∀ (s : State) (v : Word), s.runState ≠ .busy →
    WritesThenReads 0x010 v s { s with hrCmd := cmdStored v } (cmdReadBack v) ∧
    WritesThenReads 0x011 v s { s with hrVer := verStored v } (verReadBack v) ∧
    WritesThenReads 0x018 v s { s with er := { s.er with afi := afiStored v } } (afiReadBack v) ∧
    WritesThenReads 0x022 v s { s with pktCmd := cmdStored v, pktValid := false } (cmdReadBack v) ∧
    WritesThenReads 0x023 v s { s with pktVer := verStored v, pktValid := false } (verReadBack v) ∧
    ∀ i : Fin 25, WritesThenReads (0x100 + 8 * i.val) v s (putSlot s i { s.pktEnt[i] with afi := afiStored v })
      (afiReadBack v)) ∧
  (∀ v : Word, afiHeld (afiWarl v) = afiReadBack v) ∧
  (∀ v : Word, cmdHeld (cmdWarl v) = cmdReadBack v) ∧
  (∀ v : Word, verHeld (verWarl v) = verReadBack v) ∧
  (∀ a, afiWarl (afiHeld a) = a) ∧ (∀ k, cmdWarl (cmdHeld k) = k) ∧ (∀ v, verWarl (verHeld v) = v)

/-- R49: outside BUSY a host write to any content register of PKT clears PKT.VALID in the same step, whatever the
value. What it stores is R48's: the register written takes the bits of its width, an enumeration register the
enumerant of R31, and no other register changes. -/
def Obligations.PktWriteClearsValid : Prop :=
  (∀ (s : State) (n : Nat) (r : Reg) (v : Word), regAt n = some r → regPktContent r = true → s.runState ≠ .busy →
    ∃ t, busWriteReg n v s = .next t ∧ t.pktValid = false
      ∧ t = { s with
        pktCmd := t.pktCmd, pktVer := t.pktVer, pktN := t.pktN, pktEnt := t.pktEnt, pktValid := false }) ∧
  (∀ (s : State) (v : Word), s.runState ≠ .busy →
    busWriteReg 0x022 v s = .next { s with pktCmd := cmdStored v, pktValid := false } ∧
    busWriteReg 0x023 v s = .next { s with pktVer := verStored v, pktValid := false } ∧
    busWriteReg 0x024 v s = .next { s with pktN := v.extractLsb' 0 8, pktValid := false } ∧
    ∀ i : Fin 25,
      busWriteReg (0x100 + 8 * i.val) v s = .next (putSlot s i { s.pktEnt[i] with afi := afiStored v }) ∧
      busWriteReg (0x101 + 8 * i.val) v s = .next (putSlot s i { s.pktEnt[i] with tag := v.extractLsb' 0 16 }) ∧
      busWriteReg (0x102 + 8 * i.val) v s = .next (putSlot s i { s.pktEnt[i] with addr := v }) ∧
      busWriteReg (0x103 + 8 * i.val) v s = .next (putSlot s i { s.pktEnt[i] with mask := v }) ∧
      busWriteReg (0x104 + 8 * i.val) v s = .next (putSlot s i { s.pktEnt[i] with nh := v }) ∧
      busWriteReg (0x105 + 8 * i.val) v s = .next (putSlot s i { s.pktEnt[i] with metric := v }))

/-- R51, R294, R41: host writes to read-only registers, to unmapped register numbers and to OUT are ignored. -/
def Obligations.IgnoredWrites : Prop :=
  (∀ (s : State) (n : Nat) (v : Word), (∀ r, regAt n = some r → regReadOnly r = true) →
    busWriteReg n v s = .next s) ∧
  (∀ (s : State) (k : Nat) (b : Byte), busAct (.writeOut k b) s = .next s)

/-- R51: the register map: the number of each register, its width, and that a mapped number names one register, below
0x1C8. -/
def Obligations.RegisterMapIsInjective : Prop :=
  (∀ r : Reg, regAt (regNumber r) = some r ∧ regNumber r < 0x1C8) ∧
  (∀ (n : Nat) (r : Reg), regAt n = some r → n = regNumber r) ∧
  [Reg.op, .ctrl, .status, .errCode, .errCause, .errByte, .errValue, .errOffset, .inLen, .outLen, .cur, .cnt, .fvVal,
      .fvUnk].map regNumber
    = [0x000, 0x001, 0x002, 0x003, 0x004, 0x005, 0x006, 0x007, 0x008, 0x009, 0x00A, 0x00B, 0x00C, 0x00D] ∧
  [Reg.hrCmd, .hrVer, .er .afi, .er .tag, .er .addr, .er .mask, .er .nh, .er .metric, .pktValid, .pktKind, .pktCmd,
      .pktVer, .pktN].map regNumber
    = [0x010, 0x011, 0x018, 0x019, 0x01A, 0x01B, 0x01C, 0x01D, 0x020, 0x021, 0x022, 0x023, 0x024] ∧
  (∀ i : Fin 25, [EntField.afi, .tag, .addr, .mask, .nh, .metric].map (fun f => regNumber (.ent i f))
    = [0, 1, 2, 3, 4, 5].map (fun f => 0x100 + 8 * i.val + f)) ∧
  (∀ p : Config.Params,
    [Reg.op, .ctrl, .status, .errCode, .errCause, .errByte, .errValue, .errOffset, .inLen, .outLen, .cur, .cnt, .fvVal,
        .fvUnk].map (regWidth p)
      = [8, 1, 3, 8, 8, 8, 16, p.wLen, p.wLen, 10, p.wLen, 16, 32, 1] ∧
    [Reg.hrCmd, .hrVer, .pktValid, .pktKind, .pktCmd, .pktVer, .pktN].map (regWidth p) = [9, 9, 1, 1, 9, 9, 8] ∧
    [EntField.afi, .tag, .addr, .mask, .nh, .metric].map (fun f => regWidth p (.er f)) = [17, 16, 32, 32, 32, 32] ∧
    ∀ i f, regWidth p (.ent i f) = regWidth p (.er f))

/-- R32, R40, R42 to R46, R48, R294: outside BUSY a host write to a plain register stores the bits of its width and
changes nothing else, but for PKT.VALID, which a write to PKT content clears (R49); the host then reads them back.
IN_LEN takes the values up to IN_CAP. The cut of CUR and IN_LEN to W_LEN bits before the store is the model's reading
(n7). -/
def Obligations.WriteThenRead : Prop :=
  (∀ (s : State) (v : Word), s.par.wf = true → s.runState ≠ .busy →
    WritesThenReads 0x000 v s { s with op := v.extractLsb' 0 8 } ((v.extractLsb' 0 8).setWidth 32) ∧
    (v.toNat % 2 ^ s.par.wLen ≤ s.par.inCap →
      WritesThenReads 0x008 v s { s with inLen := v.toNat % 2 ^ s.par.wLen } (BitVec.ofNat 32 (v.toNat % 2 ^ s.par.wLen))) ∧
    WritesThenReads 0x00A v s { s with cur := v.toNat % 2 ^ s.par.wLen } (BitVec.ofNat 32 (v.toNat % 2 ^ s.par.wLen)) ∧
    WritesThenReads 0x00B v s { s with cnt := v.extractLsb' 0 16 } ((v.extractLsb' 0 16).setWidth 32) ∧
    WritesThenReads 0x00C v s { s with fvVal := v } v ∧
    WritesThenReads 0x00D v s { s with fvUnk := v.getLsbD 0 } (if v.getLsbD 0 then 1 else 0) ∧
    WritesThenReads 0x019 v s { s with er := { s.er with tag := v.extractLsb' 0 16 } } ((v.extractLsb' 0 16).setWidth 32) ∧
    WritesThenReads 0x01A v s { s with er := { s.er with addr := v } } v ∧
    WritesThenReads 0x01B v s { s with er := { s.er with mask := v } } v ∧
    WritesThenReads 0x01C v s { s with er := { s.er with nh := v } } v ∧
    WritesThenReads 0x01D v s { s with er := { s.er with metric := v } } v ∧
    WritesThenReads 0x024 v s { s with pktN := v.extractLsb' 0 8, pktValid := false } ((v.extractLsb' 0 8).setWidth 32) ∧
    ∀ i : Fin 25,
      WritesThenReads (0x101 + 8 * i.val) v s (putSlot s i { s.pktEnt[i] with tag := v.extractLsb' 0 16 })
        ((v.extractLsb' 0 16).setWidth 32) ∧
      WritesThenReads (0x102 + 8 * i.val) v s (putSlot s i { s.pktEnt[i] with addr := v }) v ∧
      WritesThenReads (0x103 + 8 * i.val) v s (putSlot s i { s.pktEnt[i] with mask := v }) v ∧
      WritesThenReads (0x104 + 8 * i.val) v s (putSlot s i { s.pktEnt[i] with nh := v }) v ∧
      WritesThenReads (0x105 + 8 * i.val) v s (putSlot s i { s.pktEnt[i] with metric := v }) v) ∧
  (∀ (s : State) (r : Reg) (v : Word), s.par.wf = true → s.runState ≠ .busy →
    r ∈ [Reg.op, .cur, .cnt, .fvVal, .fvUnk, .pktN] ∨ (∃ f, f ≠ .afi ∧ r = .er f)
      ∨ (∃ i f, f ≠ .afi ∧ r = .ent i f) →
    ∃ t, busWriteReg (regNumber r) v s = .next t
      ∧ (busReadReg (regNumber r) t).seen = BitVec.ofNat 32 (v.toNat % 2 ^ regWidth s.par r) :: s.seen)

/-- R40, R60: the host's IN bytes: a write is read back, no other byte changes, and an index at or above IN_CAP ignores
writes and reads 0. R34 to R48, R51, R60, R294: the host's reads: outside BUSY every register, IN byte and OUT byte
reads as what it holds, an OUT index from 504 on and an unmapped register number read 0, and a read changes nothing.
OP, CTRL, STATUS, IN_LEN, CNT and IN read so while BUSY too. In DONE, `wait` reads STATUS once (R103; one noted poll a
step is the model's, n13). -/
def Obligations.HostInSpace : Prop :=
  (∀ (s : State) (k : Nat) (b : Byte), s.par.wf = true → s.runState ≠ .busy →
    (k < s.par.inCap → ∃ t, busAct (.writeIn k b) s = .next t ∧ t = { s with inMem := t.inMem }
      ∧ t.inByte k = b ∧ (∀ j, j ≠ k → t.inByte j = s.inByte j) ∧ busReadIn k t = readAs t (b.setWidth 32)) ∧
    (s.par.inCap ≤ k → busAct (.writeIn k b) s = .next s ∧ (busReadIn k s).seen = 0 :: s.seen)) ∧
  (∀ (s : State) (k : Nat), s.par.wf = true →
    busReadIn k s = readAs s (if k < s.par.inCap then (s.inByte k).setWidth 32 else 0)) ∧
  (∀ (s : State) (k : Nat), s.runState ≠ .busy →
    busReadOut k s = readAs s (if k < 504 then (s.outByte k).setWidth 32 else 0)) ∧
  (∀ (s : State) (n : Nat), (∀ r, regNumber r ≠ n) → busReadReg n s = readAs s 0) ∧
  (∀ s : State, s.runState = .done → busAct .wait s = .next (readAs s (if s.fail then 0x6 else 0x2))) ∧
  (∀ s : State,
    busReadReg 0x000 s = readAs s (s.op.setWidth 32) ∧ busReadReg 0x001 s = readAs s 0 ∧
    busReadReg 0x002 s = readAs s (statusReads s) ∧ busReadReg 0x008 s = readAs s (BitVec.ofNat 32 s.inLen) ∧
    busReadReg 0x00B s = readAs s (s.cnt.setWidth 32)) ∧
  (∀ s : State, s.runState ≠ .busy →
    busReadReg 0x003 s = readAs s (s.errCode.setWidth 32) ∧ busReadReg 0x004 s = readAs s (s.errCause.setWidth 32) ∧
    busReadReg 0x005 s = readAs s (s.errByte.setWidth 32) ∧ busReadReg 0x006 s = readAs s (s.errValue.setWidth 32) ∧
    busReadReg 0x007 s = readAs s (BitVec.ofNat 32 s.errOffset) ∧ busReadReg 0x009 s = readAs s (s.outLen.setWidth 32) ∧
    busReadReg 0x00A s = readAs s (BitVec.ofNat 32 s.cur) ∧ busReadReg 0x00C s = readAs s s.fvVal ∧
    busReadReg 0x00D s = readAs s (if s.fvUnk then 1 else 0) ∧ busReadReg 0x010 s = readAs s (cmdHeld s.hrCmd) ∧
    busReadReg 0x011 s = readAs s (verHeld s.hrVer) ∧ busReadReg 0x018 s = readAs s (afiHeld s.er.afi) ∧
    busReadReg 0x019 s = readAs s (s.er.tag.setWidth 32) ∧ busReadReg 0x01A s = readAs s s.er.addr ∧
    busReadReg 0x01B s = readAs s s.er.mask ∧ busReadReg 0x01C s = readAs s s.er.nh ∧
    busReadReg 0x01D s = readAs s s.er.metric ∧ busReadReg 0x020 s = readAs s (if s.pktValid then 1 else 0) ∧
    busReadReg 0x021 s = readAs s (match s.pktKind with | .v1 => 0 | .v2 => 1) ∧
    busReadReg 0x022 s = readAs s (cmdHeld s.pktCmd) ∧ busReadReg 0x023 s = readAs s (verHeld s.pktVer) ∧
    busReadReg 0x024 s = readAs s (s.pktN.setWidth 32) ∧
    ∀ i : Fin 25,
      busReadReg (0x100 + 8 * i.val) s = readAs s (afiHeld s.pktEnt[i].afi) ∧
      busReadReg (0x101 + 8 * i.val) s = readAs s (s.pktEnt[i].tag.setWidth 32) ∧
      busReadReg (0x102 + 8 * i.val) s = readAs s s.pktEnt[i].addr ∧
      busReadReg (0x103 + 8 * i.val) s = readAs s s.pktEnt[i].mask ∧
      busReadReg (0x104 + 8 * i.val) s = readAs s s.pktEnt[i].nh ∧
      busReadReg (0x105 + 8 * i.val) s = readAs s s.pktEnt[i].metric)

/-- The model's choice n6: the acts that R294 and R295 give no move end in a named fault: a write to an operand
register, OP, IN_LEN or an IN byte and a START while BUSY, and a length above IN_CAP, which is judged on the W_LEN bits
of the word (n7). A read of a result register or of an OUT byte while BUSY returns a free value of its width (R296,
n5); an OUT index that does not exist reads 0 (R60). -/
def Obligations.HostHazards : Prop :=
  ∀ s : State, s.par.wf = true →
    (s.runState = .busy →
      (∀ v : Word, v.getLsbD 0 = true → busWriteReg 0x001 v s = .fault .hostStartWhileBusy) ∧
      (∀ n r v, regAt n = some r → regReadOnly r = false → r ≠ .ctrl → r ≠ .inLen →
        busWriteReg n v s = .fault .hostWriteWhileBusy) ∧
      (∀ v : Word, busWriteReg 0x008 v s = .fault (
        if v.toNat % 2 ^ s.par.wLen ≤ s.par.inCap then .hostWriteWhileBusy else .hostInLenAboveCap)) ∧
      (∀ k b, k < s.par.inCap → busAct (.writeIn k b) s = .fault .hostWriteWhileBusy) ∧
      (∀ n r, regAt n = some r → regIsResult r = true →
        ∃ w : Word, w.toNat < 2 ^ regWidth s.par r
          ∧ busReadReg n s = { s with seen := w :: s.seen, draws := s.draws + 1 }) ∧
      (∀ k, k < 504 → ∃ w : Word, w.toNat < 2 ^ 8
        ∧ busReadOut k s = { s with seen := w :: s.seen, draws := s.draws + 1 }) ∧
      (∀ k, 504 ≤ k → busReadOut k s = readAs s 0)) ∧
    (s.runState ≠ .busy → ∀ v : Word,
      busWriteReg 0x008 v s =
        if v.toNat % 2 ^ s.par.wLen ≤ s.par.inCap then .next { s with inLen := v.toNat % 2 ^ s.par.wLen }
        else .fault .hostInLenAboveCap)

/-! ## Steps, reset and invariants -/

/-- A step runs the decoded operation (R33; the host's list `pending` is the model's, n3): when the host's next action
writes 1 to CTRL.START and OP decodes to `i`, the step is exec of `i` in the state whose list has moved on. Writing 0
to START does nothing, and with nothing to do the machine keeps its state. Any other next action is performed likewise,
a register write and a read as `busWriteReg`, `busReadReg`, `busReadIn` and `busReadOut` say. -/
def Obligations.StepRunsDecodedOperation : Prop :=
  (∀ (s : State) (i : Instr) (v : Word) (rest : List BusAction),
    s.pending = .writeReg 0x001 v :: rest → v.getLsbD 0 = true → s.runState ≠ .busy → decode [s.op] = .ok (i, []) →
    step s = exec i { s with pending := rest }) ∧
  (∀ (s : State) (v : Word) (rest : List BusAction),
    s.pending = .writeReg 0x001 v :: rest → v.getLsbD 0 = false → step s = .next { s with pending := rest }) ∧
  (∀ s : State, s.pending = [] → step s = .next s) ∧
  (∀ (s : State) (a : BusAction) (rest : List BusAction),
    s.pending = a :: rest → step s = busAct a { s with pending := rest }) ∧
  (∀ (s : State) (n : Nat) (v : Word),
    busAct (.writeReg n v) s = busWriteReg n v s ∧ busAct (.readReg n) s = .next (busReadReg n s) ∧
    busAct (.readIn n) s = .next (busReadIn n s) ∧ busAct (.readOut n) s = .next (busReadOut n s))

/-- R290: what reset leaves in every register, after power-on and after a reset in any state. -/
def Obligations.ResetValues : Prop :=
  ∀ s : State, s = State.reset ∨ (∃ s0, s = resetBlock s0) →
    s.op = 0x00 ∧ regRead s .ctrl = 0 ∧ s.runState = .idle ∧ s.fail = false
    ∧ s.errCode = 0 ∧ s.errCause = 0 ∧ s.errByte = 0 ∧ s.errValue = 0 ∧ s.errOffset = 0
    ∧ s.inLen = 0 ∧ s.outLen = 0 ∧ s.cur = 0 ∧ s.cnt = 0 ∧ s.fvVal = 0 ∧ s.fvUnk = false
    ∧ s.hrCmd = .invalid ∧ s.hrVer = .mustBeDiscarded
    ∧ s.er.afi = .unspecified ∧ s.er.tag = 0 ∧ s.er.addr = 0 ∧ s.er.mask = 0 ∧ s.er.nh = 0 ∧ s.er.metric = 0
    ∧ s.pktValid = false ∧ s.pktKind = .v1 ∧ s.pktCmd = .invalid ∧ s.pktVer = .mustBeDiscarded ∧ s.pktN = 0
    ∧ ∀ i : Fin 25, s.pktEnt[i] = { afi := .unspecified, tag := 0, addr := 0, mask := 0, nh := 0, metric := 0 }

/-- The invariant of the machine is kept by every step, from every state that has it. -/
def Obligations.StepKeepsInv : Prop := ∀ s t : State, BlockInv s → step s = .next t → BlockInv t

/-- The invariant of the machine holds at reset, for every admissible choice of the parameters. -/
def Obligations.ResetHasInv : Prop := BlockInv State.reset

/-- R203: in every reachable state PKT.VALID = 1 implies PKT.N ≤ 25 and the version of the kind: it holds at reset, and
every host action, the start of any operation among them, keeps it. -/
def Obligations.ValidPacketInvariant : Prop :=
  PktOk State.reset ∧ ∀ (a : BusAction) (s t : State), PktOk s → busAct a s = .next t → PktOk t

/-- R47: PKT.VALID and PKT.KIND change only by MAKE_V1, MAKE_V2, PARSE, PARSE_V1 and PARSE_V2, which may set or clear
them; by a host write to a content register of PKT, which clears VALID and keeps KIND; and by reset, which clears VALID
(R290; reset as an action is n9). Setting VALID is thus left to the five operations. -/
def Obligations.ValidOnlyByMakeOrParse : Prop :=
  ∀ (a : BusAction) (s t : State), busAct a s = .next t →
    t.pktValid ≠ s.pktValid ∨ t.pktKind ≠ s.pktKind →
    (∃ v i, a = .writeReg 0x001 v ∧ v.getLsbD 0 = true ∧ decodeOp s.op = some i ∧ writesPkt i = true)
    ∨ (∃ n v r, a = .writeReg n v ∧ regAt n = some r ∧ regPktContent r = true ∧ t.pktValid = false
        ∧ t.pktKind = s.pktKind)
    ∨ (a = .reset ∧ t.pktValid = false ∧ t.pktKind = .v1)

/-- R32, R6, R40: an operation writes neither OP, nor IN, nor the parameters; no step changes the parameters. -/
def Obligations.OperationsKeepOpAndIn : Prop :=
  (∀ (i : Instr) (s t : State), exec i s = .next t →
    t.op = s.op ∧ t.par = s.par ∧ t.inMem = s.inMem ∧ t.inLen = s.inLen ∧ t.cnt = s.cnt ∧ t.epoch = s.epoch
      ∧ t.pending = s.pending ∧ t.seen = s.seen ∧ t.draws = s.draws) ∧
  (∀ s t : State, step s = .next t → t.par = s.par)

/-- R294, with three choices of the model: as long as the host keeps its duties the machine never stops, and a stop
means that a duty was broken. That a broken duty is a stop is n6; that IN_LEN is judged on the W_LEN bits of the word
is n7 (DEDUCED, unsafe); that while BUSY a write of 0 to CTRL.START and a write to an IN index at or above IN_CAP break
no duty is n8 (DEDUCED, unsafe). These clauses are the model's choices, not words of R294. -/
def Obligations.StopsOnlyOnBrokenDuty : Prop :=
  ∀ (s : State) (a : BusAction) (rest : List BusAction), s.par.wf = true → s.pending = a :: rest →
    ((∃ t, step s = .next t) ↔ hostDuty s a)

/-! ## Encoding -/

/-- R100, R101: the decoder gives an operation exactly on its own OP word; the 28 assigned words are those of the
table, and the other 228 of 256 are refused by name. -/
def Obligations.DecodeMatchesEncode : Prop :=
  (∀ (i : Instr) (rest : List Byte), i.wf = true → decode (encode i ++ rest) = .ok (i, rest)) ∧
  (∀ (b : Byte) (i : Instr), decodeOp b = some i → encode i = [b]) ∧
  ((List.range 256).filter fun n => (decodeOp (BitVec.ofNat 8 n)).isNone).length = 228 ∧
  (∀ b : Byte, decodeOp b = none → decode [b] = .error (.unassigned b))

/-- R100: every word of the table, written out bit by bit from its group and function columns, decodes to the operation
of its row. -/
def Obligations.TableWordsDecode : Prop :=
  decode [0b00000001#8] = .ok (.readByte, []) ∧ decode [0b00000010#8] = .ok (.skipZero, []) ∧
  decode [0b00010000#8] = .ok (.decAfi, []) ∧ decode [0b00010001#8] = .ok (.encAfi, []) ∧
  decode [0b00010010#8] = .ok (.decCmd, []) ∧ decode [0b00010011#8] = .ok (.encCmd, []) ∧
  decode [0b00010100#8] = .ok (.decVer, []) ∧ decode [0b00010101#8] = .ok (.encVer, []) ∧
  decode [0b00010110#8] = .ok (.decTag, []) ∧ decode [0b00010111#8] = .ok (.encTag, []) ∧
  decode [0b00011000#8] = .ok (.decMetric, []) ∧ decode [0b00011001#8] = .ok (.encMetric, []) ∧
  decode [0b00011010#8] = .ok (.decIpv4, []) ∧ decode [0b00011011#8] = .ok (.encIpv4, []) ∧
  decode [0b00100000#8] = .ok (.decHdr, []) ∧ decode [0b00100001#8] = .ok (.encHdr, []) ∧
  decode [0b00100010#8] = .ok (.decEnt1, []) ∧ decode [0b00100011#8] = .ok (.encEnt1, []) ∧
  decode [0b00100100#8] = .ok (.decEnt2, []) ∧ decode [0b00100101#8] = .ok (.encEnt2, []) ∧
  decode [0b00110000#8] = .ok (.makeV1, []) ∧ decode [0b00110001#8] = .ok (.makeV2, []) ∧
  decode [0b01000000#8] = .ok (.parse, []) ∧ decode [0b01000001#8] = .ok (.parseV1, []) ∧
  decode [0b01000010#8] = .ok (.parseV2, []) ∧ decode [0b01010000#8] = .ok (.serV1, []) ∧
  decode [0b01010001#8] = .ok (.serV2, []) ∧ decode [0b01010010#8] = .ok (.serialize, [])
end

