-- ==== Sys2Proof/Laws/State.lean ====
section
/-! SUPPORT. One lemma per field of State and per update of Machine/Ops.lean, Operands.lean and Bus.lean, each true by
rfl, so that no later proof unfolds a record update. -/

namespace Sys2Proof.Machine

/-! ## complete -/

section
variable (s : State)
@[simp] theorem complete_par : (complete s).par = s.par := rfl
@[simp] theorem complete_op : (complete s).op = s.op := rfl
@[simp] theorem complete_runState : (complete s).runState = .done := rfl
@[simp] theorem complete_fail : (complete s).fail = false := rfl
@[simp] theorem complete_errCode : (complete s).errCode = 0 := rfl
@[simp] theorem complete_errCause : (complete s).errCause = 0 := rfl
@[simp] theorem complete_errByte : (complete s).errByte = 0 := rfl
@[simp] theorem complete_errValue : (complete s).errValue = 0 := rfl
@[simp] theorem complete_errOffset : (complete s).errOffset = 0 := rfl
@[simp] theorem complete_inMem : (complete s).inMem = s.inMem := rfl
@[simp] theorem complete_inLen : (complete s).inLen = s.inLen := rfl
@[simp] theorem complete_outMem : (complete s).outMem = s.outMem := rfl
@[simp] theorem complete_outLen : (complete s).outLen = s.outLen := rfl
@[simp] theorem complete_cur : (complete s).cur = s.cur := rfl
@[simp] theorem complete_cnt : (complete s).cnt = s.cnt := rfl
@[simp] theorem complete_fvVal : (complete s).fvVal = s.fvVal := rfl
@[simp] theorem complete_fvUnk : (complete s).fvUnk = s.fvUnk := rfl
@[simp] theorem complete_hrCmd : (complete s).hrCmd = s.hrCmd := rfl
@[simp] theorem complete_hrVer : (complete s).hrVer = s.hrVer := rfl
@[simp] theorem complete_er : (complete s).er = s.er := rfl
@[simp] theorem complete_pktValid : (complete s).pktValid = s.pktValid := rfl
@[simp] theorem complete_pktKind : (complete s).pktKind = s.pktKind := rfl
@[simp] theorem complete_pktCmd : (complete s).pktCmd = s.pktCmd := rfl
@[simp] theorem complete_pktVer : (complete s).pktVer = s.pktVer := rfl
@[simp] theorem complete_pktN : (complete s).pktN = s.pktN := rfl
@[simp] theorem complete_pktEnt : (complete s).pktEnt = s.pktEnt := rfl
@[simp] theorem complete_pending : (complete s).pending = s.pending := rfl
@[simp] theorem complete_seen : (complete s).seen = s.seen := rfl
@[simp] theorem complete_epoch : (complete s).epoch = s.epoch := rfl
@[simp] theorem complete_draws : (complete s).draws = s.draws := rfl
end

/-! ## raiseErr -/

section
variable (w : ResultClass) (e : Err) (s : State)
@[simp] theorem raiseErr_par : (raiseErr w e s).par = s.par := rfl
@[simp] theorem raiseErr_op : (raiseErr w e s).op = s.op := rfl
@[simp] theorem raiseErr_runState : (raiseErr w e s).runState = .done := rfl
@[simp] theorem raiseErr_fail : (raiseErr w e s).fail = true := rfl
@[simp] theorem raiseErr_errCode : (raiseErr w e s).errCode = errCodeOf e := rfl
@[simp] theorem raiseErr_errCause : (raiseErr w e s).errCause = errCauseOf e := rfl
@[simp] theorem raiseErr_errByte : (raiseErr w e s).errByte = errByteOf e := rfl
@[simp] theorem raiseErr_errValue : (raiseErr w e s).errValue = errValueOf e := rfl
@[simp] theorem raiseErr_errOffset : (raiseErr w e s).errOffset = errOffsetOf e := rfl
@[simp] theorem raiseErr_inMem : (raiseErr w e s).inMem = s.inMem := rfl
@[simp] theorem raiseErr_inLen : (raiseErr w e s).inLen = s.inLen := rfl
@[simp] theorem raiseErr_outMem : (raiseErr w e s).outMem = s.outMem := rfl
@[simp] theorem raiseErr_outLen : (raiseErr w e s).outLen = if w = .out then 0 else s.outLen := rfl
@[simp] theorem raiseErr_cur : (raiseErr w e s).cur = s.cur := rfl
@[simp] theorem raiseErr_cnt : (raiseErr w e s).cnt = s.cnt := rfl
@[simp] theorem raiseErr_fvVal : (raiseErr w e s).fvVal = s.fvVal := rfl
@[simp] theorem raiseErr_fvUnk : (raiseErr w e s).fvUnk = s.fvUnk := rfl
@[simp] theorem raiseErr_hrCmd : (raiseErr w e s).hrCmd = s.hrCmd := rfl
@[simp] theorem raiseErr_hrVer : (raiseErr w e s).hrVer = s.hrVer := rfl
@[simp] theorem raiseErr_er : (raiseErr w e s).er = s.er := rfl
@[simp] theorem raiseErr_pktValid : (raiseErr w e s).pktValid = if w = .packet then false else s.pktValid := rfl
@[simp] theorem raiseErr_pktKind : (raiseErr w e s).pktKind = s.pktKind := rfl
@[simp] theorem raiseErr_pktCmd : (raiseErr w e s).pktCmd = s.pktCmd := rfl
@[simp] theorem raiseErr_pktVer : (raiseErr w e s).pktVer = s.pktVer := rfl
@[simp] theorem raiseErr_pktN : (raiseErr w e s).pktN = s.pktN := rfl
@[simp] theorem raiseErr_pktEnt : (raiseErr w e s).pktEnt = s.pktEnt := rfl
@[simp] theorem raiseErr_pending : (raiseErr w e s).pending = s.pending := rfl
@[simp] theorem raiseErr_seen : (raiseErr w e s).seen = s.seen := rfl
@[simp] theorem raiseErr_epoch : (raiseErr w e s).epoch = s.epoch := rfl
@[simp] theorem raiseErr_draws : (raiseErr w e s).draws = s.draws := rfl
end

/-! ## commitOut -/

section
variable (out : List Byte) (s : State)
@[simp] theorem commitOut_par : (commitOut out s).par = s.par := rfl
@[simp] theorem commitOut_op : (commitOut out s).op = s.op := rfl
@[simp] theorem commitOut_runState : (commitOut out s).runState = s.runState := rfl
@[simp] theorem commitOut_fail : (commitOut out s).fail = s.fail := rfl
@[simp] theorem commitOut_errCode : (commitOut out s).errCode = s.errCode := rfl
@[simp] theorem commitOut_errCause : (commitOut out s).errCause = s.errCause := rfl
@[simp] theorem commitOut_errByte : (commitOut out s).errByte = s.errByte := rfl
@[simp] theorem commitOut_errValue : (commitOut out s).errValue = s.errValue := rfl
@[simp] theorem commitOut_errOffset : (commitOut out s).errOffset = s.errOffset := rfl
@[simp] theorem commitOut_inMem : (commitOut out s).inMem = s.inMem := rfl
@[simp] theorem commitOut_inLen : (commitOut out s).inLen = s.inLen := rfl
@[simp] theorem commitOut_outMem : (commitOut out s).outMem = s.outMem.writeBytes 0 out := rfl
@[simp] theorem commitOut_outLen : (commitOut out s).outLen = BitVec.ofNat 10 out.length := rfl
@[simp] theorem commitOut_cur : (commitOut out s).cur = s.cur := rfl
@[simp] theorem commitOut_cnt : (commitOut out s).cnt = s.cnt := rfl
@[simp] theorem commitOut_fvVal : (commitOut out s).fvVal = s.fvVal := rfl
@[simp] theorem commitOut_fvUnk : (commitOut out s).fvUnk = s.fvUnk := rfl
@[simp] theorem commitOut_hrCmd : (commitOut out s).hrCmd = s.hrCmd := rfl
@[simp] theorem commitOut_hrVer : (commitOut out s).hrVer = s.hrVer := rfl
@[simp] theorem commitOut_er : (commitOut out s).er = s.er := rfl
@[simp] theorem commitOut_pktValid : (commitOut out s).pktValid = s.pktValid := rfl
@[simp] theorem commitOut_pktKind : (commitOut out s).pktKind = s.pktKind := rfl
@[simp] theorem commitOut_pktCmd : (commitOut out s).pktCmd = s.pktCmd := rfl
@[simp] theorem commitOut_pktVer : (commitOut out s).pktVer = s.pktVer := rfl
@[simp] theorem commitOut_pktN : (commitOut out s).pktN = s.pktN := rfl
@[simp] theorem commitOut_pktEnt : (commitOut out s).pktEnt = s.pktEnt := rfl
@[simp] theorem commitOut_pending : (commitOut out s).pending = s.pending := rfl
@[simp] theorem commitOut_seen : (commitOut out s).seen = s.seen := rfl
@[simp] theorem commitOut_epoch : (commitOut out s).epoch = s.epoch := rfl
@[simp] theorem commitOut_draws : (commitOut out s).draws = s.draws := rfl
end

/-! ## writeFv -/

section
variable (s : State) (v : Word) (c : Nat)
@[simp] theorem writeFv_par : (writeFv s v c).par = s.par := rfl
@[simp] theorem writeFv_op : (writeFv s v c).op = s.op := rfl
@[simp] theorem writeFv_runState : (writeFv s v c).runState = s.runState := rfl
@[simp] theorem writeFv_fail : (writeFv s v c).fail = s.fail := rfl
@[simp] theorem writeFv_errCode : (writeFv s v c).errCode = s.errCode := rfl
@[simp] theorem writeFv_errCause : (writeFv s v c).errCause = s.errCause := rfl
@[simp] theorem writeFv_errByte : (writeFv s v c).errByte = s.errByte := rfl
@[simp] theorem writeFv_errValue : (writeFv s v c).errValue = s.errValue := rfl
@[simp] theorem writeFv_errOffset : (writeFv s v c).errOffset = s.errOffset := rfl
@[simp] theorem writeFv_inMem : (writeFv s v c).inMem = s.inMem := rfl
@[simp] theorem writeFv_inLen : (writeFv s v c).inLen = s.inLen := rfl
@[simp] theorem writeFv_outMem : (writeFv s v c).outMem = s.outMem := rfl
@[simp] theorem writeFv_outLen : (writeFv s v c).outLen = s.outLen := rfl
@[simp] theorem writeFv_cur : (writeFv s v c).cur = c := rfl
@[simp] theorem writeFv_cnt : (writeFv s v c).cnt = s.cnt := rfl
@[simp] theorem writeFv_fvVal : (writeFv s v c).fvVal = v := rfl
@[simp] theorem writeFv_fvUnk : (writeFv s v c).fvUnk = false := rfl
@[simp] theorem writeFv_hrCmd : (writeFv s v c).hrCmd = s.hrCmd := rfl
@[simp] theorem writeFv_hrVer : (writeFv s v c).hrVer = s.hrVer := rfl
@[simp] theorem writeFv_er : (writeFv s v c).er = s.er := rfl
@[simp] theorem writeFv_pktValid : (writeFv s v c).pktValid = s.pktValid := rfl
@[simp] theorem writeFv_pktKind : (writeFv s v c).pktKind = s.pktKind := rfl
@[simp] theorem writeFv_pktCmd : (writeFv s v c).pktCmd = s.pktCmd := rfl
@[simp] theorem writeFv_pktVer : (writeFv s v c).pktVer = s.pktVer := rfl
@[simp] theorem writeFv_pktN : (writeFv s v c).pktN = s.pktN := rfl
@[simp] theorem writeFv_pktEnt : (writeFv s v c).pktEnt = s.pktEnt := rfl
@[simp] theorem writeFv_pending : (writeFv s v c).pending = s.pending := rfl
@[simp] theorem writeFv_seen : (writeFv s v c).seen = s.seen := rfl
@[simp] theorem writeFv_epoch : (writeFv s v c).epoch = s.epoch := rfl
@[simp] theorem writeFv_draws : (writeFv s v c).draws = s.draws := rfl
end

/-! ## writeHr -/

section
variable (s : State) (h : Header) (c : Nat)
@[simp] theorem writeHr_par : (writeHr s h c).par = s.par := rfl
@[simp] theorem writeHr_op : (writeHr s h c).op = s.op := rfl
@[simp] theorem writeHr_runState : (writeHr s h c).runState = s.runState := rfl
@[simp] theorem writeHr_fail : (writeHr s h c).fail = s.fail := rfl
@[simp] theorem writeHr_errCode : (writeHr s h c).errCode = s.errCode := rfl
@[simp] theorem writeHr_errCause : (writeHr s h c).errCause = s.errCause := rfl
@[simp] theorem writeHr_errByte : (writeHr s h c).errByte = s.errByte := rfl
@[simp] theorem writeHr_errValue : (writeHr s h c).errValue = s.errValue := rfl
@[simp] theorem writeHr_errOffset : (writeHr s h c).errOffset = s.errOffset := rfl
@[simp] theorem writeHr_inMem : (writeHr s h c).inMem = s.inMem := rfl
@[simp] theorem writeHr_inLen : (writeHr s h c).inLen = s.inLen := rfl
@[simp] theorem writeHr_outMem : (writeHr s h c).outMem = s.outMem := rfl
@[simp] theorem writeHr_outLen : (writeHr s h c).outLen = s.outLen := rfl
@[simp] theorem writeHr_cur : (writeHr s h c).cur = c := rfl
@[simp] theorem writeHr_cnt : (writeHr s h c).cnt = s.cnt := rfl
@[simp] theorem writeHr_fvVal : (writeHr s h c).fvVal = s.fvVal := rfl
@[simp] theorem writeHr_fvUnk : (writeHr s h c).fvUnk = s.fvUnk := rfl
@[simp] theorem writeHr_hrCmd : (writeHr s h c).hrCmd = h.command := rfl
@[simp] theorem writeHr_hrVer : (writeHr s h c).hrVer = h.version := rfl
@[simp] theorem writeHr_er : (writeHr s h c).er = s.er := rfl
@[simp] theorem writeHr_pktValid : (writeHr s h c).pktValid = s.pktValid := rfl
@[simp] theorem writeHr_pktKind : (writeHr s h c).pktKind = s.pktKind := rfl
@[simp] theorem writeHr_pktCmd : (writeHr s h c).pktCmd = s.pktCmd := rfl
@[simp] theorem writeHr_pktVer : (writeHr s h c).pktVer = s.pktVer := rfl
@[simp] theorem writeHr_pktN : (writeHr s h c).pktN = s.pktN := rfl
@[simp] theorem writeHr_pktEnt : (writeHr s h c).pktEnt = s.pktEnt := rfl
@[simp] theorem writeHr_pending : (writeHr s h c).pending = s.pending := rfl
@[simp] theorem writeHr_seen : (writeHr s h c).seen = s.seen := rfl
@[simp] theorem writeHr_epoch : (writeHr s h c).epoch = s.epoch := rfl
@[simp] theorem writeHr_draws : (writeHr s h c).draws = s.draws := rfl
end

/-! ## writeEr -/

section
variable (s : State) (x : Slot) (c : Nat)
@[simp] theorem writeEr_par : (writeEr s x c).par = s.par := rfl
@[simp] theorem writeEr_op : (writeEr s x c).op = s.op := rfl
@[simp] theorem writeEr_runState : (writeEr s x c).runState = s.runState := rfl
@[simp] theorem writeEr_fail : (writeEr s x c).fail = s.fail := rfl
@[simp] theorem writeEr_errCode : (writeEr s x c).errCode = s.errCode := rfl
@[simp] theorem writeEr_errCause : (writeEr s x c).errCause = s.errCause := rfl
@[simp] theorem writeEr_errByte : (writeEr s x c).errByte = s.errByte := rfl
@[simp] theorem writeEr_errValue : (writeEr s x c).errValue = s.errValue := rfl
@[simp] theorem writeEr_errOffset : (writeEr s x c).errOffset = s.errOffset := rfl
@[simp] theorem writeEr_inMem : (writeEr s x c).inMem = s.inMem := rfl
@[simp] theorem writeEr_inLen : (writeEr s x c).inLen = s.inLen := rfl
@[simp] theorem writeEr_outMem : (writeEr s x c).outMem = s.outMem := rfl
@[simp] theorem writeEr_outLen : (writeEr s x c).outLen = s.outLen := rfl
@[simp] theorem writeEr_cur : (writeEr s x c).cur = c := rfl
@[simp] theorem writeEr_cnt : (writeEr s x c).cnt = s.cnt := rfl
@[simp] theorem writeEr_fvVal : (writeEr s x c).fvVal = s.fvVal := rfl
@[simp] theorem writeEr_fvUnk : (writeEr s x c).fvUnk = s.fvUnk := rfl
@[simp] theorem writeEr_hrCmd : (writeEr s x c).hrCmd = s.hrCmd := rfl
@[simp] theorem writeEr_hrVer : (writeEr s x c).hrVer = s.hrVer := rfl
@[simp] theorem writeEr_er : (writeEr s x c).er = x := rfl
@[simp] theorem writeEr_pktValid : (writeEr s x c).pktValid = s.pktValid := rfl
@[simp] theorem writeEr_pktKind : (writeEr s x c).pktKind = s.pktKind := rfl
@[simp] theorem writeEr_pktCmd : (writeEr s x c).pktCmd = s.pktCmd := rfl
@[simp] theorem writeEr_pktVer : (writeEr s x c).pktVer = s.pktVer := rfl
@[simp] theorem writeEr_pktN : (writeEr s x c).pktN = s.pktN := rfl
@[simp] theorem writeEr_pktEnt : (writeEr s x c).pktEnt = s.pktEnt := rfl
@[simp] theorem writeEr_pending : (writeEr s x c).pending = s.pending := rfl
@[simp] theorem writeEr_seen : (writeEr s x c).seen = s.seen := rfl
@[simp] theorem writeEr_epoch : (writeEr s x c).epoch = s.epoch := rfl
@[simp] theorem writeEr_draws : (writeEr s x c).draws = s.draws := rfl
end

/-! ## commitPacket -/

section
variable (k : PktKind) (h : Header) (xs : List Slot) (s : State)
@[simp] theorem commitPacket_par : (commitPacket k h xs s).par = s.par := rfl
@[simp] theorem commitPacket_op : (commitPacket k h xs s).op = s.op := rfl
@[simp] theorem commitPacket_runState : (commitPacket k h xs s).runState = s.runState := rfl
@[simp] theorem commitPacket_fail : (commitPacket k h xs s).fail = s.fail := rfl
@[simp] theorem commitPacket_errCode : (commitPacket k h xs s).errCode = s.errCode := rfl
@[simp] theorem commitPacket_errCause : (commitPacket k h xs s).errCause = s.errCause := rfl
@[simp] theorem commitPacket_errByte : (commitPacket k h xs s).errByte = s.errByte := rfl
@[simp] theorem commitPacket_errValue : (commitPacket k h xs s).errValue = s.errValue := rfl
@[simp] theorem commitPacket_errOffset : (commitPacket k h xs s).errOffset = s.errOffset := rfl
@[simp] theorem commitPacket_inMem : (commitPacket k h xs s).inMem = s.inMem := rfl
@[simp] theorem commitPacket_inLen : (commitPacket k h xs s).inLen = s.inLen := rfl
@[simp] theorem commitPacket_outMem : (commitPacket k h xs s).outMem = s.outMem := rfl
@[simp] theorem commitPacket_outLen : (commitPacket k h xs s).outLen = s.outLen := rfl
@[simp] theorem commitPacket_cur : (commitPacket k h xs s).cur = s.cur := rfl
@[simp] theorem commitPacket_cnt : (commitPacket k h xs s).cnt = s.cnt := rfl
@[simp] theorem commitPacket_fvVal : (commitPacket k h xs s).fvVal = s.fvVal := rfl
@[simp] theorem commitPacket_fvUnk : (commitPacket k h xs s).fvUnk = s.fvUnk := rfl
@[simp] theorem commitPacket_hrCmd : (commitPacket k h xs s).hrCmd = s.hrCmd := rfl
@[simp] theorem commitPacket_hrVer : (commitPacket k h xs s).hrVer = s.hrVer := rfl
@[simp] theorem commitPacket_er : (commitPacket k h xs s).er = s.er := rfl
@[simp] theorem commitPacket_pktValid : (commitPacket k h xs s).pktValid = true := rfl
@[simp] theorem commitPacket_pktKind : (commitPacket k h xs s).pktKind = k := rfl
@[simp] theorem commitPacket_pktCmd : (commitPacket k h xs s).pktCmd = h.command := rfl
@[simp] theorem commitPacket_pktVer : (commitPacket k h xs s).pktVer = h.version := rfl
@[simp] theorem commitPacket_pktN : (commitPacket k h xs s).pktN = BitVec.ofNat 8 xs.length := rfl
@[simp] theorem commitPacket_pktEnt : (commitPacket k h xs s).pktEnt = writeSlots xs s.pktEnt := rfl
@[simp] theorem commitPacket_pending : (commitPacket k h xs s).pending = s.pending := rfl
@[simp] theorem commitPacket_seen : (commitPacket k h xs s).seen = s.seen := rfl
@[simp] theorem commitPacket_epoch : (commitPacket k h xs s).epoch = s.epoch := rfl
@[simp] theorem commitPacket_draws : (commitPacket k h xs s).draws = s.draws := rfl
end

/-! ## note -/

section
variable (s : State) (v : Word)
@[simp] theorem note_par : (note s v).par = s.par := rfl
@[simp] theorem note_op : (note s v).op = s.op := rfl
@[simp] theorem note_runState : (note s v).runState = s.runState := rfl
@[simp] theorem note_fail : (note s v).fail = s.fail := rfl
@[simp] theorem note_errCode : (note s v).errCode = s.errCode := rfl
@[simp] theorem note_errCause : (note s v).errCause = s.errCause := rfl
@[simp] theorem note_errByte : (note s v).errByte = s.errByte := rfl
@[simp] theorem note_errValue : (note s v).errValue = s.errValue := rfl
@[simp] theorem note_errOffset : (note s v).errOffset = s.errOffset := rfl
@[simp] theorem note_inMem : (note s v).inMem = s.inMem := rfl
@[simp] theorem note_inLen : (note s v).inLen = s.inLen := rfl
@[simp] theorem note_outMem : (note s v).outMem = s.outMem := rfl
@[simp] theorem note_outLen : (note s v).outLen = s.outLen := rfl
@[simp] theorem note_cur : (note s v).cur = s.cur := rfl
@[simp] theorem note_cnt : (note s v).cnt = s.cnt := rfl
@[simp] theorem note_fvVal : (note s v).fvVal = s.fvVal := rfl
@[simp] theorem note_fvUnk : (note s v).fvUnk = s.fvUnk := rfl
@[simp] theorem note_hrCmd : (note s v).hrCmd = s.hrCmd := rfl
@[simp] theorem note_hrVer : (note s v).hrVer = s.hrVer := rfl
@[simp] theorem note_er : (note s v).er = s.er := rfl
@[simp] theorem note_pktValid : (note s v).pktValid = s.pktValid := rfl
@[simp] theorem note_pktKind : (note s v).pktKind = s.pktKind := rfl
@[simp] theorem note_pktCmd : (note s v).pktCmd = s.pktCmd := rfl
@[simp] theorem note_pktVer : (note s v).pktVer = s.pktVer := rfl
@[simp] theorem note_pktN : (note s v).pktN = s.pktN := rfl
@[simp] theorem note_pktEnt : (note s v).pktEnt = s.pktEnt := rfl
@[simp] theorem note_pending : (note s v).pending = s.pending := rfl
@[simp] theorem note_seen : (note s v).seen = v :: s.seen := rfl
@[simp] theorem note_epoch : (note s v).epoch = s.epoch := rfl
@[simp] theorem note_draws : (note s v).draws = s.draws := rfl
end

/-! ## resetBlock -/

section
variable (s : State)
@[simp] theorem resetBlock_par : (resetBlock s).par = s.par := rfl
@[simp] theorem resetBlock_op : (resetBlock s).op = State.reset.op := rfl
@[simp] theorem resetBlock_runState : (resetBlock s).runState = State.reset.runState := rfl
@[simp] theorem resetBlock_fail : (resetBlock s).fail = State.reset.fail := rfl
@[simp] theorem resetBlock_errCode : (resetBlock s).errCode = State.reset.errCode := rfl
@[simp] theorem resetBlock_errCause : (resetBlock s).errCause = State.reset.errCause := rfl
@[simp] theorem resetBlock_errByte : (resetBlock s).errByte = State.reset.errByte := rfl
@[simp] theorem resetBlock_errValue : (resetBlock s).errValue = State.reset.errValue := rfl
@[simp] theorem resetBlock_errOffset : (resetBlock s).errOffset = State.reset.errOffset := rfl
@[simp] theorem resetBlock_inMem : (resetBlock s).inMem = State.reset.inMem := rfl
@[simp] theorem resetBlock_inLen : (resetBlock s).inLen = State.reset.inLen := rfl
@[simp] theorem resetBlock_outMem : (resetBlock s).outMem = State.reset.outMem := rfl
@[simp] theorem resetBlock_outLen : (resetBlock s).outLen = State.reset.outLen := rfl
@[simp] theorem resetBlock_cur : (resetBlock s).cur = State.reset.cur := rfl
@[simp] theorem resetBlock_cnt : (resetBlock s).cnt = State.reset.cnt := rfl
@[simp] theorem resetBlock_fvVal : (resetBlock s).fvVal = State.reset.fvVal := rfl
@[simp] theorem resetBlock_fvUnk : (resetBlock s).fvUnk = State.reset.fvUnk := rfl
@[simp] theorem resetBlock_hrCmd : (resetBlock s).hrCmd = State.reset.hrCmd := rfl
@[simp] theorem resetBlock_hrVer : (resetBlock s).hrVer = State.reset.hrVer := rfl
@[simp] theorem resetBlock_er : (resetBlock s).er = State.reset.er := rfl
@[simp] theorem resetBlock_pktValid : (resetBlock s).pktValid = State.reset.pktValid := rfl
@[simp] theorem resetBlock_pktKind : (resetBlock s).pktKind = State.reset.pktKind := rfl
@[simp] theorem resetBlock_pktCmd : (resetBlock s).pktCmd = State.reset.pktCmd := rfl
@[simp] theorem resetBlock_pktVer : (resetBlock s).pktVer = State.reset.pktVer := rfl
@[simp] theorem resetBlock_pktN : (resetBlock s).pktN = State.reset.pktN := rfl
@[simp] theorem resetBlock_pktEnt : (resetBlock s).pktEnt = State.reset.pktEnt := rfl
@[simp] theorem resetBlock_pending : (resetBlock s).pending = s.pending := rfl
@[simp] theorem resetBlock_seen : (resetBlock s).seen = s.seen := rfl
@[simp] theorem resetBlock_epoch : (resetBlock s).epoch = s.epoch + 1 := rfl
@[simp] theorem resetBlock_draws : (resetBlock s).draws = s.draws := rfl
end

/-! ## writeFvEnum -/

section
variable {w : Nat} (s : State) (code : Option (BitVec w)) (c : Nat)
@[simp] theorem writeFvEnum_par : (writeFvEnum s code c).par = s.par := by cases code <;> rfl
@[simp] theorem writeFvEnum_op : (writeFvEnum s code c).op = s.op := by cases code <;> rfl
@[simp] theorem writeFvEnum_runState : (writeFvEnum s code c).runState = s.runState := by cases code <;> rfl
@[simp] theorem writeFvEnum_fail : (writeFvEnum s code c).fail = s.fail := by cases code <;> rfl
@[simp] theorem writeFvEnum_errCode : (writeFvEnum s code c).errCode = s.errCode := by cases code <;> rfl
@[simp] theorem writeFvEnum_errCause : (writeFvEnum s code c).errCause = s.errCause := by cases code <;> rfl
@[simp] theorem writeFvEnum_errByte : (writeFvEnum s code c).errByte = s.errByte := by cases code <;> rfl
@[simp] theorem writeFvEnum_errValue : (writeFvEnum s code c).errValue = s.errValue := by cases code <;> rfl
@[simp] theorem writeFvEnum_errOffset : (writeFvEnum s code c).errOffset = s.errOffset := by cases code <;> rfl
@[simp] theorem writeFvEnum_inMem : (writeFvEnum s code c).inMem = s.inMem := by cases code <;> rfl
@[simp] theorem writeFvEnum_inLen : (writeFvEnum s code c).inLen = s.inLen := by cases code <;> rfl
@[simp] theorem writeFvEnum_outMem : (writeFvEnum s code c).outMem = s.outMem := by cases code <;> rfl
@[simp] theorem writeFvEnum_outLen : (writeFvEnum s code c).outLen = s.outLen := by cases code <;> rfl
@[simp] theorem writeFvEnum_cur : (writeFvEnum s code c).cur = c := by cases code <;> rfl
@[simp] theorem writeFvEnum_cnt : (writeFvEnum s code c).cnt = s.cnt := by cases code <;> rfl
@[simp] theorem writeFvEnum_hrCmd : (writeFvEnum s code c).hrCmd = s.hrCmd := by cases code <;> rfl
@[simp] theorem writeFvEnum_hrVer : (writeFvEnum s code c).hrVer = s.hrVer := by cases code <;> rfl
@[simp] theorem writeFvEnum_er : (writeFvEnum s code c).er = s.er := by cases code <;> rfl
@[simp] theorem writeFvEnum_pktValid : (writeFvEnum s code c).pktValid = s.pktValid := by cases code <;> rfl
@[simp] theorem writeFvEnum_pktKind : (writeFvEnum s code c).pktKind = s.pktKind := by cases code <;> rfl
@[simp] theorem writeFvEnum_pktCmd : (writeFvEnum s code c).pktCmd = s.pktCmd := by cases code <;> rfl
@[simp] theorem writeFvEnum_pktVer : (writeFvEnum s code c).pktVer = s.pktVer := by cases code <;> rfl
@[simp] theorem writeFvEnum_pktN : (writeFvEnum s code c).pktN = s.pktN := by cases code <;> rfl
@[simp] theorem writeFvEnum_pktEnt : (writeFvEnum s code c).pktEnt = s.pktEnt := by cases code <;> rfl
@[simp] theorem writeFvEnum_pending : (writeFvEnum s code c).pending = s.pending := by cases code <;> rfl
@[simp] theorem writeFvEnum_seen : (writeFvEnum s code c).seen = s.seen := by cases code <;> rfl
@[simp] theorem writeFvEnum_epoch : (writeFvEnum s code c).epoch = s.epoch := by cases code <;> rfl
@[simp] theorem writeFvEnum_draws : (writeFvEnum s code c).draws = s.draws := by cases code <;> rfl
/-- R124: a named enumerant. -/
theorem writeFvEnum_some (v : BitVec w) :
    writeFvEnum s (some v) c = { s with fvVal := v.setWidth 32, fvUnk := false, cur := c } := rfl
/-- R124: the sentinel. -/
theorem writeFvEnum_none :
    writeFvEnum s (none : Option (BitVec w)) c = { s with fvVal := 0, fvUnk := true, cur := c } := rfl
end

/-! ## The reads of the buffers depend on IN, OUT and the epoch only -/

/-- Two states with the same IN and epoch read the same bytes of IN. -/
theorem inByte_congr {s t : State} (hm : t.inMem = s.inMem) (he : t.epoch = s.epoch) (k : Nat) :
    t.inByte k = s.inByte k := by simp [State.inByte, hm, he]

/-- Two states with the same OUT and epoch read the same bytes of OUT. -/
theorem outByte_congr {s t : State} (hm : t.outMem = s.outMem) (he : t.epoch = s.epoch) (k : Nat) :
    t.outByte k = s.outByte k := by simp [State.outByte, hm, he]

end Sys2Proof.Machine
end

