-- ==== Sys2Proof/Laws/Memory.lean ====
section
/-! SUPPORT. The memory laws: a read after a write, the canonical form kept by every memory operation, and equal
memories are equal data. -/

namespace Sys2Proof.Machine

@[simp] theorem Memory.read_nil (a : Nat) : Memory.read [] a = none := rfl

theorem Memory.read_cons (x : Nat) (b : Byte) (r : Memory) (a : Nat) :
    Memory.read ((x, b) :: r) a = if x = a then some b else Memory.read r a := rfl

/-- A read of the written address gives the byte written. -/
@[simp] theorem Memory.read_write_same (m : Memory) (a : Nat) (b : Byte) : (m.write a b).read a = some b := by
  induction m with
  | nil => simp [Memory.write, Memory.read_cons]
  | cons c r ih =>
    obtain ⟨x, y⟩ := c
    simp only [Memory.write]
    split
    · simp [Memory.read_cons]
    · split
      · simp [Memory.read_cons]
      · rw [Memory.read_cons, if_neg (by omega), ih]

/-- A write leaves every other address alone. -/
theorem Memory.read_write_ne (m : Memory) {a k : Nat} (b : Byte) (h : k ≠ a) : (m.write a b).read k = m.read k := by
  induction m with
  | nil => simp [Memory.write, Memory.read_cons, Ne.symm h]
  | cons c r ih =>
    obtain ⟨x, y⟩ := c
    simp only [Memory.write]
    split
    · simp [Memory.read_cons, Ne.symm h]
    · split
      · subst_vars; simp [Memory.read_cons, Ne.symm h]
      · simp only [Memory.read_cons, ih]

/-- What a memory reads as after successive bytes were written. -/
theorem Memory.read_writeBytes (m : Memory) (a : Nat) (bs : List Byte) (k : Nat) :
    (m.writeBytes a bs).read k = if a ≤ k ∧ k < a + bs.length then bs[k - a]? else m.read k := by
  induction bs generalizing m a with
  | nil => simp [Memory.writeBytes]
  | cons b r ih =>
    simp only [Memory.writeBytes, ih, List.length_cons]
    by_cases hk : k = a
    · subst hk; simp
    · rw [Memory.read_write_ne m b hk]
      by_cases h : a + 1 ≤ k ∧ k < a + 1 + r.length
      · rw [if_pos h, if_pos (by omega)]
        obtain ⟨j, rfl⟩ : ∃ j, k = a + 1 + j := ⟨k - (a + 1), by omega⟩
        simp [show a + 1 + j - a = j + 1 by omega]
      · rw [if_neg h, if_neg (by omega)]

/-- The head of a written memory is the old head or the new address. -/
theorem Memory.head_write (m : Memory) (a : Nat) (b : Byte) {p : Nat} (hp : p < a)
    (h : (m.head?.all fun c => decide (p < c.1)) = true) :
    ((m.write a b).head?.all fun c => decide (p < c.1)) = true := by
  cases m with
  | nil => simpa [Memory.write] using hp
  | cons c r =>
    obtain ⟨x, y⟩ := c
    simp only [Memory.write]
    split
    · simpa using hp
    · split
      · simpa using hp
      · simpa using h

/-- A write keeps the canonical form. -/
theorem Memory.wf_write (m : Memory) (a : Nat) (b : Byte) (h : m.wf = true) : (m.write a b).wf = true := by
  induction m with
  | nil => rfl
  | cons c r ih =>
    obtain ⟨x, y⟩ := c
    simp only [Memory.wf, Bool.and_eq_true] at h
    simp only [Memory.write]
    split
    · simp_all [Memory.wf]
    · split
      · subst_vars; simp_all [Memory.wf]
      · simp only [Memory.wf, Bool.and_eq_true]
        exact ⟨Memory.head_write r a b (by omega) h.1, ih h.2⟩

/-- Successive writes keep the canonical form. -/
theorem Memory.wf_writeBytes (m : Memory) (a : Nat) (bs : List Byte) (h : m.wf = true) :
    (m.writeBytes a bs).wf = true := by
  induction bs generalizing m a with
  | nil => exact h
  | cons b r ih => exact ih _ _ (Memory.wf_write m a b h)

/-- A write below the bound keeps every listed address below it. -/
theorem Memory.below_write (m : Memory) (cap a : Nat) (b : Byte) (h : m.below cap = true) (ha : a < cap) :
    (m.write a b).below cap = true := by
  induction m with
  | nil => simpa [Memory.write, Memory.below] using ha
  | cons c r ih =>
    obtain ⟨x, y⟩ := c
    simp only [Memory.below, List.all_cons, Bool.and_eq_true, decide_eq_true_eq] at h ih ⊢
    simp only [Memory.write]
    split
    · simp [h, ha]
    · split
      · simp [h, ha]
      · simp [h, ih]

/-- Successive writes below the bound keep every listed address below it. -/
theorem Memory.below_writeBytes (m : Memory) (cap a : Nat) (bs : List Byte) (h : m.below cap = true)
    (ha : a + bs.length ≤ cap) : (m.writeBytes a bs).below cap = true := by
  induction bs generalizing m a with
  | nil => exact h
  | cons b r ih =>
    simp only [List.length_cons] at ha
    exact ih _ _ (Memory.below_write m cap a b h (by omega)) (by omega)

/-- Below the head of a canonical memory nothing is listed. -/
theorem Memory.read_below_head (m : Memory) {p : Nat} (h : m.wf = true)
    (hp : (m.head?.all fun c => decide (p < c.1)) = true) {a : Nat} (ha : a ≤ p) : m.read a = none := by
  induction m generalizing p with
  | nil => rfl
  | cons c r ih =>
    obtain ⟨x, y⟩ := c
    simp only [Memory.wf, Bool.and_eq_true] at h
    simp only [List.head?_cons, Option.all_some, decide_eq_true_eq] at hp
    rw [Memory.read_cons, if_neg (by omega)]
    exact ih h.2 h.1 (by omega)

/-- Canonical memories that read alike are the same data. -/
theorem Memory.ext_of_wf (m m' : Memory) (h : m.wf = true) (h' : m'.wf = true)
    (hr : ∀ a, m.read a = m'.read a) : m = m' := by
  induction m generalizing m' with
  | nil =>
    cases m' with
    | nil => rfl
    | cons c r => obtain ⟨x, y⟩ := c; simpa [Memory.read_cons] using hr x
  | cons c r ih =>
    obtain ⟨x, y⟩ := c
    cases m' with
    | nil => simpa [Memory.read_cons] using hr x
    | cons c' r' =>
      obtain ⟨x', y'⟩ := c'
      simp only [Memory.wf, Bool.and_eq_true] at h h'
      have hx : x = x' := by
        rcases Nat.lt_trichotomy x x' with hlt | heq | hgt
        · have := hr x
          rw [Memory.read_cons, if_pos rfl, Memory.read_cons, if_neg (by omega),
            Memory.read_below_head r' h'.2 h'.1 (by omega)] at this
          cases this
        · exact heq
        · have := hr x'
          rw [Memory.read_cons, if_neg (by omega), Memory.read_cons, if_pos rfl,
            Memory.read_below_head r h.2 h.1 (by omega)] at this
          cases this
      subst hx
      have hy : y = y' := by simpa [Memory.read_cons] using hr x
      subst hy
      congr 1
      refine ih r' h.2 h'.2 fun a => ?_
      by_cases ha : x = a
      · subst ha
        rw [Memory.read_below_head r h.2 h.1 (Nat.le_refl _), Memory.read_below_head r' h'.2 h'.1 (Nat.le_refl _)]
      · simpa [Memory.read_cons, ha] using hr a

end Sys2Proof.Machine
end

