-- ==== Sys2Proof/Laws/Bytes.lean ====
section
/-! SUPPORT. Byte order and the value maps: the model's `be`, `bytesBE` and address forms against bit fields, and the
value maps of R85 to R87 against their inverses. -/

namespace Sys2Proof.Machine

/-! ## Byte order -/

@[simp] theorem bytesBE_length (n v : Nat) : (bytesBE n v).length = n := by
  induction n with
  | zero => rfl
  | succ n ih => simp [bytesBE, ih]

/-- Two bytes, most significant first. -/
theorem bytesBE_two (v : BitVec 16) : bytesBE 2 v.toNat = wire16 v := by
  simp only [bytesBE, wire16, List.cons.injEq, and_true]
  constructor <;> (apply BitVec.eq_of_toNat_eq; simp [BitVec.extractLsb'_toNat, Nat.shiftRight_eq_div_pow])

/-- Four bytes, most significant first. -/
theorem bytesBE_four (v : BitVec 32) : bytesBE 4 v.toNat = wire32 v := by
  simp only [bytesBE, wire32, List.cons.injEq, and_true]
  refine ⟨?_, ?_, ?_, ?_⟩ <;>
    (apply BitVec.eq_of_toNat_eq; simp [BitVec.extractLsb'_toNat, Nat.shiftRight_eq_div_pow])

/-- R84: a 16-bit field is b0 × 256 + b1. -/
theorem ofNat_two (b0 b1 : Byte) : BitVec.ofNat 16 (b0.toNat * 256 + b1.toNat) = b0 ++ b1 := by
  apply BitVec.eq_of_toNat_eq
  have h0 := b0.isLt
  have h1 := b1.isLt
  rw [BitVec.toNat_append, Nat.shiftLeft_eq, ← Nat.shiftLeft_eq, ← Nat.shiftLeft_add_eq_or_of_lt h1,
    Nat.shiftLeft_eq, BitVec.toNat_ofNat]
  omega

/-- R84: a 32-bit field is b0 × 2^24 + b1 × 2^16 + b2 × 2^8 + b3. -/
theorem ofNat_four (b0 b1 b2 b3 : Byte) :
    BitVec.ofNat 32 ((((0 * 256 + b0.toNat) * 256 + b1.toNat) * 256 + b2.toNat) * 256 + b3.toNat)
      = b0 ++ b1 ++ b2 ++ b3 := by
  apply BitVec.eq_of_toNat_eq
  have h0 := b0.isLt
  have h1 := b1.isLt
  have h2 := b2.isLt
  have h3 := b3.isLt
  rw [BitVec.toNat_append, ← Nat.shiftLeft_add_eq_or_of_lt h3, BitVec.toNat_append,
    ← Nat.shiftLeft_add_eq_or_of_lt h2, BitVec.toNat_append, ← Nat.shiftLeft_add_eq_or_of_lt h1,
    BitVec.toNat_ofNat]
  simp only [Nat.shiftLeft_eq]
  omega

/-- R50: the register form of an address is its octets in order. -/
theorem ipv4Word_eq (a : Ipv4) : ipv4Word a = a.o0 ++ a.o1 ++ a.o2 ++ a.o3 := ofNat_four a.o0 a.o1 a.o2 a.o3

/-- R50: the register form of an address as a number. -/
theorem ipv4Word_toNat (a : Ipv4) :
    (ipv4Word a).toNat = a.o0.toNat * 2 ^ 24 + a.o1.toNat * 2 ^ 16 + a.o2.toNat * 2 ^ 8 + a.o3.toNat := by
  have h0 := a.o0.isLt
  have h1 := a.o1.isLt
  have h2 := a.o2.isLt
  have h3 := a.o3.isLt
  simp only [ipv4Word, be, List.foldl_cons, List.foldl_nil, BitVec.toNat_ofNat]
  omega

/-- R50: an address survives its register form. -/
@[simp] theorem ipv4OfWord_word (a : Ipv4) : ipv4OfWord (ipv4Word a) = a := by
  have hn := ipv4Word_toNat a
  have h0 := a.o0.isLt
  have h1 := a.o1.isLt
  have h2 := a.o2.isLt
  have h3 := a.o3.isLt
  obtain ⟨a, b, c, d⟩ := a
  simp only [ipv4OfWord, Ipv4.mk.injEq]
  refine ⟨?_, ?_, ?_, ?_⟩ <;>
    (apply BitVec.eq_of_toNat_eq
     simp only [BitVec.extractLsb'_toNat, Nat.shiftRight_eq_div_pow, hn]
     simp only at h0 h1 h2 h3
     omega)

/-- R50: a register survives its octets. -/
@[simp] theorem ipv4Word_ofWord (v : Word) : ipv4Word (ipv4OfWord v) = v := by
  have hv := v.isLt
  apply BitVec.eq_of_toNat_eq
  rw [ipv4Word_toNat]
  simp only [ipv4OfWord, BitVec.extractLsb'_toNat, Nat.shiftRight_eq_div_pow]
  omega

/-- R137: the octets of a register are its wire bytes. -/
theorem ipv4Octets_ofWord (v : Word) : ipv4Octets (ipv4OfWord v) = wire32 v := rfl

/-! ## Wire fields -/

@[simp] theorem wire16_length (v : BitVec 16) : (wire16 v).length = 2 := rfl
@[simp] theorem wire32_length (v : BitVec 32) : (wire32 v).length = 4 := rfl
@[simp] theorem wireV1_length (x : Slot) : (wireV1 x).length = 20 := rfl
@[simp] theorem wireV2_length (x : Slot) : (wireV2 x).length = 20 := rfl
@[simp] theorem wireHdr_length (k : CommandKind) (v : Version) : (wireHdr k v).length = 4 := rfl

/-- The 16-bit field of two wire bytes is the value they came from. -/
theorem append_extract16 (v : BitVec 16) : v.extractLsb' 8 8 ++ v.extractLsb' 0 8 = v := by
  rw [← ofNat_two]
  have hv := v.isLt
  apply BitVec.eq_of_toNat_eq
  simp only [BitVec.extractLsb'_toNat, Nat.shiftRight_eq_div_pow, BitVec.toNat_ofNat]
  omega

/-- The 32-bit field of four wire bytes is the value they came from. -/
theorem append_extract32 (v : BitVec 32) :
    v.extractLsb' 24 8 ++ v.extractLsb' 16 8 ++ v.extractLsb' 8 8 ++ v.extractLsb' 0 8 = v := by
  have h := ipv4Word_ofWord v
  rwa [ipv4Word_eq] at h

/-- The wire bytes of a 16-bit field are the bytes it was read from. -/
theorem wire16_append (a b : Byte) : wire16 (a ++ b) = [a, b] := by
  rw [← ofNat_two]
  have h0 := a.isLt
  have h1 := b.isLt
  simp only [wire16, List.cons.injEq, and_true]
  refine ⟨?_, ?_⟩ <;>
    (apply BitVec.eq_of_toNat_eq
     simp only [BitVec.extractLsb'_toNat, Nat.shiftRight_eq_div_pow, BitVec.toNat_ofNat]
     omega)

/-- The wire bytes of a 32-bit field are the bytes it was read from. -/
theorem wire32_append (a b c d : Byte) : wire32 (a ++ b ++ c ++ d) = [a, b, c, d] := by
  have h := ipv4OfWord_word ⟨a, b, c, d⟩
  rw [ipv4Word_eq] at h
  have h' := congrArg ipv4Octets h
  exact h'

/-! ## Value maps -/

/-- R85: decoding the wire value of a named AFI gives it back. -/
theorem afiOf_code {a : Afi} {v : BitVec 16} (h : afiCode a = some v) : afiOf v = a := by
  cases a <;> simp [afiCode] at h <;> subst h <;> rfl

/-- R85: an AFI value that is not the sentinel has the wire value it came from. -/
theorem afiCode_of {v : BitVec 16} (h : afiOf v ≠ .unknown) : afiCode (afiOf v) = some v := by
  unfold afiOf at h ⊢
  split <;> simp_all [afiCode]

/-- R85: the sentinel is what every unlisted value maps to. -/
theorem afiOf_unknown_iff (v : BitVec 16) : afiOf v = .unknown ↔ ¬ afiNamed v := by
  unfold afiOf afiNamed
  split <;> simp_all

/-- R85: only the sentinel has no wire value. -/
theorem afiCode_none_iff (a : Afi) : afiCode a = none ↔ a = .unknown := by cases a <;> simp [afiCode]

/-- R86: decoding the wire value of a named command gives it back. -/
theorem cmdOf_code {k : CommandKind} {b : Byte} (h : cmdCode k = some b) : cmdOf b = k := by
  cases k <;> simp [cmdCode] at h <;> subst h <;> rfl

/-- R86: a command that is not the sentinel has the wire value it came from. -/
theorem cmdCode_of {b : Byte} (h : cmdOf b ≠ .unknown) : cmdCode (cmdOf b) = some b := by
  revert b; decide

/-- R86: the sentinel is what 12 to 255 map to. -/
theorem cmdOf_unknown_iff (b : Byte) : cmdOf b = .unknown ↔ ¬ b < 12 := by revert b; decide

/-- R86: only the sentinel has no wire value. -/
theorem cmdCode_none_iff (k : CommandKind) : cmdCode k = none ↔ k = .unknown := by cases k <;> simp [cmdCode]

/-- R87: decoding the wire value of a named version gives it back. -/
theorem verOf_code {v : Version} {b : Byte} (h : verCode v = some b) : verOf b = v := by
  cases v <;> simp [verCode] at h <;> subst h <;> rfl

/-- R87: a version that is not the sentinel has the wire value it came from. -/
theorem verCode_of {b : Byte} (h : verOf b ≠ .unknown) : verCode (verOf b) = some b := by
  revert b; decide

/-- R87: the sentinel is what 3 to 255 map to. -/
theorem verOf_unknown_iff (b : Byte) : verOf b = .unknown ↔ ¬ b < 3 := by revert b; decide

/-- R87: only the sentinel has no wire value. -/
theorem verCode_none_iff (v : Version) : verCode v = none ↔ v = .unknown := by cases v <;> simp [verCode]

/-- R87: the three named bytes. -/
theorem verOf_version1_iff (b : Byte) : verOf b = .version1 ↔ b = 1 := by revert b; decide
theorem verOf_version2_iff (b : Byte) : verOf b = .version2 ↔ b = 2 := by revert b; decide
theorem verOf_mustBeDiscarded_iff (b : Byte) : verOf b = .mustBeDiscarded ↔ b = 0 := by revert b; decide

end Sys2Proof.Machine
end

