-- ==== Sys2Proof/Laws/Bus.lean ====
section
/-! SUPPORT. The host's side, once per operation: the admissible parameters, the cut of a length, what exists in IN,
when a host write has a next state, what an enumeration register stores, and a host write followed by a read. -/

namespace Sys2Proof.Machine

/-! ## The parameters -/

/-- R6, R51: the admissible parameters. -/
theorem params_wf_iff (p : Config.Params) : p.wf = true ↔ 505 ≤ p.inCap ∧ p.wLen ≤ 32 ∧ p.inCap < 2 ^ p.wLen := by
  simp [Config.Params.wf, Config.Params.inCapLargeEnough, Config.Params.lenInWord, Config.Params.lenFits, and_assoc,
    Config.minInCap]

/-- R6: W_LEN is at least 9, because IN_CAP is at least 505. -/
theorem params_wLen_ge {p : Config.Params} (h : p.wf = true) : 9 ≤ p.wLen := by
  obtain ⟨h1, -, h3⟩ := (params_wf_iff p).mp h
  by_contra hn
  have : 2 ^ p.wLen ≤ 2 ^ 8 := Nat.pow_le_pow_right (by omega) (by omega)
  omega

/-- A word below 512 has no bit above W_LEN. -/
theorem params_pow_ge {p : Config.Params} (h : p.wf = true) : 512 ≤ 2 ^ p.wLen := by
  have := params_wLen_ge h
  calc 512 = 2 ^ 9 := rfl
    _ ≤ 2 ^ p.wLen := Nat.pow_le_pow_right (by omega) this

/-- Log entry 18: the parameters after reset are admissible, whatever the free picks are. -/
theorem config_params_wf : Config.params.wf = true := by
  rw [params_wf_iff]
  have hw : 9 ≤ Config.wLen ∧ Config.wLen ≤ 32 := by unfold Config.wLen; omega
  have hp : 512 ≤ 2 ^ Config.wLen :=
    calc 512 = 2 ^ 9 := rfl
      _ ≤ 2 ^ Config.wLen := Nat.pow_le_pow_right (by omega) hw.1
  have hm := Nat.mod_lt Config.inCapPick (show 2 ^ Config.wLen - Config.minInCap > 0 by simp only [Config.minInCap]; omega)
  refine ⟨?_, hw.2, ?_⟩
  · simp only [Config.params, Config.inCap, Config.minInCap]; omega
  · simp only [Config.params, Config.inCap, Config.minInCap] at hm ⊢; omega

/-! ## Lengths and indices -/

/-- Log entry 18: the cut of a written length. -/
theorem cutLen_eq {p : Config.Params} (h : p.wf = true) (v : Word) : cutLen p v = v.toNat % 2 ^ p.wLen := by
  have := params_pow_ge h
  unfold cutLen
  split
  · rw [Nat.mod_eq_of_lt (by omega)]
  · rfl

/-- R42: a stored length has W_LEN bits. -/
theorem cutLen_lt {p : Config.Params} (h : p.wf = true) (v : Word) : cutLen p v < 2 ^ p.wLen := by
  rw [cutLen_eq h]; exact Nat.mod_lt _ (Nat.two_pow_pos _)

/-- Log entry 18: the lengths that IN holds. -/
theorem lenLegal_iff {p : Config.Params} (h : p.wf = true) (n : Nat) : lenLegal p n = true ↔ n ≤ p.inCap := by
  have := ((params_wf_iff p).mp h).1
  simp only [lenLegal, Bool.or_eq_true, decide_eq_true_eq, Config.minInCap]
  omega

/-- Log entry 18: the indices that exist in IN. -/
theorem inMapped_iff {s : State} (h : s.par.wf = true) (k : Nat) : inMapped s k = true ↔ k < s.par.inCap := by
  have := ((params_wf_iff s.par).mp h).1
  simp only [inMapped, Bool.or_eq_true, decide_eq_true_eq, Config.minInCap]
  omega

/-! ## Writes -/

/-- R295: a stored write has a next state outside BUSY only. -/
theorem unlessBusy_next {s t u : State} : unlessBusy s t = .next u ↔ s.runState ≠ .busy ∧ u = t := by
  unfold unlessBusy
  by_cases h : s.runState = .busy
  · rw [if_pos h]
    exact ⟨fun h' => (by cases h'), fun h' => absurd h h'.1⟩
  · rw [if_neg h]
    exact ⟨fun h' => ⟨h, (Host.Outcome.next.inj h').symm⟩, fun h' => by rw [h'.2]⟩

/-- R295: a stored write outside BUSY. -/
theorem unlessBusy_ok {s t : State} (h : s.runState ≠ .busy) : unlessBusy s t = .next t := if_neg h

/-- R295: a stored write while BUSY has no move. -/
theorem unlessBusy_busy {s t : State} (h : s.runState = .busy) : unlessBusy s t = .fault .hostWriteWhileBusy := if_pos h

/-- R33, R101: what START does. -/
theorem startOp_cases (s : State) :
    (∃ i, decodeOp s.op = some i ∧ startOp s = exec i s)
      ∨ (decodeOp s.op = none ∧ startOp s = .next (illegalOp s)) := by
  unfold startOp decode
  cases h : decodeOp s.op with
  | some i => exact .inl ⟨i, rfl, by simp only [h]⟩
  | none => exact .inr ⟨rfl, by simp only [h]⟩

/-- R51: what a host write to the register space does where it has a next state: nothing, a stored value outside BUSY,
or a started operation. -/
theorem busWriteReg_next {n : Nat} {v : Word} {s t : State} (h : busWriteReg n v s = .next t) :
    t = s
    ∨ (regAt n = some .ctrl ∧ v.getLsbD 0 = true ∧ s.runState ≠ .busy ∧ startOp s = .next t)
    ∨ (s.runState ≠ .busy
        ∧ ∃ r, regAt n = some r ∧ r ≠ .ctrl
          ∧ ((r = .inLen ∧ lenLegal s.par (cutLen s.par v) = true ∧ t = { s with inLen := cutLen s.par v })
              ∨ (r ≠ .inLen ∧ regWrite r v s = unlessBusy s t))) := by
  unfold busWriteReg at h
  cases hr : regAt n with
  | none => rw [hr] at h; cases h; exact .inl rfl
  | some r =>
    simp only [hr] at h
    cases r
    case ctrl =>
      simp only [regWrite, writeCtrl] at h
      split at h
      · split at h
        · cases h
        · exact .inr (.inl ⟨rfl, by assumption, by assumption, h⟩)
      · cases h; exact .inl rfl
    case inLen =>
      simp only [regWrite, writeInLen] at h
      split at h
      · obtain ⟨h1, rfl⟩ := unlessBusy_next.mp h
        exact .inr (.inr ⟨h1, _, rfl, by simp, .inl ⟨rfl, by assumption, rfl⟩⟩)
      · cases h
    case status => cases h; exact .inl rfl
    case errCode => cases h; exact .inl rfl
    case errCause => cases h; exact .inl rfl
    case errByte => cases h; exact .inl rfl
    case errValue => cases h; exact .inl rfl
    case errOffset => cases h; exact .inl rfl
    case outLen => cases h; exact .inl rfl
    case pktValid => cases h; exact .inl rfl
    case pktKind => cases h; exact .inl rfl
    all_goals
      obtain ⟨h1, rfl⟩ := unlessBusy_next.mp h
      exact .inr (.inr ⟨h1, _, rfl, by simp, .inr ⟨by simp, rfl⟩⟩)

/-! ## Enumeration registers -/

/-- The low 16 bits of a word. -/
theorem setWidth16_eq (v : Word) : v.setWidth 16 = v.extractLsb' 0 16 := by
  apply BitVec.eq_of_toNat_eq; simp

/-- The low 8 bits of a word. -/
theorem setWidth8_eq (v : Word) : v.setWidth 8 = v.extractLsb' 0 8 := by
  apply BitVec.eq_of_toNat_eq; simp

/-- R31: the enumerant an AFI register stores. -/
theorem afiWarl_eq (v : Word) : afiWarl v = afiStored v := by
  unfold afiWarl afiStored
  rw [setWidth16_eq]
  cases hb : v.getLsbD 16
  · by_cases h : afiNamed (v.extractLsb' 0 16)
    · rw [if_neg Bool.false_ne_true, if_pos ⟨rfl, h⟩]
    · rw [if_neg Bool.false_ne_true, if_neg (fun h' => h h'.2), (afiOf_unknown_iff _).mpr h]
  · rw [if_pos rfl, if_neg (fun h' => Bool.noConfusion h'.1)]

/-- R31: the enumerant a command register stores. -/
theorem cmdWarl_eq (v : Word) : cmdWarl v = cmdStored v := by
  unfold cmdWarl cmdStored
  rw [setWidth8_eq]
  cases hb : v.getLsbD 8
  · by_cases h : v.extractLsb' 0 8 < 12
    · rw [if_neg Bool.false_ne_true, if_pos ⟨rfl, h⟩]
    · rw [if_neg Bool.false_ne_true, if_neg (fun h' => h h'.2), (cmdOf_unknown_iff _).mpr h]
  · rw [if_pos rfl, if_neg (fun h' => Bool.noConfusion h'.1)]

/-- R31: the enumerant a version register stores. -/
theorem verWarl_eq (v : Word) : verWarl v = verStored v := by
  unfold verWarl verStored
  rw [setWidth8_eq]
  cases hb : v.getLsbD 8
  · by_cases h : v.extractLsb' 0 8 ≤ 2
    · rw [if_neg Bool.false_ne_true, if_pos ⟨rfl, h⟩]
    · rw [if_neg Bool.false_ne_true, if_neg (fun h' => h h'.2), (verOf_unknown_iff _).mpr (fun h' => h (by bv_omega))]
  · rw [if_pos rfl, if_neg (fun h' => Bool.noConfusion h'.1)]

/-- R31: what the stored AFI reads as. -/
theorem afiHeld_stored (v : Word) : afiHeld (afiStored v) = afiReadBack v := by
  unfold afiStored afiReadBack
  split
  · rename_i h
    rw [afiHeld, afiCode_of (fun hu => (afiOf_unknown_iff _).mp hu h.2)]; rfl
  · rfl

/-- R31: what the stored command reads as. -/
theorem cmdHeld_stored (v : Word) : cmdHeld (cmdStored v) = cmdReadBack v := by
  unfold cmdStored cmdReadBack
  split
  · rename_i h
    rw [cmdHeld, cmdCode_of (fun hu => (cmdOf_unknown_iff _).mp hu h.2)]; rfl
  · rfl

/-- R31: what the stored version reads as. -/
theorem verHeld_stored (v : Word) : verHeld (verStored v) = verReadBack v := by
  unfold verStored verReadBack
  split
  · rename_i h
    rw [verHeld, verCode_of (fun hu => (verOf_unknown_iff _).mp hu (by have := h.2; bv_omega))]; rfl
  · rfl

/-! ## The register map -/

/-- R51: the six registers of a slot. -/
theorem regAt_slot : ∀ i : Fin 25,
    regAt (0x100 + 8 * i.val) = some (.ent i .afi) ∧ regAt (0x101 + 8 * i.val) = some (.ent i .tag)
    ∧ regAt (0x102 + 8 * i.val) = some (.ent i .addr) ∧ regAt (0x103 + 8 * i.val) = some (.ent i .mask)
    ∧ regAt (0x104 + 8 * i.val) = some (.ent i .nh) ∧ regAt (0x105 + 8 * i.val) = some (.ent i .metric) := by decide

/-- R51: a write to a mapped number. -/
theorem busWriteReg_at {n : Nat} {r : Reg} (h : regAt n = some r) (v : Word) (s : State) :
    busWriteReg n v s = regWrite r v s := by simp only [busWriteReg, h]

/-- R51, R294: a read of a mapped number whose value the state fixes. -/
theorem busReadReg_at {n : Nat} {r : Reg} (h : regAt n = some r) {s : State}
    (hs : s.runState ≠ .busy ∨ regIsResult r = false) : busReadReg n s = readAs s (regRead s r) := by
  simp only [busReadReg, h]
  rw [if_neg (by rintro ⟨h1, h2⟩; rcases hs with hs | hs; exacts [hs h1, by simp [hs] at h2])]
  rfl

/-- R296: a read of a result register while BUSY. -/
theorem busReadReg_busy {n : Nat} {r : Reg} (h : regAt n = some r) {s : State} (hs : s.runState = .busy)
    (hr : regIsResult r = true) : busReadReg n s = noteDraw s (regWidth s.par r) := by
  simp only [busReadReg, h]
  rw [if_pos ⟨hs, hr⟩]

/-- R51: a read of an unmapped number. -/
theorem busReadReg_none {n : Nat} (h : regAt n = none) (s : State) : busReadReg n s = readAs s 0 := by
  simp only [busReadReg, h]; rfl

/-- R294: a stored host write outside BUSY, and the read of the same register after it. -/
theorem writesThenReads_of {n : Nat} {r : Reg} {v w : Word} {s t : State} (h : regAt n = some r)
    (hs : s.runState ≠ .busy) (hw : regWrite r v s = unlessBusy s t) (ht : t.runState = s.runState)
    (hr : regRead t r = w) : WritesThenReads n v s t w :=
  ⟨by rw [busWriteReg_at h, hw, unlessBusy_ok hs], by rw [busReadReg_at h (.inl (by rwa [ht])), hr]⟩

/-- A slot just written reads as written. -/
theorem putSlot_get (s : State) (i : Fin 25) (x : Slot) : (putSlot s i x).pktEnt[i] = x := by
  simp [putSlot]

end Sys2Proof.Machine
end

