-- ==== Sys2Proof/Laws/Codecs.lean ====
section
/-! SUPPORT. What each shared operation and each codec function can do, once: callers cite these lemmas and do not
unfold the functions. -/

namespace Sys2Proof.Machine

/-! ## Results as equations -/

@[simp] theorem ok_bind {α β : Type} (a : α) (f : α → Except Err β) : (Except.ok a >>= f) = f a := rfl
@[simp] theorem error_bind {α β : Type} (e : Err) (f : α → Except Err β) :
    ((Except.error e : Except Err α) >>= f) = Except.error e := rfl
@[simp] theorem pure_ok {α : Type} (a : α) : (pure a : Except Err α) = .ok a := rfl

/-- A bind that succeeds took a value from its first part. -/
theorem bind_ok {α β : Type} {x : Except Err α} {f : α → Except Err β} {b : β} (h : (x >>= f) = .ok b) :
    ∃ a, x = .ok a ∧ f a = .ok b := by
  cases x with
  | error e => cases h
  | ok a => exact ⟨a, rfl, h⟩

/-- A bind that raises raised in its first part, or in its second after a value. -/
theorem bind_error {α β : Type} {x : Except Err α} {f : α → Except Err β} {e : Err} (h : (x >>= f) = .error e) :
    x = .error e ∨ ∃ a, x = .ok a ∧ f a = .error e := by
  cases x with
  | error e' => left; cases h; rfl
  | ok a => exact .inr ⟨a, rfl, h⟩

/-! ## The end of an operation -/

/-- An operation always has a next state: its results with the completion writes, or the failure's writes. -/
theorem finish_cases {w : ResultClass} {s t : State} {r : Except Err State}
    (h : finish w s r = .next t) :
    (∃ u, r = .ok u ∧ t = complete u) ∨ (∃ e, r = .error e ∧ t = raiseErr w e s) := by
  cases r with
  | ok u => left; cases h; exact ⟨u, rfl, rfl⟩
  | error e => right; cases h; exact ⟨e, rfl, rfl⟩

@[simp] theorem finish_ok (w : ResultClass) (s u : State) : finish w s (.ok u) = .next (complete u) := rfl
@[simp] theorem finish_error (w : ResultClass) (s : State) (e : Err) :
    finish w s (.error e) = .next (raiseErr w e s) := rfl
@[simp] theorem finishOut_ok (s : State) (out : List Byte) :
    finishOut s (.ok out) = .next (complete (commitOut out s)) := rfl
@[simp] theorem finishOut_error (s : State) (e : Err) : finishOut s (.error e) = .next (raiseErr .out e s) := rfl

/-- R67: OUT after a commit: the bytes of `out` first, then what stood there. -/
theorem outByte_commitOut (s : State) (out : List Byte) (k : Nat) :
    (commitOut out s).outByte k = if h : k < out.length then out[k] else s.outByte k := by
  unfold State.outByte
  rw [commitOut_outMem, Memory.read_writeBytes]
  by_cases h : k < out.length
  · simp [h]
  · simp [h]

/-- R67, R261: a committed and completed encoding is an encoding of its bytes. -/
theorem encodedAs_commitOut (s : State) (out : List Byte) : EncodedAs s (complete (commitOut out s)) out := by
  refine ⟨rfl, fun k h => ?_, fun k h => ?_⟩
  · exact (outByte_commitOut s out k).trans (dif_pos h)
  · exact (outByte_commitOut s out k).trans (dif_neg (by omega))

/-! ## The cursor reader and MemRead -/

@[simp] theorem readByte_ok {s : State} {c : Nat} (h : c < s.inLen) : readByte s c = .ok (s.inByte c, c + 1) :=
  if_pos h
@[simp] theorem readByte_short {s : State} {c : Nat} (h : s.inLen ≤ c) :
    readByte s c = .error (.insufficientInput c) := if_neg (by omega)

/-- R64: MemRead of 2 bytes. -/
theorem memRead_two (s : State) (c : Nat) :
    memRead s c 2 = if c + 2 ≤ s.inLen
      then .ok ((0 * 256 + (s.inByte c).toNat) * 256 + (s.inByte (c + 1)).toNat, c + 2)
      else .error (.insufficientInput (max c s.inLen)) := by
  unfold memRead memReadFrom memReadFrom memReadFrom
  by_cases h0 : c < s.inLen
  · by_cases h1 : c + 1 < s.inLen
    · simp [h0, h1, show c + 2 ≤ s.inLen by omega]
    · have h : c + 1 = s.inLen := by omega
      simp [h0, show s.inLen ≤ c + 1 by omega, show ¬ c + 2 ≤ s.inLen by omega]
      omega
  · simp [show s.inLen ≤ c by omega, show ¬ c + 2 ≤ s.inLen by omega]

/-- R64: MemRead of 4 bytes. -/
theorem memRead_four (s : State) (c : Nat) :
    memRead s c 4 = if c + 4 ≤ s.inLen
      then .ok ((((0 * 256 + (s.inByte c).toNat) * 256 + (s.inByte (c + 1)).toNat) * 256
        + (s.inByte (c + 2)).toNat) * 256 + (s.inByte (c + 3)).toNat, c + 4)
      else .error (.insufficientInput (max c s.inLen)) := by
  unfold memRead memReadFrom memReadFrom memReadFrom memReadFrom memReadFrom
  by_cases h0 : c < s.inLen
  · by_cases h1 : c + 1 < s.inLen
    · by_cases h2 : c + 1 + 1 < s.inLen
      · by_cases h3 : c + 1 + 1 + 1 < s.inLen
        · simp [h0, h1, h2, h3, show c + 4 ≤ s.inLen by omega]
        · simp [h0, h1, h2, show s.inLen ≤ c + 1 + 1 + 1 by omega, show ¬ c + 4 ≤ s.inLen by omega]; omega
      · simp [h0, h1, show s.inLen ≤ c + 1 + 1 by omega, show ¬ c + 4 ≤ s.inLen by omega]; omega
    · simp [h0, show s.inLen ≤ c + 1 by omega, show ¬ c + 4 ≤ s.inLen by omega]; omega
  · simp [show s.inLen ≤ c by omega, show ¬ c + 4 ≤ s.inLen by omega]

/-! ## skipZero (R122) -/

/-- Zeros all the way, within the buffer: the cursor moves over them. -/
theorem skipZero_zeros {s : State} {n c : Nat} (hz : zeroOn s c (c + n)) (hl : n = 0 ∨ c + n ≤ s.inLen) :
    skipZero s n c = .ok (c + n) := by
  induction n generalizing c with
  | zero => rfl
  | succ n ih =>
    have hc : c < s.inLen := by omega
    simp only [skipZero, readByte_ok hc, ok_bind, if_pos (hz c (Nat.le_refl _) (by omega))]
    rw [ih (fun k h1 h2 => hz k (by omega) (by omega)) (by omega)]
    congr 1; omega

/-- The first byte that is not zero is reported, one past it. -/
theorem skipZero_nonzero {s : State} {n c k : Nat} (hk : c ≤ k) (hn : k < c + n) (hl : k < s.inLen)
    (hz : zeroOn s c k) (hb : s.inByte k ≠ 0) :
    skipZero s n c = .error (.notZeroByte (s.inByte k) (k + 1)) := by
  induction n generalizing c with
  | zero => omega
  | succ n ih =>
    have hc : c < s.inLen := by omega
    simp only [skipZero, readByte_ok hc, ok_bind]
    by_cases h : c = k
    · subst h; rw [if_neg hb]
    · rw [if_pos (hz c (Nat.le_refl _) (by omega))]
      exact ih (by omega) (by omega) fun j h1 h2 => hz j (by omega) h2

/-- Zeros to the end of the buffer, and more were asked for: the shortage is reported. -/
theorem skipZero_short {s : State} {n c : Nat} (hn : 1 ≤ n) (hl : s.inLen < c + n) (hz : zeroOn s c s.inLen) :
    skipZero s n c = .error (.insufficientInput (max c s.inLen)) := by
  induction n generalizing c with
  | zero => omega
  | succ n ih =>
    by_cases hc : c < s.inLen
    · simp only [skipZero, readByte_ok hc, ok_bind, if_pos (hz c (Nat.le_refl _) hc)]
      rw [ih (by omega) (by omega) fun j h1 h2 => hz j (by omega) h2]
      congr 2; omega
    · simp only [skipZero, readByte_short (Nat.le_of_not_lt hc), error_bind]
      congr 2; omega

/-- What a skipZero that succeeds has passed. -/
theorem skipZero_ok {s : State} {n c c' : Nat} (h : skipZero s n c = .ok c') :
    c' = c + n ∧ zeroOn s c (c + n) ∧ (n = 0 ∨ c + n ≤ s.inLen) := by
  induction n generalizing c with
  | zero => cases h; exact ⟨rfl, fun k h1 h2 => by omega, .inl rfl⟩
  | succ n ih =>
    by_cases hc : c < s.inLen
    · simp only [skipZero, readByte_ok hc, ok_bind] at h
      split at h
      · rename_i hb
        obtain ⟨h1, h2, h3⟩ := ih h
        refine ⟨by omega, fun k hk hk' => ?_, by omega⟩
        by_cases hkc : k = c
        · rw [hkc]; exact hb
        · exact h2 k (by omega) (by omega)
      · cases h
    · rw [skipZero, readByte_short (Nat.le_of_not_lt hc)] at h; cases h

/-- How a skipZero fails: at a byte that is not zero after zeros, or at the end of the buffer after zeros. -/
theorem skipZero_error {s : State} {n c : Nat} {e : Err} (h : skipZero s n c = .error e) :
    (∃ k, c ≤ k ∧ k < c + n ∧ k < s.inLen ∧ zeroOn s c k ∧ s.inByte k ≠ 0
        ∧ e = .notZeroByte (s.inByte k) (k + 1))
      ∨ (1 ≤ n ∧ s.inLen < c + n ∧ zeroOn s c s.inLen ∧ e = .insufficientInput (max c s.inLen)) := by
  induction n generalizing c with
  | zero => cases h
  | succ n ih =>
    by_cases hc : c < s.inLen
    · simp only [skipZero, readByte_ok hc, ok_bind] at h
      split at h
      · rename_i hb
        rcases ih h with ⟨k, h1, h2, h3, h4, h5, h6⟩ | ⟨h1, h2, h3, h4⟩
        · refine .inl ⟨k, by omega, by omega, h3, fun j hj hj' => ?_, h5, h6⟩
          by_cases hjc : j = c
          · rw [hjc]; exact hb
          · exact h4 j (by omega) hj'
        · refine .inr ⟨by omega, by omega, fun j hj hj' => ?_, by rw [h4]; congr 1; omega⟩
          by_cases hjc : j = c
          · rw [hjc]; exact hb
          · exact h3 j (by omega) hj'
      · rename_i hb
        cases h
        exact .inl ⟨c, Nat.le_refl _, by omega, hc, fun j h1 h2 => by omega, hb, rfl⟩
    · rw [skipZero, readByte_short (Nat.le_of_not_lt hc)] at h
      cases h
      exact .inr ⟨by omega, by omega, fun j h1 h2 => by omega, by congr 1; omega⟩

/-! ## Field codecs -/

/-- R125, R126. -/
theorem decAfi_eq (s : State) (c : Nat) :
    decAfi s c =
      if s.inLen < c + 2 then .error (.insufficientInput (max c s.inLen))
      else if afiNamed (field16 s c) then .ok (afiOf (field16 s c), c + 2)
      else .error (.unknownAfi (field16 s c) (afiErrOffset s.par.afiMode c)) := by
  unfold decAfi
  by_cases h0 : c < s.inLen
  · by_cases h1 : c + 1 < s.inLen
    · simp only [readByte_ok h0, readByte_ok h1, ok_bind, ofNat_two, afiOf_unknown_iff]
      rw [if_neg (show ¬ s.inLen < c + 2 by omega)]
      by_cases h : afiNamed (s.inByte c ++ s.inByte (c + 1))
      · rw [if_neg (not_not.mpr h), if_pos (show afiNamed (field16 s c) from h)]; rfl
      · rw [if_pos h, if_neg (show ¬ afiNamed (field16 s c) from h)]; rfl
    · simp [h0, show s.inLen ≤ c + 1 by omega, show s.inLen < c + 2 by omega]; omega
  · simp [show s.inLen ≤ c by omega, show s.inLen < c + 2 by omega]

/-- R128. -/
theorem decCmd_eq (s : State) (c : Nat) :
    decCmd s c =
      if s.inLen ≤ c then .error (.insufficientInput c)
      else if s.inByte c < 12 then .ok (cmdOf (s.inByte c), c + 1)
      else .error (.unknownCommandKind (s.inByte c) (c + 1)) := by
  unfold decCmd
  by_cases h0 : c < s.inLen
  · simp only [readByte_ok h0, ok_bind, cmdOf_unknown_iff]
    rw [if_neg (show ¬ s.inLen ≤ c by omega)]
    by_cases h : s.inByte c < 12
    · rw [if_pos h, if_neg (not_not.mpr h)]; rfl
    · rw [if_neg h, if_pos h]
  · simp [show s.inLen ≤ c by omega]

/-- R130. -/
theorem decVer_eq (s : State) (c : Nat) :
    decVer s c =
      if s.inLen ≤ c then .error (.insufficientInput c) else .ok (verOf (s.inByte c), c + 1) := by
  unfold decVer
  by_cases h0 : c < s.inLen
  · simp [h0, show ¬ s.inLen ≤ c by omega]
  · simp [show s.inLen ≤ c by omega]

/-- R132. -/
theorem decTag_eq (s : State) (c : Nat) :
    decTag s c =
      if c + 2 ≤ s.inLen then .ok (field16 s c, c + 2) else .error (.insufficientInput (max c s.inLen)) := by
  unfold decTag
  rw [memRead_two]
  split
  · simp [field16, ← ofNat_two]
  · rfl

/-- R134. -/
theorem decMetric_eq (s : State) (c : Nat) :
    decMetric s c =
      if c + 4 ≤ s.inLen then .ok (field32 s c, c + 4) else .error (.insufficientInput (max c s.inLen)) := by
  unfold decMetric
  rw [memRead_four]
  split
  · simp only [ok_bind, pure_ok, field32, ← ofNat_four]
  · rfl

/-- The four octets at a cursor. -/
def octetsAt (s : State) (c : Nat) : Ipv4 :=
  { o0 := s.inByte c, o1 := s.inByte (c + 1), o2 := s.inByte (c + 2), o3 := s.inByte (c + 3) }

/-- R136. -/
theorem decIpv4_eq (s : State) (c : Nat) :
    decIpv4 s c =
      if c + 4 ≤ s.inLen then .ok (octetsAt s c, c + 4) else .error (.insufficientInput (max c s.inLen)) := by
  unfold decIpv4
  by_cases h0 : c < s.inLen
  · by_cases h1 : c + 1 < s.inLen
    · by_cases h2 : c + 1 + 1 < s.inLen
      · by_cases h3 : c + 1 + 1 + 1 < s.inLen
        · simp [h0, h1, h2, h3, show c + 4 ≤ s.inLen by omega, octetsAt]
        · simp [h0, h1, h2, show s.inLen ≤ c + 1 + 1 + 1 by omega, show ¬ c + 4 ≤ s.inLen by omega]; omega
      · simp [h0, h1, show s.inLen ≤ c + 1 + 1 by omega, show ¬ c + 4 ≤ s.inLen by omega]; omega
    · simp [h0, show s.inLen ≤ c + 1 by omega, show ¬ c + 4 ≤ s.inLen by omega]; omega
  · simp [show s.inLen ≤ c by omega, show ¬ c + 4 ≤ s.inLen by omega]

/-- R50: the register form of the octets at a cursor is the 32-bit field there. -/
@[simp] theorem ipv4Word_octetsAt (s : State) (c : Nat) : ipv4Word (octetsAt s c) = field32 s c := ipv4Word_eq _

/-- R127. -/
theorem encAfi_eq (a : Afi) :
    encAfi a = if a = .unknown then .error .serUnknownAfi else .ok (wire16 ((afiCode a).getD 0)) := by
  cases a <;> rfl

/-- R129. -/
theorem encCmd_eq (k : CommandKind) :
    encCmd k = if k = .unknown then .error .serUnknownCommandKind else .ok [(cmdCode k).getD 0] := by
  cases k <;> rfl

/-- R131. -/
theorem encVer_eq (v : Version) :
    encVer v = if v = .unknown then .error .serUnknownVersion else .ok [(verCode v).getD 0] := by
  cases v <;> rfl

/-- R133. -/
theorem encTag_eq (t : BitVec 16) : encTag t = wire16 t := bytesBE_two t

/-- R135. -/
theorem encMetric_eq (m : BitVec 32) : encMetric m = wire32 m := bytesBE_four m

/-! ## Record codecs -/

/-- R171: the header, with the first failing check in byte order. -/
theorem decHdr_eq (s : State) (c : Nat) :
    decHdr s c =
      if s.inLen ≤ c then .error (.insufficientInput c)
      else if ¬ s.inByte c < 12 then .error (.unknownCommandKind (s.inByte c) (c + 1))
      else if s.inLen ≤ c + 1 then .error (.insufficientInput (c + 1))
      else if s.inLen ≤ c + 2 then .error (.insufficientInput (c + 2))
      else if s.inByte (c + 2) ≠ 0 then .error (.notZeroByte (s.inByte (c + 2)) (c + 3))
      else if s.inLen ≤ c + 3 then .error (.insufficientInput (c + 3))
      else if s.inByte (c + 3) ≠ 0 then .error (.notZeroByte (s.inByte (c + 3)) (c + 4))
      else .ok ({ command := cmdOf (s.inByte c), version := verOf (s.inByte (c + 1)) }, c + 4) := by
  unfold decHdr
  rw [decCmd_eq]
  by_cases h0 : s.inLen ≤ c
  · simp [h0]
  by_cases hb : s.inByte c < 12
  · rw [if_neg h0, if_pos hb, if_neg h0, if_neg (not_not.mpr hb)]
    simp only [ok_bind, decVer_eq]
    by_cases h1 : s.inLen ≤ c + 1
    · rw [if_pos h1, if_pos h1]; rfl
    rw [if_neg h1, if_neg h1]
    simp only [ok_bind, skipZero]
    by_cases h2 : s.inLen ≤ c + 2
    · rw [if_pos h2, readByte_short h2]; rfl
    rw [if_neg h2, readByte_ok (by omega)]
    simp only [ok_bind]
    by_cases hz : s.inByte (c + 1 + 1) = 0
    · rw [if_pos hz, if_neg (not_not.mpr hz)]
      by_cases h3 : s.inLen ≤ c + 3
      · rw [if_pos h3, readByte_short h3]; rfl
      rw [if_neg h3, readByte_ok (by omega)]
      simp only [ok_bind]
      by_cases hz' : s.inByte (c + 1 + 1 + 1) = 0
      · rw [if_pos hz', if_neg (not_not.mpr hz')]; rfl
      · rw [if_neg hz', if_pos hz']; rfl
    · rw [if_neg hz, if_pos hz]; rfl
  · rw [if_neg h0, if_neg hb, if_neg h0, if_pos hb]; rfl

/-- R171: what a header that decodes looks like. -/
theorem decHdr_ok {s : State} {c : Nat} (h : headerOk s c) :
    decHdr s c = .ok ({ command := cmdOf (s.inByte c), version := verOf (s.inByte (c + 1)) }, c + 4) := by
  obtain ⟨hl, hb, h2, h3⟩ := h
  rw [decHdr_eq, if_neg (by omega), if_neg (not_not.mpr hb), if_neg (by omega), if_neg (by omega),
    if_neg (not_not.mpr h2), if_neg (by omega), if_neg (not_not.mpr h3)]

/-- R171: a header that decodes has these bytes. -/
theorem decHdr_inv {s : State} {c : Nat} {r : Header × Nat} (h : decHdr s c = .ok r) :
    headerOk s c ∧ r = ({ command := cmdOf (s.inByte c), version := verOf (s.inByte (c + 1)) }, c + 4) := by
  rw [decHdr_eq] at h
  repeat' split at h
  all_goals try (cases h; done)
  cases h
  rename_i h0 hb h1 h2 hz h3 hz'
  exact ⟨⟨by omega, not_not.mp hb, not_not.mp hz, not_not.mp hz'⟩, rfl⟩

/-- R172. -/
theorem encHdr_eq (h : Header) :
    encHdr h =
      if h.command = .unknown then .error .serUnknownCommandKind
      else if h.version = .unknown then .error .serUnknownVersion
      else .ok (wireHdr h.command h.version) := by
  unfold encHdr
  rw [encCmd_eq, encVer_eq]
  split
  · rfl
  · split <;> rfl

/-- R173: a v1 entry that decodes. -/
theorem decEnt1_ok {s : State} {c : Nat} (h : entryV1Ok s c) :
    decEnt1 s c =
      .ok ({ afi := afiOf (field16 s c), address := octetsAt s (c + 4), metric := field32 s (c + 16) }, c + 20) := by
  obtain ⟨hl, ha, hz, hz'⟩ := h
  unfold decEnt1
  rw [decAfi_eq, if_neg (by omega), if_pos ha]
  simp only [ok_bind]
  rw [skipZero_zeros (n := 2) (c := c + 2) hz (by omega)]
  simp only [ok_bind]
  rw [decIpv4_eq, if_pos (by omega)]
  simp only [ok_bind]
  rw [skipZero_zeros (n := 8) (c := c + 2 + 2 + 4) hz' (by omega)]
  simp only [ok_bind]
  rw [decMetric_eq, if_pos (by omega)]
  rfl

/-- R173: a v1 entry that decodes has these bytes. -/
theorem decEnt1_inv {s : State} {c : Nat} {r : EntryV1 × Nat} (h : decEnt1 s c = .ok r) :
    entryV1Ok s c
      ∧ r = ({ afi := afiOf (field16 s c), address := octetsAt s (c + 4), metric := field32 s (c + 16) }, c + 20) := by
  have hok : entryV1Ok s c := by
    unfold decEnt1 at h
    obtain ⟨⟨a, c1⟩, h1, h⟩ := bind_ok h
    obtain ⟨c2, h2, h⟩ := bind_ok h
    obtain ⟨⟨ip, c3⟩, h3, h⟩ := bind_ok h
    obtain ⟨c4, h4, h⟩ := bind_ok h
    obtain ⟨⟨m, c5⟩, h5, h⟩ := bind_ok h
    rw [decAfi_eq] at h1
    split at h1
    · cases h1
    split at h1
    case isFalse => cases h1
    rename_i hl ha
    cases h1
    obtain ⟨rfl, hz, _⟩ := skipZero_ok h2
    rw [decIpv4_eq] at h3
    split at h3
    case isFalse => cases h3
    cases h3
    obtain ⟨rfl, hz', _⟩ := skipZero_ok h4
    rw [decMetric_eq] at h5
    split at h5
    case isFalse => cases h5
    exact ⟨by omega, ha, hz, hz'⟩
  refine ⟨hok, ?_⟩
  rw [decEnt1_ok hok] at h
  cases h; rfl

/-- R173: the slot of a v1 entry that decodes. -/
theorem slotOfV1_at (s : State) (c : Nat) :
    slotOfV1 { afi := afiOf (field16 s c), address := octetsAt s (c + 4), metric := field32 s (c + 16) }
      = slotV1At s c := by
  simp [slotOfV1, slotV1At]

/-- R174. -/
theorem encEnt1_eq (e : EntryV1) :
    encEnt1 e = if e.afi = .unknown then .error .serUnknownAfi else .ok (wireV1 (slotOfV1 e)) := by
  unfold encEnt1
  rw [encAfi_eq]
  split
  · rfl
  · have h : ipv4Octets e.address = wire32 (ipv4Word e.address) := by
      conv_lhs => rw [← ipv4OfWord_word e.address]
      rfl
    simp only [ok_bind, pure_ok, encIpv4, encMetric_eq, h, wireV1, slotOfV1]
    rfl

/-- R175: a v2 entry that decodes. -/
theorem decEnt2_ok {s : State} {c : Nat} (h : entryV2Ok s c) :
    decEnt2 s c =
      .ok ({ afi := afiOf (field16 s c), routeTag := field16 s (c + 2), address := octetsAt s (c + 4),
             subnetMask := octetsAt s (c + 8), nextHop := octetsAt s (c + 12), metric := field32 s (c + 16) },
           c + 20) := by
  obtain ⟨hl, ha⟩ := h
  unfold decEnt2
  rw [decAfi_eq, if_neg (by omega), if_pos ha]
  simp only [ok_bind]
  rw [decTag_eq, if_pos (by omega)]
  simp only [ok_bind]
  rw [decIpv4_eq, if_pos (by omega)]
  simp only [ok_bind]
  rw [decIpv4_eq, if_pos (by omega)]
  simp only [ok_bind]
  rw [decIpv4_eq, if_pos (by omega)]
  simp only [ok_bind]
  rw [decMetric_eq, if_pos (by omega)]
  rfl

/-- R175: a v2 entry, with the first failing check in byte order. -/
theorem decEnt2_eq (s : State) (c : Nat) :
    decEnt2 s c =
      if s.inLen < c + 2 then .error (.insufficientInput (max c s.inLen))
      else if ¬ afiNamed (field16 s c) then .error (.unknownAfi (field16 s c) (afiErrOffset s.par.afiMode c))
      else if s.inLen < c + 20 then .error (.insufficientInput s.inLen)
      else .ok ({ afi := afiOf (field16 s c), routeTag := field16 s (c + 2), address := octetsAt s (c + 4),
                  subnetMask := octetsAt s (c + 8), nextHop := octetsAt s (c + 12), metric := field32 s (c + 16) },
                c + 20) := by
  by_cases h0 : s.inLen < c + 2
  · rw [if_pos h0]; unfold decEnt2; rw [decAfi_eq, if_pos h0]; rfl
  rw [if_neg h0]
  by_cases ha : afiNamed (field16 s c)
  case neg => rw [if_pos ha]; unfold decEnt2; rw [decAfi_eq, if_neg h0, if_neg ha]; rfl
  rw [if_neg (not_not.mpr ha)]
  by_cases hl : s.inLen < c + 20
  case neg => rw [if_neg hl]; exact decEnt2_ok ⟨by omega, ha⟩
  rw [if_pos hl]
  unfold decEnt2
  rw [decAfi_eq, if_neg h0, if_pos ha]
  simp only [ok_bind, decTag_eq]
  by_cases h1 : c + 2 + 2 ≤ s.inLen
  case neg => rw [if_neg h1]; simp only [error_bind]; congr 2; omega
  rw [if_pos h1]
  simp only [ok_bind, decIpv4_eq]
  by_cases h2 : c + 2 + 2 + 4 ≤ s.inLen
  case neg => rw [if_neg h2]; simp only [error_bind]; congr 2; omega
  rw [if_pos h2]
  simp only [ok_bind]
  by_cases h3 : c + 2 + 2 + 4 + 4 ≤ s.inLen
  case neg => rw [if_neg h3]; simp only [error_bind]; congr 2; omega
  rw [if_pos h3]
  simp only [ok_bind]
  by_cases h4 : c + 2 + 2 + 4 + 4 + 4 ≤ s.inLen
  case neg => rw [if_neg h4]; simp only [error_bind]; congr 2; omega
  rw [if_pos h4]
  simp only [ok_bind]
  rw [decMetric_eq, if_neg (by omega)]
  simp only [error_bind]; congr 2; omega

/-- R175: a v2 entry that decodes has these bytes. -/
theorem decEnt2_inv {s : State} {c : Nat} {r : EntryV2 × Nat} (h : decEnt2 s c = .ok r) :
    entryV2Ok s c
      ∧ r = ({ afi := afiOf (field16 s c), routeTag := field16 s (c + 2), address := octetsAt s (c + 4),
               subnetMask := octetsAt s (c + 8), nextHop := octetsAt s (c + 12), metric := field32 s (c + 16) },
             c + 20) := by
  rw [decEnt2_eq] at h
  repeat' split at h
  all_goals try (cases h; done)
  cases h
  rename_i h0 ha hl
  exact ⟨⟨by omega, not_not.mp ha⟩, rfl⟩

/-- R175: the slot of a v2 entry that decodes. -/
theorem slotOfV2_at (s : State) (c : Nat) :
    slotOfV2 { afi := afiOf (field16 s c), routeTag := field16 s (c + 2), address := octetsAt s (c + 4),
               subnetMask := octetsAt s (c + 8), nextHop := octetsAt s (c + 12), metric := field32 s (c + 16) }
      = slotV2At s c := by
  simp [slotOfV2, slotV2At]

/-- R176. -/
theorem encEnt2_eq (e : EntryV2) :
    encEnt2 e = if e.afi = .unknown then .error .serUnknownAfi else .ok (wireV2 (slotOfV2 e)) := by
  have h : ∀ a : Ipv4, ipv4Octets a = wire32 (ipv4Word a) := fun a => by
    conv_lhs => rw [← ipv4OfWord_word a]
    rfl
  unfold encEnt2
  rw [encAfi_eq]
  split
  · rfl
  · simp only [ok_bind, pure_ok, encIpv4, encMetric_eq, encTag_eq, h, wireV2, slotOfV2]

/-! ## Construction, the entry loop and serialization -/

/-- R200: construction succeeds exactly on a matching version and at most 25 entries. -/
theorem make_ok_iff {ε : Type} (kind : PktKind) (h : Header) (es : List ε) (p : Packet ε) :
    make kind h es = .ok p ↔
      h.version = kindVersion kind ∧ es.length ≤ 25 ∧ p = { header := h, entries := es } := by
  unfold make makeCheck
  by_cases hv : h.version = kindVersion kind
  · by_cases hn : Config.maxEntries < es.length
    · simp [hv, hn]
    · simp only [Config.maxEntries] at hn
      simp [hv, hn, show es.length ≤ 25 by omega, eq_comm]
  · simp [hv]

/-- R222: the entries that a loop over the rest of the buffer reads. -/
theorem entriesFrom_ok {ε : Type} {s : State} {dec : Nat → Except Err (ε × Nat)} {f : Nat → ε} {n room c : Nat}
    (hd : ∀ i, i < n → dec (c + 20 * i) = .ok (f (c + 20 * i), c + 20 * i + 20)) (hl : s.inLen = c + 20 * n)
    (hr : n ≤ room) :
    entriesFrom s dec room c = .ok ((List.range n).map fun i => f (c + 20 * i), s.inLen) := by
  induction n generalizing c room with
  | zero => unfold entriesFrom; rw [if_pos (by omega)]; simp; omega
  | succ n ih =>
    obtain ⟨r, rfl⟩ : ∃ r, room = r + 1 := ⟨room - 1, by omega⟩
    unfold entriesFrom
    rw [if_neg (by omega)]
    have h0 := hd 0 (by omega)
    simp only [Nat.mul_zero, Nat.add_zero] at h0
    simp only [h0, ok_bind]
    rw [ih (c := c + 20) (fun i hi => by
        have := hd (i + 1) (by omega)
        rw [show c + 20 + 20 * i = c + 20 * (i + 1) by omega]; exact this) (by omega) (by omega)]
    simp only [ok_bind, pure_ok, List.range_succ_eq_map, List.map_cons, List.map_map]
    congr 3
    apply List.map_congr_left
    intro i _
    simp only [Function.comp, Nat.succ_eq_add_one]
    congr 1; omega

/-- R222: what a loop that succeeds has read: n entries, up to the end of the buffer. -/
theorem entriesFrom_inv {ε : Type} {s : State} {dec : Nat → Except Err (ε × Nat)} {P : Nat → Prop} {f : Nat → ε}
    (hd : ∀ c r, dec c = .ok r → P c ∧ r = (f c, c + 20)) {room c : Nat} {r : List ε × Nat}
    (hc : c ≤ s.inLen) (hP : ∀ c, P c → c + 20 ≤ s.inLen) (h : entriesFrom s dec room c = .ok r) :
    ∃ n, n ≤ room ∧ s.inLen = c + 20 * n ∧ (∀ i, i < n → P (c + 20 * i))
      ∧ r = ((List.range n).map fun i => f (c + 20 * i), s.inLen) := by
  induction room generalizing c r with
  | zero =>
    unfold entriesFrom at h
    split at h
    · cases h; exact ⟨0, by omega, by omega, fun i hi => by omega, by simp; omega⟩
    · cases h
  | succ room ih =>
    unfold entriesFrom at h
    split at h
    · cases h; exact ⟨0, by omega, by omega, fun i hi => by omega, by simp; omega⟩
    · obtain ⟨⟨e, c1⟩, h1, h⟩ := bind_ok h
      obtain ⟨⟨es, c2⟩, h2, h⟩ := bind_ok h
      obtain ⟨hp, he⟩ := hd _ _ h1
      cases he
      have hle := hP _ hp
      obtain ⟨n, hn, hl, hi, hr⟩ := ih (c := c + 20) (by omega) h2
      cases hr
      cases h
      refine ⟨n + 1, by omega, by omega, fun i hlt => ?_, ?_⟩
      · cases i with
        | zero => simpa using hp
        | succ i =>
          have := hi i (by omega)
          rwa [show c + 20 + 20 * i = c + 20 * (i + 1) by omega] at this
      · simp only [List.range_succ_eq_map, List.map_cons, List.map_map]
        congr 2
        apply List.map_congr_left
        intro i _
        simp only [Function.comp, Nat.succ_eq_add_one]
        congr 1; omega

/-- R226: entries that all encode. -/
theorem encEntries_ok {ε : Type} {enc : ε → Except Err (List Byte)} {g : ε → List Byte} {es : List ε}
    (h : ∀ e ∈ es, enc e = .ok (g e)) : encEntries enc es = .ok (es.flatMap g) := by
  induction es with
  | nil => rfl
  | cons e r ih =>
    simp only [encEntries, h e (by simp), ok_bind, ih fun x hx => h x (by simp [hx]), pure_ok, List.flatMap_cons]

/-- R226: entries of which one does not encode raise its error. -/
theorem encEntries_error {ε : Type} {enc : ε → Except Err (List Byte)} {e0 : Err} {es : List ε}
    (h : ∀ e ∈ es, (∃ b, enc e = .ok b) ∨ enc e = .error e0) (hx : ∃ e ∈ es, enc e = .error e0) :
    encEntries enc es = .error e0 := by
  induction es with
  | nil => simp at hx
  | cons e r ih =>
    rcases h e (by simp) with ⟨b, hb⟩ | hb
    · have hr : ∃ x ∈ r, enc x = .error e0 := by
        obtain ⟨x, hm, hxe⟩ := hx
        rcases List.mem_cons.mp hm with rfl | hm
        · rw [hb] at hxe; cases hxe
        · exact ⟨x, hm, hxe⟩
      simp only [encEntries, hb, ok_bind, ih (fun x hm => h x (by simp [hm])) hr, error_bind]
    · simp only [encEntries, hb, error_bind]

end Sys2Proof.Machine
end

