-- ==== Sys2Proof/Laws/Exec.lean ====
section
/-! SUPPORT. What an operation can do, for all of them at once: every operation ends through `finish`; how the record
decoders and the entry loop fail; and that no codec reads IN beyond the bytes it needs. -/

namespace Sys2Proof.Machine

/-! ## Every operation ends through `finish` -/

/-- R262: the class of an operation. -/
def resultClass (i : Instr) : ResultClass :=
  if writesOut i then .out else if writesPkt i then .packet else .regs

/-- Every operation ends through the one shared ending, in its class. -/
theorem exec_finish (i : Instr) (s : State) : ∃ r, exec i s = finish (resultClass i) s r := by
  cases i <;> first
    | exact ⟨_, rfl⟩
    | exact ⟨(Except.ok (encTag (fvTag s))).map fun out => commitOut out s, rfl⟩
    | exact ⟨(Except.ok (encMetric (fvMetric s))).map fun out => commitOut out s, rfl⟩
    | exact ⟨(Except.ok (encIpv4 (fvIpv4 s))).map fun out => commitOut out s, rfl⟩

/-- Every operation has a next state. -/
theorem exec_total (i : Instr) (s : State) : ∃ t, exec i s = .next t := by
  obtain ⟨r, hr⟩ := exec_finish i s
  cases r with
  | ok u => exact ⟨_, hr⟩
  | error e => exact ⟨_, hr⟩

/-- An operation's next state is a completed result or the failure's writes. -/
theorem exec_cases {i : Instr} {s t : State} (h : exec i s = .next t) :
    (∃ u, t = complete u ∧ exec i s = finish (resultClass i) s (.ok u))
      ∨ ∃ e, t = raiseErr (resultClass i) e s ∧ exec i s = finish (resultClass i) s (.error e) := by
  obtain ⟨r, hr⟩ := exec_finish i s
  rw [hr] at h
  rcases finish_cases h with ⟨u, rfl, rfl⟩ | ⟨e, rfl, rfl⟩
  · exact .inl ⟨u, rfl, hr⟩
  · exact .inr ⟨e, rfl, hr⟩

/-! ## How the decoders fail -/

/-- R125: a failing decAfi. -/
theorem decAfi_error {s : State} {c : Nat} {e : Err} (h : decAfi s c = .error e) :
    (s.inLen < c + 2 ∧ e = .insufficientInput (max c s.inLen))
      ∨ (c + 2 ≤ s.inLen ∧ ¬ afiNamed (field16 s c)
          ∧ e = .unknownAfi (field16 s c) (afiErrOffset s.par.afiMode c)) := by
  rw [decAfi_eq] at h
  split at h
  · cases h; exact .inl ⟨by assumption, rfl⟩
  · split at h
    · cases h
    · cases h; exact .inr ⟨by omega, by assumption, rfl⟩

/-- R171: a failing decHdr. -/
theorem decHdr_error {s : State} {c : Nat} {e : Err} (h : decHdr s c = .error e) :
    (s.inLen < c + 4 ∧ e = .insufficientInput (max c s.inLen))
      ∨ (c < s.inLen ∧ ¬ s.inByte c < 12 ∧ e = .unknownCommandKind (s.inByte c) (c + 1))
      ∨ (c + 2 < s.inLen ∧ s.inByte (c + 2) ≠ 0 ∧ e = .notZeroByte (s.inByte (c + 2)) (c + 3))
      ∨ (c + 3 < s.inLen ∧ s.inByte (c + 3) ≠ 0 ∧ e = .notZeroByte (s.inByte (c + 3)) (c + 4)) := by
  rw [decHdr_eq] at h
  repeat' split at h
  all_goals cases h
  · exact .inl ⟨by omega, by congr 1; omega⟩
  · exact .inr (.inl ⟨by omega, by assumption, rfl⟩)
  · exact .inl ⟨by omega, by congr 1; omega⟩
  · exact .inl ⟨by omega, by congr 1; omega⟩
  · exact .inr (.inr (.inl ⟨by omega, by assumption, rfl⟩))
  · exact .inl ⟨by omega, by congr 1; omega⟩
  · exact .inr (.inr (.inr ⟨by omega, by assumption, rfl⟩))

/-- R173: a failing decEnt1. -/
theorem decEnt1_error {s : State} {c : Nat} {e : Err} (h : decEnt1 s c = .error e) :
    (s.inLen < c + 20 ∧ e = .insufficientInput (max c s.inLen))
      ∨ (c + 2 ≤ s.inLen ∧ ¬ afiNamed (field16 s c)
          ∧ e = .unknownAfi (field16 s c) (afiErrOffset s.par.afiMode c))
      ∨ (∃ k, c + 2 ≤ k ∧ k < c + 16 ∧ k < s.inLen ∧ s.inByte k ≠ 0 ∧ e = .notZeroByte (s.inByte k) (k + 1)) := by
  unfold decEnt1 at h
  rcases bind_error h with h | ⟨⟨a, c1⟩, h1, h⟩
  · rcases decAfi_error h with ⟨h1, h2⟩ | h1
    · exact .inl ⟨by omega, h2⟩
    · exact .inr (.inl h1)
  rw [decAfi_eq] at h1
  split at h1
  · cases h1
  split at h1
  case isFalse => cases h1
  rename_i hl ha
  cases h1
  rcases bind_error h with h | ⟨c2, h2, h⟩
  · rcases skipZero_error h with ⟨k, h1, h2, h3, -, h5, h6⟩ | ⟨h1, h2, -, h4⟩
    · exact .inr (.inr ⟨k, by omega, by omega, h3, h5, h6⟩)
    · exact .inl ⟨by omega, by rw [h4]; congr 1; omega⟩
  obtain ⟨rfl, -, hl2⟩ := skipZero_ok h2
  rcases bind_error h with h | ⟨⟨ip, c3⟩, h3, h⟩
  · rw [decIpv4_eq] at h
    split at h <;> cases h
    exact .inl ⟨by omega, by congr 1; omega⟩
  rw [decIpv4_eq] at h3
  split at h3 <;> cases h3
  rcases bind_error h with h | ⟨c4, h4, h⟩
  · rcases skipZero_error h with ⟨k, h1, h2, h3, -, h5, h6⟩ | ⟨h1, h2, -, h4⟩
    · exact .inr (.inr ⟨k, by omega, by omega, h3, h5, h6⟩)
    · exact .inl ⟨by omega, by rw [h4]; congr 1; omega⟩
  obtain ⟨rfl, -, hl4⟩ := skipZero_ok h4
  rcases bind_error h with h | ⟨r, -, h⟩
  · rw [decMetric_eq] at h
    split at h <;> cases h
    exact .inl ⟨by omega, by congr 1; omega⟩
  · cases h

/-- R175: a failing decEnt2. -/
theorem decEnt2_error {s : State} {c : Nat} {e : Err} (h : decEnt2 s c = .error e) :
    (s.inLen < c + 20 ∧ e = .insufficientInput (max c s.inLen))
      ∨ (c + 2 ≤ s.inLen ∧ ¬ afiNamed (field16 s c)
          ∧ e = .unknownAfi (field16 s c) (afiErrOffset s.par.afiMode c)) := by
  rw [decEnt2_eq] at h
  repeat' split at h
  all_goals cases h
  · exact .inl ⟨by omega, rfl⟩
  · exact .inr ⟨by omega, by assumption, rfl⟩
  · exact .inl ⟨by omega, by congr 1; omega⟩

/-- R222: a failing loop fails in the decoder at some entry after entries that decoded, or at the 26th. -/
theorem entriesFrom_error {ε : Type} {s : State} {dec : Nat → Except Err (ε × Nat)} {P : Nat → Prop}
    (hd : ∀ c r, dec c = .ok r → P c ∧ r.2 = c + 20) {room c : Nat} {e : Err}
    (h : entriesFrom s dec room c = .error e) :
    ∃ k, k ≤ room ∧ c + 20 * k < s.inLen ∧ (∀ i, i < k → P (c + 20 * i))
      ∧ ((k = room ∧ e = .maxRipEntries (c + 20 * room)) ∨ (k < room ∧ dec (c + 20 * k) = .error e)) := by
  induction room generalizing c with
  | zero =>
    unfold entriesFrom at h
    split at h
    · cases h
    · cases h; exact ⟨0, by omega, by omega, fun i hi => by omega, .inl ⟨rfl, rfl⟩⟩
  | succ room ih =>
    unfold entriesFrom at h
    split at h
    · cases h
    rename_i hlt
    rcases bind_error h with h | ⟨⟨e1, c1⟩, h1, h⟩
    · exact ⟨0, by omega, by omega, fun i hi => by omega, .inr ⟨by omega, by simpa using h⟩⟩
    obtain ⟨hp, hc⟩ := hd _ _ h1
    simp only at hc
    subst hc
    rcases bind_error h with h | ⟨r, -, h⟩
    · obtain ⟨k, hk, hl, hi, hx⟩ := ih h
      refine ⟨k + 1, by omega, by omega, fun i hlt => ?_, ?_⟩
      · cases i with
        | zero => simpa using hp
        | succ i =>
          have := hi i (by omega)
          rwa [show c + 20 + 20 * i = c + 20 * (i + 1) by omega] at this
      · rcases hx with ⟨rfl, rfl⟩ | ⟨h1, h2⟩
        · exact .inl ⟨rfl, by congr 1; omega⟩
        · exact .inr ⟨by omega, by rwa [show c + 20 * (k + 1) = c + 20 + 20 * k by omega]⟩
    · cases h

/-- R221: wrapMake cannot raise on at most 25 entries and the version of the kind. -/
theorem wrapMake_ok {ε : Type} {kind : PktKind} {h : Header} {es : List ε} (hv : h.version = kindVersion kind)
    (hn : es.length ≤ 25) : wrapMake kind h es = .ok { header := h, entries := es } := by
  unfold wrapMake
  rw [(make_ok_iff kind h es _).mpr ⟨hv, hn, rfl⟩]

/-! ## No codec reads more of IN than it needs -/

/-- `s'` has the buffer of `s` as far as index `hi`: the same length and parameters, and the same bytes below both `hi`
and IN_LEN. -/
structure SameBuf (s s' : State) (hi : Nat) : Prop where
  len : s'.inLen = s.inLen
  par : s'.par = s.par
  byte : ∀ k, k < hi → k < s.inLen → s'.inByte k = s.inByte k

/-- A shorter prefix of the buffer. -/
theorem SameBuf_mono {s s' : State} {hi lo : Nat} (h : SameBuf s s' hi) (hl : lo ≤ hi) : SameBuf s s' lo :=
  ⟨h.len, h.par, fun k h1 h2 => h.byte k (by omega) h2⟩

/-- Binds agree where their first parts do and their second parts agree on its value. -/
theorem bind_congr_ok {α β : Type} {x x' : Except Err α} {f f' : α → Except Err β} (hx : x = x')
    (hf : ∀ a, x' = .ok a → f a = f' a) : (x >>= f) = (x' >>= f') := by
  subst hx
  cases x with
  | error e => rfl
  | ok a => exact hf a rfl

section
variable {s s' : State}

theorem readByte_congr {c : Nat} (h : SameBuf s s' (c + 1)) : readByte s' c = readByte s c := by
  unfold readByte
  rw [h.len]
  by_cases hl : c < s.inLen
  · rw [if_pos hl, if_pos hl, h.byte c (by omega) hl]
  · rw [if_neg hl, if_neg hl]

theorem readByte_next {c : Nat} {r : Byte × Nat} (h : readByte s c = .ok r) : r.2 = c + 1 := by
  unfold readByte at h
  split at h <;> cases h
  rfl

theorem skipZero_congr {n c : Nat} (h : SameBuf s s' (c + n)) : skipZero s' n c = skipZero s n c := by
  induction n generalizing c with
  | zero => rfl
  | succ n ih =>
    refine bind_congr_ok (readByte_congr (SameBuf_mono h (by omega))) fun r hr => ?_
    have hc := readByte_next hr
    obtain ⟨b, c1⟩ := r
    simp only at hc
    subst hc
    simp only
    split
    · exact ih (SameBuf_mono h (by omega))
    · rfl

theorem decAfi_congr {c : Nat} (h : SameBuf s s' (c + 2)) : decAfi s' c = decAfi s c := by
  rw [decAfi_eq, decAfi_eq, h.len, h.par]
  by_cases hl : s.inLen < c + 2
  · rw [if_pos hl, if_pos hl]
  · rw [if_neg hl, if_neg hl, show field16 s' c = field16 s c by
      unfold field16; rw [h.byte c (by omega) (by omega), h.byte (c + 1) (by omega) (by omega)]]

theorem decCmd_congr {c : Nat} (h : SameBuf s s' (c + 1)) : decCmd s' c = decCmd s c := by
  rw [decCmd_eq, decCmd_eq, h.len]
  by_cases hl : s.inLen ≤ c
  · rw [if_pos hl, if_pos hl]
  · rw [if_neg hl, if_neg hl, h.byte c (by omega) (by omega)]

theorem decVer_congr {c : Nat} (h : SameBuf s s' (c + 1)) : decVer s' c = decVer s c := by
  rw [decVer_eq, decVer_eq, h.len]
  by_cases hl : s.inLen ≤ c
  · rw [if_pos hl, if_pos hl]
  · rw [if_neg hl, if_neg hl, h.byte c (by omega) (by omega)]

theorem decTag_congr {c : Nat} (h : SameBuf s s' (c + 2)) : decTag s' c = decTag s c := by
  rw [decTag_eq, decTag_eq, h.len]
  by_cases hl : c + 2 ≤ s.inLen
  · rw [if_pos hl, if_pos hl, show field16 s' c = field16 s c by
      unfold field16; rw [h.byte c (by omega) (by omega), h.byte (c + 1) (by omega) (by omega)]]
  · rw [if_neg hl, if_neg hl]

theorem decMetric_congr {c : Nat} (h : SameBuf s s' (c + 4)) : decMetric s' c = decMetric s c := by
  rw [decMetric_eq, decMetric_eq, h.len]
  by_cases hl : c + 4 ≤ s.inLen
  · rw [if_pos hl, if_pos hl, show field32 s' c = field32 s c by
      unfold field32
      rw [h.byte c (by omega) (by omega), h.byte (c + 1) (by omega) (by omega),
        h.byte (c + 2) (by omega) (by omega), h.byte (c + 3) (by omega) (by omega)]]
  · rw [if_neg hl, if_neg hl]

theorem decIpv4_congr {c : Nat} (h : SameBuf s s' (c + 4)) : decIpv4 s' c = decIpv4 s c := by
  rw [decIpv4_eq, decIpv4_eq, h.len]
  by_cases hl : c + 4 ≤ s.inLen
  · rw [if_pos hl, if_pos hl, show octetsAt s' c = octetsAt s c by
      unfold octetsAt
      rw [h.byte c (by omega) (by omega), h.byte (c + 1) (by omega) (by omega),
        h.byte (c + 2) (by omega) (by omega), h.byte (c + 3) (by omega) (by omega)]]
  · rw [if_neg hl, if_neg hl]

theorem decAfi_next {c : Nat} {r : Afi × Nat} (h : decAfi s c = .ok r) : r.2 = c + 2 := by
  rw [decAfi_eq] at h
  split at h
  · cases h
  · split at h <;> cases h
    rfl

theorem decCmd_next {c : Nat} {r : CommandKind × Nat} (h : decCmd s c = .ok r) : r.2 = c + 1 := by
  rw [decCmd_eq] at h
  split at h
  · cases h
  · split at h <;> cases h
    rfl

theorem decVer_next {c : Nat} {r : Version × Nat} (h : decVer s c = .ok r) : r.2 = c + 1 := by
  rw [decVer_eq] at h
  split at h <;> cases h
  rfl

theorem decTag_next {c : Nat} {r : BitVec 16 × Nat} (h : decTag s c = .ok r) : r.2 = c + 2 := by
  rw [decTag_eq] at h
  split at h <;> cases h
  rfl

theorem decIpv4_next {c : Nat} {r : Ipv4 × Nat} (h : decIpv4 s c = .ok r) : r.2 = c + 4 := by
  rw [decIpv4_eq] at h
  split at h <;> cases h
  rfl

/-- decHdr reads 4 bytes at most. -/
theorem decHdr_congr {c : Nat} (h : SameBuf s s' (c + 4)) : decHdr s' c = decHdr s c := by
  unfold decHdr
  refine bind_congr_ok (decCmd_congr (SameBuf_mono h (by omega))) fun r hr => ?_
  have hc := decCmd_next hr
  refine bind_congr_ok (decVer_congr (SameBuf_mono h (by omega))) fun r2 hr2 => ?_
  have hc2 := decVer_next hr2
  obtain ⟨v, c2⟩ := r2
  simp only at hc2 ⊢
  rw [skipZero_congr (SameBuf_mono h (by omega))]

/-- decEnt1 reads 20 bytes at most. -/
theorem decEnt1_congr {c : Nat} (h : SameBuf s s' (c + 20)) : decEnt1 s' c = decEnt1 s c := by
  unfold decEnt1
  refine bind_congr_ok (decAfi_congr (SameBuf_mono h (by omega))) fun r hr => ?_
  have hc := decAfi_next hr
  refine bind_congr_ok (skipZero_congr (SameBuf_mono h (by omega))) fun c2 hr2 => ?_
  have hc2 := (skipZero_ok hr2).1
  refine bind_congr_ok (decIpv4_congr (SameBuf_mono h (by omega))) fun r3 hr3 => ?_
  have hc3 := decIpv4_next hr3
  refine bind_congr_ok (skipZero_congr (SameBuf_mono h (by omega))) fun c4 hr4 => ?_
  have hc4 := (skipZero_ok hr4).1
  rw [decMetric_congr (SameBuf_mono h (by omega))]

/-- decEnt2 reads 20 bytes at most. -/
theorem decEnt2_congr {c : Nat} (h : SameBuf s s' (c + 20)) : decEnt2 s' c = decEnt2 s c := by
  unfold decEnt2
  refine bind_congr_ok (decAfi_congr (SameBuf_mono h (by omega))) fun r hr => ?_
  have hc := decAfi_next hr
  refine bind_congr_ok (decTag_congr (SameBuf_mono h (by omega))) fun r2 hr2 => ?_
  have hc2 := decTag_next hr2
  refine bind_congr_ok (decIpv4_congr (SameBuf_mono h (by omega))) fun r3 hr3 => ?_
  have hc3 := decIpv4_next hr3
  refine bind_congr_ok (decIpv4_congr (SameBuf_mono h (by omega))) fun r4 hr4 => ?_
  have hc4 := decIpv4_next hr4
  refine bind_congr_ok (decIpv4_congr (SameBuf_mono h (by omega))) fun r5 hr5 => ?_
  have hc5 := decIpv4_next hr5
  obtain ⟨nh, c5⟩ := r5
  simp only at hc5 ⊢
  rw [decMetric_congr (SameBuf_mono h (by omega))]

/-- The entry loop reads 20 bytes for each entry it has room for, at most. -/
theorem entriesFrom_congr {ε : Type} {dec dec' : Nat → Except Err (ε × Nat)} (hl : s'.inLen = s.inLen)
    (hn : ∀ c r, dec c = .ok r → r.2 = c + 20) {room c : Nat}
    (hd : ∀ i, i < room → dec' (c + 20 * i) = dec (c + 20 * i)) :
    entriesFrom s' dec' room c = entriesFrom s dec room c := by
  induction room generalizing c with
  | zero => unfold entriesFrom; rw [hl]
  | succ room ih =>
    unfold entriesFrom
    rw [hl]
    split
    · rfl
    · have h0 := hd 0 (by omega)
      simp only [Nat.mul_zero, Nat.add_zero] at h0
      refine bind_congr_ok h0 fun r hr => ?_
      have hc := hn _ _ hr
      obtain ⟨e, c1⟩ := r
      simp only at hc ⊢
      rw [hc, ih fun i hi => by
        have := hd (i + 1) (by omega)
        rwa [show c + 20 + 20 * i = c + 20 * (i + 1) by omega]]

end

end Sys2Proof.Machine
end

