-- ==== Sys2Proof/Laws/Wire.lean ====
section
/-! SUPPORT. What it means that the buffer holds the wire bytes of a field, of a record or of a row of entries
(30_encoding R81 to R84), in terms of its bytes. -/

namespace Sys2Proof.Machine

variable {s : State} {c : Nat}

/-- A buffer holds a concatenation where it holds both parts in a row. -/
theorem holdsAt_append {a b : List Byte} :
    holdsAt s c (a ++ b) ↔ holdsAt s c a ∧ holdsAt s (c + a.length) b := by
  unfold holdsAt
  constructor
  · rintro ⟨h1, h2⟩
    simp only [List.length_append] at h1 h2
    refine ⟨⟨by omega, fun k hk => ?_⟩, ⟨by omega, fun k hk => ?_⟩⟩
    · rw [h2 k (by omega), List.getElem_append_left hk]
    · have := h2 (a.length + k) (by omega)
      rw [Nat.add_assoc, this, List.getElem_append_right (by omega)]; simp
  · rintro ⟨⟨h1, h2⟩, h3, h4⟩
    refine ⟨by simp; omega, fun k hk => ?_⟩
    simp only [List.length_append] at hk
    by_cases h : k < a.length
    · rw [List.getElem_append_left h, h2 k h]
    · rw [List.getElem_append_right (by omega), ← h4 (k - a.length) (by omega)]
      congr 1; omega

/-- One byte. -/
theorem holdsAt_byte {b : Byte} : holdsAt s c [b] ↔ c + 1 ≤ s.inLen ∧ s.inByte c = b := by
  unfold holdsAt
  constructor
  · rintro ⟨h1, h2⟩; exact ⟨h1, h2 0 (by simp)⟩
  · rintro ⟨h1, rfl⟩; exact ⟨h1, fun k hk => by simp at hk; subst hk; rfl⟩

/-- R84: a 16-bit field. -/
theorem holdsAt_wire16 {v : BitVec 16} : holdsAt s c (wire16 v) ↔ c + 2 ≤ s.inLen ∧ field16 s c = v := by
  unfold holdsAt
  constructor
  · rintro ⟨h1, h2⟩
    refine ⟨h1, ?_⟩
    have h0 := h2 0 (by simp)
    have h3 := h2 1 (by simp)
    simp only [wire16, List.getElem_cons_zero, List.getElem_cons_succ, Nat.add_zero] at h0 h3
    rw [field16, h0, h3, append_extract16]
  · rintro ⟨h1, rfl⟩
    refine ⟨h1, fun k hk => ?_⟩
    simp only [field16, wire16_append]
    simp only [wire16_length] at hk
    rcases k with _ | _ | k
    · rfl
    · rfl
    · omega

/-- R84: a 32-bit field. -/
theorem holdsAt_wire32 {v : BitVec 32} : holdsAt s c (wire32 v) ↔ c + 4 ≤ s.inLen ∧ field32 s c = v := by
  unfold holdsAt
  constructor
  · rintro ⟨h1, h2⟩
    refine ⟨h1, ?_⟩
    have h0 := h2 0 (by simp)
    have h3 := h2 1 (by simp)
    have h4 := h2 2 (by simp)
    have h5 := h2 3 (by simp)
    simp only [wire32, List.getElem_cons_zero, List.getElem_cons_succ, Nat.add_zero] at h0 h3 h4 h5
    rw [field32, h0, h3, h4, h5, append_extract32]
  · rintro ⟨h1, rfl⟩
    refine ⟨h1, fun k hk => ?_⟩
    simp only [field32, wire32_append]
    simp only [wire32_length] at hk
    rcases k with _ | _ | _ | _ | k
    · rfl
    · rfl
    · rfl
    · rfl
    · omega

/-- R90: a reserved region of zeros. -/
theorem holdsAt_zeros {n : Nat} : holdsAt s c (List.replicate n 0) ↔ c + n ≤ s.inLen ∧ zeroOn s c (c + n) := by
  unfold holdsAt zeroOn
  simp only [List.length_replicate, List.getElem_replicate]
  constructor
  · rintro ⟨h1, h2⟩
    refine ⟨h1, fun k h3 h4 => ?_⟩
    have := h2 (k - c) (by omega)
    rwa [show c + (k - c) = k by omega] at this
  · rintro ⟨h1, h2⟩
    exact ⟨h1, fun k h => h2 _ (by omega) (by omega)⟩

/-- The wire octets of an address are those of its register form. -/
theorem ipv4Octets_eq (a : Ipv4) : ipv4Octets a = wire32 (ipv4Word a) := by
  conv_lhs => rw [← ipv4OfWord_word a]
  rfl

/-- The address at a cursor, from its field. -/
theorem octetsAt_of_field {a : Ipv4} (h : field32 s c = ipv4Word a) : octetsAt s c = a := by
  rw [← ipv4OfWord_word a, ← h, ← ipv4Word_octetsAt, ipv4OfWord_word]

/-- R85: the code of a named AFI is one of the listed values. -/
theorem afiNamed_code {a : Afi} {v : BitVec 16} (h : afiCode a = some v) : afiNamed v := by
  have := afiOf_code h
  by_contra hn
  rw [← afiOf_unknown_iff, this] at hn
  subst hn; cases h

/-- R85: a listed value decodes to no sentinel. -/
theorem afiOf_named {v : BitVec 16} (h : afiNamed v) : afiOf v ≠ .unknown := by
  rw [Ne, afiOf_unknown_iff]; exact not_not.mpr h

/-- R85: the wire bytes of a named AFI. -/
theorem holdsAt_afi {a : Afi} (ha : a ≠ .unknown) :
    holdsAt s c (wire16 ((afiCode a).getD 0))
      ↔ c + 2 ≤ s.inLen ∧ afiNamed (field16 s c) ∧ afiOf (field16 s c) = a := by
  obtain ⟨w, hw⟩ : ∃ b, afiCode a = some b := by cases a <;> first | exact ⟨_, rfl⟩ | exact absurd rfl ha
  rw [hw, Option.getD_some, holdsAt_wire16]
  constructor
  · rintro ⟨h1, h2⟩; rw [h2]; exact ⟨h1, afiNamed_code hw, afiOf_code hw⟩
  · rintro ⟨h1, h2, h3⟩
    refine ⟨h1, ?_⟩
    have := afiCode_of (v := field16 s c) (by rw [h3]; exact ha)
    rw [h3, hw] at this; exact (Option.some.inj this).symm

/-- R81: the wire bytes of a header of named enumerants. -/
theorem holdsAt_wireHdr {k : CommandKind} {v : Version} (hk : k ≠ .unknown) (hv : v ≠ .unknown) :
    holdsAt s c (wireHdr k v) ↔ headerOk s c ∧ cmdOf (s.inByte c) = k ∧ verOf (s.inByte (c + 1)) = v := by
  obtain ⟨b, hb⟩ : ∃ b, cmdCode k = some b := by cases k <;> first | exact ⟨_, rfl⟩ | exact absurd rfl hk
  obtain ⟨w, hw⟩ : ∃ b, verCode v = some b := by cases v <;> first | exact ⟨_, rfl⟩ | exact absurd rfl hv
  have hb' := cmdOf_code hb
  have hw' := verOf_code hw
  rw [wireHdr, hb, hw]
  simp only [Option.getD_some]
  constructor
  · rintro ⟨h1, h2⟩
    have h3 := h2 0 (by simp)
    have h4 := h2 1 (by simp)
    have h5 := h2 2 (by simp)
    have h6 := h2 3 (by simp)
    simp only [List.getElem_cons_zero, List.getElem_cons_succ, Nat.add_zero] at h3 h4 h5 h6
    refine ⟨⟨h1, ?_, h5, h6⟩, by rw [h3, hb'], by rw [h4, hw']⟩
    rw [h3]; by_contra hn; rw [← cmdOf_unknown_iff, hb'] at hn; exact hk hn
  · rintro ⟨⟨h1, -, h3, h4⟩, h5, h6⟩
    have x1 : s.inByte c = b := by
      have := cmdCode_of (b := s.inByte c) (by rw [h5]; exact hk)
      rw [h5, hb] at this; exact (Option.some.inj this).symm
    have x2 : s.inByte (c + 1) = w := by
      have := verCode_of (b := s.inByte (c + 1)) (by rw [h6]; exact hv)
      rw [h6, hw] at this; exact (Option.some.inj this).symm
    refine ⟨h1, fun i hi => ?_⟩
    simp only [List.length_cons, List.length_nil] at hi
    rcases i with _ | _ | _ | _ | i
    · exact x1
    · exact x2
    · exact h3
    · exact h4
    · omega

/-- R82: the wire bytes of a v1 entry with a named AFI. -/
theorem holdsAt_wireV1 {x : Slot} (ha : x.afi ≠ .unknown) :
    holdsAt s c (wireV1 x) ↔ entryV1Ok s c ∧ afiOf (field16 s c) = x.afi
      ∧ field32 s (c + 4) = x.addr ∧ field32 s (c + 16) = x.metric := by
  unfold wireV1
  rw [holdsAt_append, holdsAt_append, holdsAt_append, holdsAt_append, holdsAt_afi ha,
    show ([0, 0, 0, 0, 0, 0, 0, 0] : List Byte) = List.replicate 8 0 from rfl,
    show ([0, 0] : List Byte) = List.replicate 2 0 from rfl, holdsAt_zeros, holdsAt_zeros, holdsAt_wire32,
    holdsAt_wire32]
  simp only [wire16_length, wire32_length, List.length_append, List.length_replicate, entryV1Ok, Nat.add_assoc]
  norm_num
  constructor
  · rintro ⟨⟨⟨⟨⟨-, h2, h3⟩, -, h5⟩, -, h7⟩, -, h9⟩, h10, h11⟩
    exact ⟨⟨h10, h2, h5, h9⟩, h3, h7, h11⟩
  · rintro ⟨⟨h10, h2, h5, h9⟩, h3, h7, h11⟩
    exact ⟨⟨⟨⟨⟨by omega, h2, h3⟩, by omega, h5⟩, by omega, h7⟩, by omega, h9⟩, h10, h11⟩

/-- R83: the wire bytes of a v2 entry with a named AFI. -/
theorem holdsAt_wireV2 {x : Slot} (ha : x.afi ≠ .unknown) :
    holdsAt s c (wireV2 x) ↔ entryV2Ok s c ∧ slotV2At s c = x := by
  unfold wireV2
  rw [holdsAt_append, holdsAt_append, holdsAt_append, holdsAt_append, holdsAt_append, holdsAt_afi ha, holdsAt_wire16,
    holdsAt_wire32, holdsAt_wire32, holdsAt_wire32, holdsAt_wire32]
  simp only [wire16_length, wire32_length, List.length_append, entryV2Ok, Nat.add_assoc, slotV2At]
  norm_num
  constructor
  · rintro ⟨⟨⟨⟨⟨⟨-, h2, h3⟩, -, h5⟩, -, h7⟩, -, h9⟩, -, h11⟩, h12, h13⟩
    refine ⟨⟨h12, h2⟩, ?_⟩
    cases x; simp_all
  · rintro ⟨⟨h12, h2⟩, rfl⟩
    exact ⟨⟨⟨⟨⟨⟨by omega, h2, rfl⟩, by omega, rfl⟩, by omega, rfl⟩, by omega, rfl⟩, by omega, rfl⟩, h12, rfl⟩

/-- R68: a row of 20-byte entries. -/
theorem holdsAt_flatMap {l : List Slot} {f : Slot → List Byte} (hf : ∀ x, (f x).length = 20) :
    holdsAt s c (l.flatMap f)
      ↔ (l = [] → c ≤ s.inLen) ∧ ∀ i (h : i < l.length), holdsAt s (c + 20 * i) (f l[i]) := by
  induction l generalizing c with
  | nil => simp [holdsAt]
  | cons a l ih =>
    rw [List.flatMap_cons, holdsAt_append, ih, hf]
    constructor
    · rintro ⟨h1, h2, h3⟩
      refine ⟨by simp, fun i hi => ?_⟩
      cases i with
      | zero => exact h1
      | succ i =>
        have := h3 i (by simpa using hi)
        rwa [show c + 20 + 20 * i = c + 20 * (i + 1) by omega] at this
    · rintro ⟨-, h⟩
      have h0 := h 0 (by simp)
      refine ⟨h0, fun _ => ?_, fun i hi => ?_⟩
      · have := h0.1; simp only [List.getElem_cons_zero, hf] at this; omega
      · have := h (i + 1) (by simpa using hi)
        rwa [show c + 20 * (i + 1) = c + 20 + 20 * i by omega] at this

end Sys2Proof.Machine
end

