-- ==== Sys2Proof/Laws/Packets.lean ====
section
/-! SUPPORT. The slots of PKT, the parse after a good header, the entry loop, and the serialization of a packet, once
each (43_parse_serialize). -/

namespace Sys2Proof.Machine

variable {s : State}

/-! ## Slots -/

/-- Laying slots over a list, by index. -/
theorem overlay_getElem (new old : List Slot) (j : Nat) (hj : j < (overlay new old).length) :
    (overlay new old)[j] = if h : j < new.length then new[j] else old[j]'(by rwa [overlay_length] at hj) := by
  induction new generalizing old j with
  | nil => cases old <;> simp [overlay]
  | cons x xs ih =>
    cases old with
    | nil => simp [overlay] at hj
    | cons y ys =>
      cases j with
      | zero => simp [overlay]
      | succ j =>
        simp only [overlay, List.getElem_cons_succ, List.length_cons, Nat.add_lt_add_iff_right]
        rw [ih]

/-- R223: a committed slot, and one above the count. -/
theorem writeSlots_get (new : List Slot) (old : Vector Slot 25) (j : Fin 25) :
    (writeSlots new old)[j] = if h : j.val < new.length then new[j.val] else old[j] := by
  have := overlay_getElem new old.toList j.val (by rw [overlay_length]; simp)
  simpa [writeSlots, Fin.getElem_fin] using this

/-- R48: the slots in use. -/
theorem mem_pktSlots {x : Slot} : x ∈ pktSlots s ↔ ∃ i : Fin 25, i.val < s.pktN.toNat ∧ s.pktEnt[i] = x := by
  unfold pktSlots
  rw [List.mem_take_iff_getElem]
  constructor
  · rintro ⟨i, hi, rfl⟩
    simp at hi
    exact ⟨⟨i, hi.2⟩, hi.1, by simp⟩
  · rintro ⟨i, hi, rfl⟩
    exact ⟨i.val, by simp; exact hi, by simp⟩

/-- R48: there are never more than 25 slots in use. -/
theorem pktSlots_length : (pktSlots s).length = min s.pktN.toNat 25 := by simp [pktSlots]

/-- R48: a slot in use, by index. -/
theorem pktSlots_getElem {i : Nat} (h : i < (pktSlots s).length) :
    ∃ h' : i < 25, i < s.pktN.toNat ∧ (pktSlots s)[i] = s.pktEnt[i] := by
  have hi : i < 25 ∧ i < s.pktN.toNat := by simp [pktSlots] at h; omega
  exact ⟨hi.1, hi.2, by simp [pktSlots]⟩

/-- R68: the bytes of a row of entries, 20 each. -/
theorem length_flatMap_20 {α : Type} (l : List α) {f : α → List Byte} (h : ∀ x, (f x).length = 20) :
    (l.flatMap f).length = 20 * l.length := by
  induction l with
  | nil => rfl
  | cons a l ih => rw [List.flatMap_cons, List.length_append, ih, h, List.length_cons]; omega

/-- R174: the wire bytes of the v1 entry that a slot holds. -/
theorem wireV1_slot (x : Slot) : wireV1 (slotOfV1 (slotV1 x)) = wireV1 x := by simp [slotOfV1, slotV1, wireV1]

/-- R176: a slot is the v2 entry that it holds. -/
theorem slotOfV2_slotV2 (x : Slot) : slotOfV2 (slotV2 x) = x := by simp [slotOfV2, slotV2]

/-! ## Parse -/

/-- R220: the dispatch after a good header. -/
theorem parse_eq (h : headerOk s 0) : parse s =
    match verOf (s.inByte 1) with
    | .version1 => do return .v1 (← parseBodyV1 s ⟨cmdOf (s.inByte 0), verOf (s.inByte 1)⟩ 4)
    | .version2 => do return .v2 (← parseBodyV2 s ⟨cmdOf (s.inByte 0), verOf (s.inByte 1)⟩ 4)
    | .mustBeDiscarded => .error (.mustBeDiscardedVersion 2)
    | .unknown => .error (.unknownVersion 2) := by
  unfold parse
  rw [decHdr_ok h]
  rfl

/-- R224: the v1 parse after a good header. -/
theorem parseV1_eq (h : headerOk s 0) : parseV1 s =
    if verOf (s.inByte 1) ≠ .version1 then .error (.invalidPacket .versionInHeaderConflicted)
    else parseBodyV1 s ⟨cmdOf (s.inByte 0), verOf (s.inByte 1)⟩ 4 := by
  unfold parseV1
  rw [decHdr_ok h]
  rfl

/-- R225: the v2 parse after a good header. -/
theorem parseV2_eq (h : headerOk s 0) : parseV2 s =
    if verOf (s.inByte 1) ≠ .version2 then .error (.invalidPacket .versionInHeaderConflicted)
    else parseBodyV2 s ⟨cmdOf (s.inByte 0), verOf (s.inByte 1)⟩ 4 := by
  unfold parseV2
  rw [decHdr_ok h]
  rfl

/-- R222: entries that fill the buffer. -/
theorem entryLoop_ok {ε : Type} {dec : Nat → Except Err (ε × Nat)} {f : Nat → ε} {n : Nat}
    (hn : 1 ≤ n) (hm : n ≤ 25) (hl : s.inLen = 4 + 20 * n)
    (hd : ∀ i, i < n → dec (4 + 20 * i) = .ok (f (4 + 20 * i), 4 + 20 * i + 20)) :
    entryLoop s dec 4 = .ok ((List.range n).map fun i => f (4 + 20 * i), s.inLen) := by
  unfold entryLoop
  rw [if_neg (by omega)]
  exact entriesFrom_ok hd hl hm

/-- R222: a loop fails at the first entry that does not decode, or at the 26th. -/
theorem entriesFrom_fail {ε : Type} {dec : Nat → Except Err (ε × Nat)} {k room c : Nat} {e : Err}
    (hd : ∀ i, i < k → ∃ x, dec (c + 20 * i) = .ok (x, c + 20 * i + 20)) (hk : k ≤ room) (hl : c + 20 * k < s.inLen)
    (he : (k < room ∧ dec (c + 20 * k) = .error e) ∨ (k = room ∧ e = .maxRipEntries (c + 20 * room))) :
    entriesFrom s dec room c = .error e := by
  induction k generalizing c room with
  | zero =>
    unfold entriesFrom
    rw [if_neg (by omega)]
    rcases he with ⟨h1, h2⟩ | ⟨rfl, rfl⟩
    · obtain ⟨r, rfl⟩ : ∃ r, room = r + 1 := ⟨room - 1, by omega⟩
      simp only [Nat.mul_zero, Nat.add_zero] at h2
      simp only [h2, error_bind]
    · rfl
  | succ k ih =>
    obtain ⟨r, rfl⟩ : ∃ r, room = r + 1 := ⟨room - 1, by omega⟩
    obtain ⟨x, hx⟩ := hd 0 (by omega)
    simp only [Nat.mul_zero, Nat.add_zero] at hx
    unfold entriesFrom
    rw [if_neg (by omega)]
    simp only [hx, ok_bind]
    rw [ih (c := c + 20)]
    · rfl
    · intro i hi
      have := hd (i + 1) (by omega)
      rwa [show c + 20 * (i + 1) = c + 20 + 20 * i by omega] at this
    · omega
    · omega
    · rw [show c + 20 + 20 * k = c + 20 * (k + 1) by omega, show c + 20 + 20 * r = c + 20 * (r + 1) by omega]
      rcases he with ⟨h1, h2⟩ | ⟨h1, h2⟩
      · exact .inl ⟨by omega, h2⟩
      · exact .inr ⟨by omega, h2⟩

/-- R222: the same for the loop of a packet. -/
theorem entryLoop_fail {ε : Type} {dec : Nat → Except Err (ε × Nat)} {k : Nat} {e : Err}
    (hd : ∀ i, i < k → ∃ x, dec (4 + 20 * i) = .ok (x, 4 + 20 * i + 20)) (hk : k ≤ 25) (hl : 4 + 20 * k < s.inLen)
    (he : (k < 25 ∧ dec (4 + 20 * k) = .error e) ∨ (k = 25 ∧ e = .maxRipEntries 504)) :
    entryLoop s dec 4 = .error e := by
  unfold entryLoop
  rw [if_neg (by omega)]
  exact entriesFrom_fail hd hk hl he

/-- R220, R224, R264: an error of the v1 loop is the error of the parse. -/
theorem parse_raises_v1 {e : Err} (hh : headerOk s 0) (hv : s.inByte 1 = 1)
    (hb : entryLoop s (decEnt1 s) 4 = .error e) :
    ∀ i ∈ [Instr.parse, .parseV1], exec i s = .next (raiseErr .packet e s) := by
  have hb' : ∀ h, parseBodyV1 s h 4 = .error e := fun h => by unfold parseBodyV1; rw [hb]; rfl
  intro i hi
  simp only [List.mem_cons, List.not_mem_nil, or_false] at hi
  rcases hi with rfl | rfl
  · simp only [exec, execParse]; rw [parse_eq hh, hb', hv]; rfl
  · simp only [exec, execParseV1]; rw [parseV1_eq hh, hb', hv]; rfl

/-- R220, R225, R264: an error of the v2 loop is the error of the parse. -/
theorem parse_raises_v2 {e : Err} (hh : headerOk s 0) (hv : s.inByte 1 = 2)
    (hb : entryLoop s (decEnt2 s) 4 = .error e) :
    ∀ i ∈ [Instr.parse, .parseV2], exec i s = .next (raiseErr .packet e s) := by
  have hb' : ∀ h, parseBodyV2 s h 4 = .error e := fun h => by unfold parseBodyV2; rw [hb]; rfl
  intro i hi
  simp only [List.mem_cons, List.not_mem_nil, or_false] at hi
  rcases hi with rfl | rfl
  · simp only [exec, execParse]; rw [parse_eq hh, hb', hv]; rfl
  · simp only [exec, execParseV2]; rw [parseV2_eq hh, hb', hv]; rfl

/-- A buffer of a v1 header and 1 to 25 v1 entries. -/
def isV1Buf (s : State) : Prop :=
  s.inByte 1 = 1 ∧ ∃ n, 1 ≤ n ∧ n ≤ 25 ∧ s.inLen = 4 + 20 * n ∧ ∀ i, i < n → entryV1Ok s (4 + 20 * i)

/-- A buffer of a v2 header and 1 to 25 v2 entries. -/
def isV2Buf (s : State) : Prop :=
  s.inByte 1 = 2 ∧ ∃ n, 1 ≤ n ∧ n ≤ 25 ∧ s.inLen = 4 + 20 * n ∧ ∀ i, i < n → entryV2Ok s (4 + 20 * i)

/-- R222: what a v1 arm that succeeds has read. -/
theorem parseBodyV1_inv {h : Header} {p : Packet EntryV1} (hp : parseBodyV1 s h 4 = .ok p) :
    ∃ n, 1 ≤ n ∧ n ≤ 25 ∧ s.inLen = 4 + 20 * n ∧ ∀ i, i < n → entryV1Ok s (4 + 20 * i) := by
  unfold parseBodyV1 at hp
  obtain ⟨r, hr, -⟩ := bind_ok hp
  unfold entryLoop at hr
  split at hr
  · cases hr
  · obtain ⟨n, h1, h2, h3, -⟩ :=
      entriesFrom_inv (P := entryV1Ok s) (fun c r hr => decEnt1_inv hr) (by omega) (fun c hc => hc.1) hr
    exact ⟨n, by omega, h1, h2, h3⟩

/-- R222: what a v2 arm that succeeds has read. -/
theorem parseBodyV2_inv {h : Header} {p : Packet EntryV2} (hp : parseBodyV2 s h 4 = .ok p) :
    ∃ n, 1 ≤ n ∧ n ≤ 25 ∧ s.inLen = 4 + 20 * n ∧ ∀ i, i < n → entryV2Ok s (4 + 20 * i) := by
  unfold parseBodyV2 at hp
  obtain ⟨r, hr, -⟩ := bind_ok hp
  unfold entryLoop at hr
  split at hr
  · cases hr
  · obtain ⟨n, h1, h2, h3, -⟩ :=
      entriesFrom_inv (P := entryV2Ok s) (fun c r hr => decEnt2_inv hr) (by omega) (fun c hc => hc.1) hr
    exact ⟨n, by omega, h1, h2, h3⟩

/-- R220, R224, R225: what a parse that raises nothing says of the buffer. -/
theorem parse_inv {t : State} {i : Instr} (hi : i ∈ [Instr.parse, .parseV1, .parseV2]) (he : exec i s = .next t)
    (hf : t.fail = false) : headerOk s 0 ∧ ((isV1Buf s ∧ i ≠ .parseV2) ∨ (isV2Buf s ∧ i ≠ .parseV1)) := by
  simp only [List.mem_cons, List.not_mem_nil, or_false] at hi
  cases hx : decHdr s 0 with
  | error e =>
    rcases hi with rfl | rfl | rfl
    · simp only [exec, execParse, parse, hx] at he; cases he; cases hf
    · simp only [exec, execParseV1, parseV1, hx] at he; cases he; cases hf
    · simp only [exec, execParseV2, parseV2, hx] at he; cases he; cases hf
  | ok r =>
    have hh := (decHdr_inv hx).1
    refine ⟨hh, ?_⟩
    rcases hi with rfl | rfl | rfl
    · simp only [exec, execParse] at he
      rcases finish_cases he with ⟨u, hu, -⟩ | ⟨e, -, rfl⟩
      · obtain ⟨env, hp, -⟩ := bind_ok hu
        rw [parse_eq hh] at hp
        split at hp
        · rename_i hv
          obtain ⟨p, hp, -⟩ := bind_ok hp
          exact .inl ⟨⟨(verOf_version1_iff _).mp hv, parseBodyV1_inv hp⟩, by simp⟩
        · rename_i hv
          obtain ⟨p, hp, -⟩ := bind_ok hp
          exact .inr ⟨⟨(verOf_version2_iff _).mp hv, parseBodyV2_inv hp⟩, by simp⟩
        · cases hp
        · cases hp
      · cases hf
    · simp only [exec, execParseV1] at he
      rcases finish_cases he with ⟨u, hu, -⟩ | ⟨e, -, rfl⟩
      · obtain ⟨p, hp, -⟩ := bind_ok hu
        rw [parseV1_eq hh] at hp
        split at hp
        · cases hp
        · rename_i hv
          exact .inl ⟨⟨(verOf_version1_iff _).mp (not_not.mp hv), parseBodyV1_inv hp⟩, by simp⟩
      · cases hf
    · simp only [exec, execParseV2] at he
      rcases finish_cases he with ⟨u, hu, -⟩ | ⟨e, -, rfl⟩
      · obtain ⟨p, hp, -⟩ := bind_ok hu
        rw [parseV2_eq hh] at hp
        split at hp
        · cases hp
        · rename_i hv
          exact .inr ⟨⟨(verOf_version2_iff _).mp (not_not.mp hv), parseBodyV2_inv hp⟩, by simp⟩
      · cases hf

/-! ## Serialize -/

/-- R226: a v1 packet of named enumerants serializes. -/
theorem serializeV1_ok (hc : s.pktCmd ≠ .unknown) (hv : s.pktVer ≠ .unknown)
    (ha : ∀ i : Fin 25, i.val < s.pktN.toNat → s.pktEnt[i].afi ≠ .unknown) :
    serializeV1 s = .ok (wireHdr s.pktCmd s.pktVer ++ (pktSlots s).flatMap wireV1) := by
  unfold serializeV1 serializePacket
  simp only [pktV1, encHdr_eq, pktHeader]
  rw [if_neg hc, if_neg hv]
  simp only [ok_bind]
  rw [encEntries_ok (g := fun e => wireV1 (slotOfV1 e))]
  · simp only [ok_bind, pure_ok, List.flatMap_map, wireV1_slot]
  · intro e he
    obtain ⟨x, hx, rfl⟩ := List.mem_map.mp he
    obtain ⟨i, hi, rfl⟩ := mem_pktSlots.mp hx
    rw [encEnt1_eq, if_neg (by exact ha i hi)]

/-- R226: a v2 packet of named enumerants serializes. -/
theorem serializeV2_ok (hc : s.pktCmd ≠ .unknown) (hv : s.pktVer ≠ .unknown)
    (ha : ∀ i : Fin 25, i.val < s.pktN.toNat → s.pktEnt[i].afi ≠ .unknown) :
    serializeV2 s = .ok (wireHdr s.pktCmd s.pktVer ++ (pktSlots s).flatMap wireV2) := by
  unfold serializeV2 serializePacket
  simp only [pktV2, encHdr_eq, pktHeader]
  rw [if_neg hc, if_neg hv]
  simp only [ok_bind]
  rw [encEntries_ok (g := fun e => wireV2 (slotOfV2 e))]
  · simp only [ok_bind, pure_ok, List.flatMap_map, slotOfV2_slotV2]
  · intro e he
    obtain ⟨x, hx, rfl⟩ := List.mem_map.mp he
    obtain ⟨i, hi, rfl⟩ := mem_pktSlots.mp hx
    rw [encEnt2_eq, if_neg (by exact ha i hi)]

/-- R226, R264: an Unknown AFI in a slot in use does not serialize in a v1 packet. -/
theorem serializeV1_afi (hc : s.pktCmd ≠ .unknown) (hv : s.pktVer ≠ .unknown)
    (ha : ∃ j : Fin 25, j.val < s.pktN.toNat ∧ s.pktEnt[j].afi = .unknown) :
    serializeV1 s = .error .serUnknownAfi := by
  unfold serializeV1 serializePacket
  simp only [pktV1, encHdr_eq, pktHeader]
  rw [if_neg hc, if_neg hv]
  simp only [ok_bind]
  rw [encEntries_error (e0 := .serUnknownAfi)]
  · rfl
  · intro e he
    rw [encEnt1_eq]; split
    · exact .inr rfl
    · exact .inl ⟨_, rfl⟩
  · obtain ⟨j, hj, h⟩ := ha
    refine ⟨slotV1 s.pktEnt[j], List.mem_map.mpr ⟨_, mem_pktSlots.mpr ⟨j, hj, rfl⟩, rfl⟩, ?_⟩
    rw [encEnt1_eq]; exact if_pos h

/-- R226, R264: an Unknown AFI in a slot in use does not serialize in a v2 packet. -/
theorem serializeV2_afi (hc : s.pktCmd ≠ .unknown) (hv : s.pktVer ≠ .unknown)
    (ha : ∃ j : Fin 25, j.val < s.pktN.toNat ∧ s.pktEnt[j].afi = .unknown) :
    serializeV2 s = .error .serUnknownAfi := by
  unfold serializeV2 serializePacket
  simp only [pktV2, encHdr_eq, pktHeader]
  rw [if_neg hc, if_neg hv]
  simp only [ok_bind]
  rw [encEntries_error (e0 := .serUnknownAfi)]
  · rfl
  · intro e he
    rw [encEnt2_eq]; split
    · exact .inr rfl
    · exact .inl ⟨_, rfl⟩
  · obtain ⟨j, hj, h⟩ := ha
    refine ⟨slotV2 s.pktEnt[j], List.mem_map.mpr ⟨_, mem_pktSlots.mpr ⟨j, hj, rfl⟩, rfl⟩, ?_⟩
    rw [encEnt2_eq]; exact if_pos h

/-- R226: an Unknown version does not serialize, and neither does an Unknown command, which is reported first. -/
theorem serialize_header (h : s.pktCmd = .unknown ∨ s.pktVer = .unknown) :
    let e := if s.pktCmd = .unknown then Err.serUnknownCommandKind else Err.serUnknownVersion
    serializeV1 s = .error e ∧ serializeV2 s = .error e := by
  have hh : encHdr (pktHeader s)
      = .error (if s.pktCmd = .unknown then Err.serUnknownCommandKind else Err.serUnknownVersion) := by
    rw [encHdr_eq]
    by_cases hc : s.pktCmd = .unknown
    · rw [if_pos hc]; exact if_pos hc
    · rw [if_neg hc]; exact (if_neg hc).trans (if_pos (h.resolve_left hc))
  exact ⟨by unfold serializeV1 serializePacket; simp only [pktV1]; rw [hh]; rfl,
    by unfold serializeV2 serializePacket; simp only [pktV2]; rw [hh]; rfl⟩

/-- R229: the bytes of the packet that PKT denotes in a kind. -/
def serializeKind (s : State) (k : PktKind) : Except Err (List Byte) :=
  match k with
  | .v1 => serializeV1 s
  | .v2 => serializeV2 s

/-- R227 to R229: a serializer that accepts the packet commits the bytes of its kind. -/
theorem exec_serialize {i : Instr} (hval : s.pktValid = true)
    (hi : i = .serialize ∨ (i = .serV1 ∧ s.pktKind = .v1) ∨ (i = .serV2 ∧ s.pktKind = .v2)) :
    exec i s = finishOut s (serializeKind s s.pktKind) := by
  rcases hi with rfl | ⟨rfl, h⟩ | ⟨rfl, h⟩
  · simp only [exec, execSerialize]; rw [hval]; cases s.pktKind <;> rfl
  · simp only [exec, execSerV1]; rw [hval, h]; rfl
  · simp only [exec, execSerV2]; rw [hval, h]; rfl

/-- R226: what a serialization that raises nothing says of the packet. -/
theorem serialize_named {t : State} (hval : s.pktValid = true) (he : exec .serialize s = .next t)
    (hf : t.fail = false) :
    s.pktCmd ≠ .unknown ∧ s.pktVer ≠ .unknown
      ∧ ∀ i : Fin 25, i.val < s.pktN.toNat → s.pktEnt[i].afi ≠ .unknown := by
  rw [exec_serialize hval (.inl rfl)] at he
  by_cases h : s.pktCmd = .unknown ∨ s.pktVer = .unknown
  · obtain ⟨h1, h2⟩ := serialize_header h
    cases hk : s.pktKind <;> simp only [hk, serializeKind, h1, h2] at he <;> (cases he; cases hf)
  · obtain ⟨hc, hv⟩ := not_or.mp h
    refine ⟨hc, hv, fun i hi hu => ?_⟩
    have h1 := serializeV1_afi hc hv ⟨i, hi, hu⟩
    have h2 := serializeV2_afi hc hv ⟨i, hi, hu⟩
    cases hk : s.pktKind <;> simp only [hk, serializeKind, h1, h2] at he <;> (cases he; cases hf)

end Sys2Proof.Machine
end

