-- ==== Sys2Proof/Laws/PerInstr.lean ====
section
/-! SUPPORT. Statements made once per operation. Family OpCode (30_encoding R100): an operation's OP word is its group
and function, and it decodes to the operation. -/

namespace Sys2Proof.Laws.OpCode

/-- R100: the operation is well formed, and the OP word of its group and function decodes to it. -/
def Statement (i : Instr) : Prop := i.wf = true ∧ decodeOp (opGroup i ++ opFunction i) = some i

theorem readByte : Statement .readByte := ⟨rfl, rfl⟩
theorem skipZero : Statement .skipZero := ⟨rfl, rfl⟩
theorem decAfi : Statement .decAfi := ⟨rfl, rfl⟩
theorem encAfi : Statement .encAfi := ⟨rfl, rfl⟩
theorem decCmd : Statement .decCmd := ⟨rfl, rfl⟩
theorem encCmd : Statement .encCmd := ⟨rfl, rfl⟩
theorem decVer : Statement .decVer := ⟨rfl, rfl⟩
theorem encVer : Statement .encVer := ⟨rfl, rfl⟩
theorem decTag : Statement .decTag := ⟨rfl, rfl⟩
theorem encTag : Statement .encTag := ⟨rfl, rfl⟩
theorem decMetric : Statement .decMetric := ⟨rfl, rfl⟩
theorem encMetric : Statement .encMetric := ⟨rfl, rfl⟩
theorem decIpv4 : Statement .decIpv4 := ⟨rfl, rfl⟩
theorem encIpv4 : Statement .encIpv4 := ⟨rfl, rfl⟩
theorem decHdr : Statement .decHdr := ⟨rfl, rfl⟩
theorem encHdr : Statement .encHdr := ⟨rfl, rfl⟩
theorem decEnt1 : Statement .decEnt1 := ⟨rfl, rfl⟩
theorem encEnt1 : Statement .encEnt1 := ⟨rfl, rfl⟩
theorem decEnt2 : Statement .decEnt2 := ⟨rfl, rfl⟩
theorem encEnt2 : Statement .encEnt2 := ⟨rfl, rfl⟩
theorem makeV1 : Statement .makeV1 := ⟨rfl, rfl⟩
theorem makeV2 : Statement .makeV2 := ⟨rfl, rfl⟩
theorem parse : Statement .parse := ⟨rfl, rfl⟩
theorem parseV1 : Statement .parseV1 := ⟨rfl, rfl⟩
theorem parseV2 : Statement .parseV2 := ⟨rfl, rfl⟩
theorem serV1 : Statement .serV1 := ⟨rfl, rfl⟩
theorem serV2 : Statement .serV2 := ⟨rfl, rfl⟩
theorem serialize : Statement .serialize := ⟨rfl, rfl⟩

end Sys2Proof.Laws.OpCode
end

