-- ==== Sys2Proof/Laws/Steps.lean ====
section
/-! SUPPORT. Everything an operation can do, said once: `Ends s i t` lists the forms that the next state of operation
`i` in state `s` can have, and `exec_ends` says that it has one of them. Invariants and frames go through this lemma,
not through the meanings. -/

namespace Sys2Proof.Machine

/-- The operations that decode into FV. -/
def decodesFv (i : Instr) : Bool :=
  match i with
  | .readByte | .decAfi | .decCmd | .decVer | .decTag | .decMetric | .decIpv4 => true
  | .skipZero | .encAfi | .encCmd | .encVer | .encTag | .encMetric | .encIpv4 => false
  | .decHdr | .encHdr | .decEnt1 | .encEnt1 | .decEnt2 | .encEnt2 => false
  | .makeV1 | .makeV2 | .parse | .parseV1 | .parseV2 | .serV1 | .serV2 | .serialize => false

/-- The forms of the next state of an operation. -/
inductive Ends (s : State) (i : Instr) : State → Prop where
  /-- R262: an error of the operation's codes (R260), with an offset inside the buffer or at the cursor. -/
  | raised (e : Err) (hc : PktOk s → errCodeOf e ∈ raises i) (ho : errOffsetOf e ≤ max s.cur s.inLen) :
      Ends s i (raiseErr (resultClass i) e s)
  /-- R124: a decoded field. -/
  | fv (v : Word) (u : Bool) (c : Nat) (hi : decodesFv i = true) (h1 : s.cur ≤ c) (h2 : c ≤ s.inLen) :
      Ends s i (complete { s with fvVal := v, fvUnk := u, cur := c })
  /-- R122: skipped zeros. -/
  | skipped (c : Nat) (hi : i = .skipZero) (h1 : s.cur ≤ c) (h2 : c ≤ max s.cur s.inLen) :
      Ends s i (complete { s with cur := c })
  /-- R171: a decoded header. -/
  | hr (h : Header) (c : Nat) (hi : i = .decHdr) (h1 : s.cur ≤ c) (h2 : c ≤ s.inLen) :
      Ends s i (complete (writeHr s h c))
  /-- R173, R175: a decoded entry. -/
  | er (x : Slot) (c : Nat) (hi : i = .decEnt1 ∨ i = .decEnt2) (h1 : s.cur ≤ c) (h2 : c ≤ s.inLen) :
      Ends s i (complete (writeEr s x c))
  /-- R67: committed bytes. -/
  | out (bs : List Byte) (hi : writesOut i = true) (hl : bs.length ≤ 504) : Ends s i (complete (commitOut bs s))
  /-- R201, R202: a constructed packet. -/
  | made (k : PktKind) (hi : i = .makeV1 ∨ i = .makeV2) (hv : s.pktVer = kindVersion k) (hn : s.pktN.toNat ≤ 25) :
      Ends s i (complete { s with pktValid := true, pktKind := k })
  /-- R223: a parsed packet. -/
  | parsed (k : PktKind) (cmd : CommandKind) (xs : List Slot) (hi : i = .parse ∨ i = .parseV1 ∨ i = .parseV2)
      (hn : xs.length ≤ 25) : Ends s i (complete (commitPacket k ⟨cmd, kindVersion k⟩ xs s))

/-! ## What the parse gives and raises -/

/-- R222: the entries of a loop that succeeds. -/
theorem entryLoop_length {ε : Type} {s : State} {dec : Nat → Except Err (ε × Nat)}
    {r : List ε × Nat} (h : entryLoop s dec 4 = .ok r) : r.1.length ≤ 25 := by
  unfold entryLoop at h
  split at h
  · cases h
  · have key : ∀ room c (r : List ε × Nat), entriesFrom s dec room c = .ok r → r.1.length ≤ room := by
      intro room
      induction room with
      | zero =>
        intro c r h
        unfold entriesFrom at h
        split at h
        · cases h; simp
        · cases h
      | succ room ih =>
        intro c r h
        unfold entriesFrom at h
        split at h
        · cases h; simp
        · obtain ⟨⟨e, c1⟩, -, h⟩ := bind_ok h
          obtain ⟨⟨es, c2⟩, h2, h⟩ := bind_ok h
          cases h
          have := ih _ _ h2
          simpa using this
    exact key _ _ _ h

/-- R222: the codes and offsets of the loop over v1 entries. -/
theorem entryLoop_v1_error {s : State} {e : Err} (hl : 4 ≤ s.inLen) (h : entryLoop s (decEnt1 s) 4 = .error e) :
    errCodeOf e ∈ [0x01#8, 0x05#8, 0x06#8, 0x07#8, 0x08#8] ∧ errOffsetOf e ≤ s.inLen := by
  unfold entryLoop at h
  split at h
  · cases h; exact ⟨by simp [errCodeOf], hl⟩
  · obtain ⟨k, hk, hlt, -, h⟩ := entriesFrom_error (P := fun _ => True)
      (fun c r hr => ⟨trivial, by rw [(decEnt1_inv hr).2]⟩) h
    rcases h with ⟨rfl, rfl⟩ | ⟨hk, h⟩
    · exact ⟨by simp [errCodeOf], by simp only [errOffsetOf]; omega⟩
    · rcases decEnt1_error h with ⟨h1, rfl⟩ | ⟨h1, -, rfl⟩ | ⟨j, -, -, h3, -, rfl⟩
      · exact ⟨by simp [errCodeOf], by simp only [errOffsetOf]; omega⟩
      · exact ⟨by simp [errCodeOf], by simp only [errOffsetOf, afiErrOffset]; split <;> omega⟩
      · exact ⟨by simp [errCodeOf], by simp only [errOffsetOf]; omega⟩

/-- R222: the codes and offsets of the loop over v2 entries. -/
theorem entryLoop_v2_error {s : State} {e : Err} (hl : 4 ≤ s.inLen) (h : entryLoop s (decEnt2 s) 4 = .error e) :
    errCodeOf e ∈ [0x01#8, 0x06#8, 0x07#8, 0x08#8] ∧ errOffsetOf e ≤ s.inLen := by
  unfold entryLoop at h
  split at h
  · cases h; exact ⟨by simp [errCodeOf], hl⟩
  · obtain ⟨k, hk, hlt, -, h⟩ := entriesFrom_error (P := fun _ => True)
      (fun c r hr => ⟨trivial, by rw [(decEnt2_inv hr).2]⟩) h
    rcases h with ⟨rfl, rfl⟩ | ⟨hk, h⟩
    · exact ⟨by simp [errCodeOf], by simp only [errOffsetOf]; omega⟩
    · rcases decEnt2_error h with ⟨h1, rfl⟩ | ⟨h1, -, rfl⟩
      · exact ⟨by simp [errCodeOf], by simp only [errOffsetOf]; omega⟩
      · exact ⟨by simp [errCodeOf], by simp only [errOffsetOf, afiErrOffset]; split <;> omega⟩

/-- R220: what the v1 arm gives: at most 25 entries under the header, or an error of the loop. -/
theorem parseBodyV1_cases {s : State} {h : Header} (hl : 4 ≤ s.inLen) (hv : h.version = .version1) :
    (∃ es, es.length ≤ 25 ∧ parseBodyV1 s h 4 = .ok ⟨h, es⟩)
      ∨ ∃ e, parseBodyV1 s h 4 = .error e ∧ errCodeOf e ∈ [0x01#8, 0x05#8, 0x06#8, 0x07#8, 0x08#8]
          ∧ errOffsetOf e ≤ s.inLen := by
  unfold parseBodyV1
  cases hx : entryLoop s (decEnt1 s) 4 with
  | ok r =>
    have hn := entryLoop_length hx
    exact .inl ⟨r.1, hn, by simp only [ok_bind]; rw [wrapMake_ok hv hn]⟩
  | error e => exact .inr ⟨e, rfl, entryLoop_v1_error hl hx⟩

/-- R220: what the v2 arm gives. -/
theorem parseBodyV2_cases {s : State} {h : Header} (hl : 4 ≤ s.inLen) (hv : h.version = .version2) :
    (∃ es, es.length ≤ 25 ∧ parseBodyV2 s h 4 = .ok ⟨h, es⟩)
      ∨ ∃ e, parseBodyV2 s h 4 = .error e ∧ errCodeOf e ∈ [0x01#8, 0x06#8, 0x07#8, 0x08#8]
          ∧ errOffsetOf e ≤ s.inLen := by
  unfold parseBodyV2
  cases hx : entryLoop s (decEnt2 s) 4 with
  | ok r =>
    have hn := entryLoop_length hx
    exact .inl ⟨r.1, hn, by simp only [ok_bind]; rw [wrapMake_ok hv hn]⟩
  | error e => exact .inr ⟨e, rfl, entryLoop_v2_error hl hx⟩

/-- R171: the codes and offsets of decHdr. -/
theorem decHdr_error_code {s : State} {c : Nat} {e : Err} (h : decHdr s c = .error e) :
    errCodeOf e ∈ [0x01#8, 0x02#8, 0x05#8] ∧ errOffsetOf e ≤ max c s.inLen := by
  rcases decHdr_error h with ⟨h1, rfl⟩ | ⟨h1, -, rfl⟩ | ⟨h1, -, rfl⟩ | ⟨h1, -, rfl⟩
  · exact ⟨by simp [errCodeOf], by simp only [errOffsetOf]; omega⟩
  all_goals exact ⟨by simp [errCodeOf], by simp only [errOffsetOf]; omega⟩

/-! ## The lemma -/

/-- Membership in a shorter list of codes. -/
theorem code_mono {l m : List (BitVec 8)} (h : ∀ x ∈ l, x ∈ m) {e : Err} (he : errCodeOf e ∈ l) : errCodeOf e ∈ m :=
  h _ he

/-- PARSE. -/
theorem ends_parse {s t : State} (h : exec .parse s = .next t) : Ends s .parse t := by
  simp only [exec, execParse] at h
  cases hd : decHdr s 0 with
  | error e =>
    simp only [parse, hd, error_bind, finish_error] at h
    cases h
    obtain ⟨h1, h2⟩ := decHdr_error_code hd
    exact .raised e (fun _ => code_mono (by decide) h1) (by omega)
  | ok r =>
    have hh := (decHdr_inv hd).1
    have hl : 4 ≤ s.inLen := hh.1
    rw [parse_eq hh] at h
    cases hv : verOf (s.inByte 1) with
    | version1 =>
      simp only [hv] at h
      rcases parseBodyV1_cases (h := ⟨cmdOf (s.inByte 0), .version1⟩) hl rfl with ⟨es, hn, hp⟩ | ⟨e, hp, h1, h2⟩
      · simp only [hp, ok_bind, pure_ok, finish_ok] at h
        cases h
        exact .parsed .v1 _ (es.map slotOfV1) (.inl rfl) (by simpa using hn)
      · simp only [hp, error_bind, finish_error] at h
        cases h
        exact .raised e (fun _ => code_mono (by decide) h1) (by omega)
    | version2 =>
      simp only [hv] at h
      rcases parseBodyV2_cases (h := ⟨cmdOf (s.inByte 0), .version2⟩) hl rfl with ⟨es, hn, hp⟩ | ⟨e, hp, h1, h2⟩
      · simp only [hp, ok_bind, pure_ok, finish_ok] at h
        cases h
        exact .parsed .v2 _ (es.map slotOfV2) (.inl rfl) (by simpa using hn)
      · simp only [hp, error_bind, finish_error] at h
        cases h
        exact .raised e (fun _ => code_mono (by decide) h1) (by omega)
    | mustBeDiscarded =>
      simp only [hv, error_bind, finish_error] at h
      cases h
      exact .raised _ (fun _ => by simp [errCodeOf, raises]) (by simp only [errOffsetOf]; omega)
    | unknown =>
      simp only [hv, error_bind, finish_error] at h
      cases h
      exact .raised _ (fun _ => by simp [errCodeOf, raises]) (by simp only [errOffsetOf]; omega)

/-- PARSE_V1. -/
theorem ends_parseV1 {s t : State} (h : exec .parseV1 s = .next t) : Ends s .parseV1 t := by
  simp only [exec, execParseV1] at h
  cases hd : decHdr s 0 with
  | error e =>
    simp only [parseV1, hd, error_bind, finish_error] at h
    cases h
    obtain ⟨h1, h2⟩ := decHdr_error_code hd
    exact .raised e (fun _ => code_mono (by decide) h1) (by omega)
  | ok r =>
    have hh := (decHdr_inv hd).1
    rw [parseV1_eq hh] at h
    by_cases hv : verOf (s.inByte 1) = .version1
    · rw [if_neg (not_not.mpr hv), hv] at h
      rcases parseBodyV1_cases (h := ⟨cmdOf (s.inByte 0), .version1⟩) hh.1 rfl with ⟨es, hn, hp⟩ | ⟨e, hp, h1, h2⟩
      · simp only [hp, ok_bind, pure_ok, finish_ok] at h
        cases h
        exact .parsed .v1 _ (es.map slotOfV1) (.inr (.inl rfl)) (by simpa using hn)
      · simp only [hp, error_bind, finish_error] at h
        cases h
        exact .raised e (fun _ => code_mono (by decide) h1) (by omega)
    · rw [if_pos hv] at h
      simp only [error_bind, finish_error] at h
      cases h
      exact .raised _ (fun _ => by simp [errCodeOf, raises]) (by simp [errOffsetOf])

/-- PARSE_V2. -/
theorem ends_parseV2 {s t : State} (h : exec .parseV2 s = .next t) : Ends s .parseV2 t := by
  simp only [exec, execParseV2] at h
  cases hd : decHdr s 0 with
  | error e =>
    simp only [parseV2, hd, error_bind, finish_error] at h
    cases h
    obtain ⟨h1, h2⟩ := decHdr_error_code hd
    exact .raised e (fun _ => code_mono (by decide) h1) (by omega)
  | ok r =>
    have hh := (decHdr_inv hd).1
    rw [parseV2_eq hh] at h
    by_cases hv : verOf (s.inByte 1) = .version2
    · rw [if_neg (not_not.mpr hv), hv] at h
      rcases parseBodyV2_cases (h := ⟨cmdOf (s.inByte 0), .version2⟩) hh.1 rfl with ⟨es, hn, hp⟩ | ⟨e, hp, h1, h2⟩
      · simp only [hp, ok_bind, pure_ok, finish_ok] at h
        cases h
        exact .parsed .v2 _ (es.map slotOfV2) (.inr (.inr rfl)) (by simpa using hn)
      · simp only [hp, error_bind, finish_error] at h
        cases h
        exact .raised e (fun _ => code_mono (by decide) h1) (by omega)
    · rw [if_pos hv] at h
      simp only [error_bind, finish_error] at h
      cases h
      exact .raised _ (fun _ => by simp [errCodeOf, raises]) (by simp [errOffsetOf])

/-- Serializing what PKT denotes, in either kind: at most 504 bytes, or one of three errors. -/
theorem serialize_cases (s : State) (k : PktKind) :
    (∃ bs, bs.length ≤ 504 ∧ serializeKind s k = .ok bs)
      ∨ (serializeKind s k = .error .serUnknownCommandKind) ∨ (serializeKind s k = .error .serUnknownAfi)
      ∨ (s.pktVer = .unknown ∧ serializeKind s k = .error .serUnknownVersion) := by
  by_cases h : s.pktCmd = .unknown ∨ s.pktVer = .unknown
  · obtain ⟨h1, h2⟩ := serialize_header h
    by_cases hc : s.pktCmd = .unknown
    · rw [if_pos hc] at h1 h2
      exact .inr (.inl (by cases k <;> assumption))
    · rw [if_neg hc] at h1 h2
      exact .inr (.inr (.inr ⟨h.resolve_left hc, by cases k <;> assumption⟩))
  · obtain ⟨hc, hv⟩ := not_or.mp h
    by_cases ha : ∃ j : Fin 25, j.val < s.pktN.toNat ∧ s.pktEnt[j].afi = .unknown
    · refine .inr (.inr (.inl ?_))
      cases k
      · exact serializeV1_afi hc hv ha
      · exact serializeV2_afi hc hv ha
    · have ha' : ∀ i : Fin 25, i.val < s.pktN.toNat → s.pktEnt[i].afi ≠ .unknown := fun i hi hu => ha ⟨i, hi, hu⟩
      left
      cases k
      · refine ⟨_, ?_, serializeV1_ok hc hv ha'⟩
        rw [List.length_append, length_flatMap_20 _ wireV1_length, wireHdr_length, pktSlots_length]; omega
      · refine ⟨_, ?_, serializeV2_ok hc hv ha'⟩
        rw [List.length_append, length_flatMap_20 _ wireV2_length, wireHdr_length, pktSlots_length]; omega

/-- The three serializers. -/
theorem ends_serialize {s t : State} {i : Instr} (hi : i = .serV1 ∨ i = .serV2 ∨ i = .serialize)
    (h : exec i s = .next t) : Ends s i t := by
  have hw : writesOut i = true := by rcases hi with rfl | rfl | rfl <;> rfl
  have hr : resultClass i = .out := by rcases hi with rfl | rfl | rfl <;> rfl
  have raise : ∀ e, errOffsetOf e = 0 → (PktOk s → errCodeOf e ∈ raises i) → exec i s = .next (raiseErr .out e s) →
      Ends s i t := by
    intro e h0 hc hx
    rw [h] at hx
    cases hx
    have := Ends.raised (s := s) (i := i) e hc (by omega)
    rwa [hr] at this
  by_cases hval : s.pktValid = true
  · by_cases hk : i = .serialize ∨ (i = .serV1 ∧ s.pktKind = .v1) ∨ (i = .serV2 ∧ s.pktKind = .v2)
    · have hx := exec_serialize hval hk
      rcases serialize_cases s s.pktKind with ⟨bs, hl, hb⟩ | hb | hb | ⟨hu, hb⟩
      · rw [hb, finishOut_ok, h] at hx
        cases hx
        exact .out bs hw hl
      · rw [hb, finishOut_error] at hx
        exact raise _ rfl (fun _ => by rcases hi with rfl | rfl | rfl <;> simp [errCodeOf, raises]) hx
      · rw [hb, finishOut_error] at hx
        exact raise _ rfl (fun _ => by rcases hi with rfl | rfl | rfl <;> simp [errCodeOf, raises]) hx
      · rw [hb, finishOut_error] at hx
        refine raise _ rfl (fun hp => ?_) hx
        have := (hp hval).2
        rw [hu] at this
        cases hk : s.pktKind <;> rw [hk] at this <;> cases this
    · have hx : exec i s = .next (raiseErr .out .wrongPacketKind s) := by
        rcases hi with rfl | rfl | rfl
        · have hk2 : s.pktKind ≠ .v1 := fun h => hk (.inr (.inl ⟨rfl, h⟩))
          simp only [exec, execSerV1]; rw [hval, if_neg (by decide), if_pos hk2]; rfl
        · have hk2 : s.pktKind ≠ .v2 := fun h => hk (.inr (.inr ⟨rfl, h⟩))
          simp only [exec, execSerV2]; rw [hval, if_neg (by decide), if_pos hk2]; rfl
        · exact absurd (.inl rfl) hk
      refine raise _ rfl (fun _ => ?_) hx
      rcases hi with rfl | rfl | rfl
      · simp [errCodeOf, raises]
      · simp [errCodeOf, raises]
      · exact absurd (.inl rfl) hk
  · have hf : s.pktValid = false := by simpa using hval
    have hx : exec i s = .next (raiseErr .out .noPacket s) := by
      rcases hi with rfl | rfl | rfl
      · simp only [exec, execSerV1]; rw [hf]; rfl
      · simp only [exec, execSerV2]; rw [hf]; rfl
      · simp only [exec, execSerialize]; rw [hf]; rfl
    exact raise _ rfl (fun _ => by rcases hi with rfl | rfl | rfl <;> simp [errCodeOf, raises]) hx

/-- An encoder: its bytes, or its errors. -/
theorem ends_encode {s t : State} {i : Instr} {r : Except Err (List Byte)} (hi : writesOut i = true)
    (hr : exec i s = finishOut s r) (h : exec i s = .next t) (hl : ∀ bs, r = .ok bs → bs.length ≤ 504)
    (he : ∀ e, r = .error e → errCodeOf e ∈ raises i ∧ errOffsetOf e = 0) : Ends s i t := by
  have hc : resultClass i = .out := by unfold resultClass; rw [hi]; rfl
  rw [hr] at h
  cases r with
  | ok bs => cases h; exact .out bs hi (hl bs rfl)
  | error e =>
    cases h
    have := Ends.raised (s := s) (i := i) e (fun _ => (he e rfl).1) (by rw [(he e rfl).2]; omega)
    rwa [hc] at this

/-- A decoder into FV: a field, or its errors. -/
theorem ends_decode {s t : State} {i : Instr} {α : Type} {r : Except Err (α × Nat)} {f : α → Word × Bool}
    (hi : decodesFv i = true)
    (hr : exec i s = finish .regs s do
      let (a, c) ← r
      return { s with fvVal := (f a).1, fvUnk := (f a).2, cur := c })
    (h : exec i s = .next t) (hl : ∀ a c, r = .ok (a, c) → s.cur ≤ c ∧ c ≤ s.inLen)
    (he : ∀ e, r = .error e → errCodeOf e ∈ raises i ∧ errOffsetOf e ≤ max s.cur s.inLen) : Ends s i t := by
  have hc : resultClass i = .regs := by cases i <;> first | rfl | cases hi
  rw [hr] at h
  cases r with
  | ok x =>
    obtain ⟨a, c⟩ := x
    cases h
    exact .fv _ _ c hi (hl a c rfl).1 (hl a c rfl).2
  | error e =>
    cases h
    have := Ends.raised (s := s) (i := i) e (fun _ => (he e rfl).1) (he e rfl).2
    rwa [hc] at this

/-- R124: an enumerant written to FV, as its two parts. -/
theorem writeFvEnum_parts {w : Nat} (s : State) (code : Option (BitVec w)) (c : Nat) :
    writeFvEnum s code c
      = { s with fvVal := (code.map (·.setWidth 32)).getD 0, fvUnk := code.isNone, cur := c } := by
  cases code <;> rfl

/-- The next state of every operation has one of the forms. -/
theorem exec_ends {i : Instr} {s t : State} (h : exec i s = .next t) : Ends s i t := by
  cases i
  case readByte =>
    refine ends_decode (r := readByte s s.cur) (f := fun b => (b.setWidth 32, false)) rfl rfl h (fun b c hr => ?_)
      fun e hr => ?_
    · unfold readByte at hr; split at hr <;> cases hr; omega
    · unfold readByte at hr; split at hr <;> cases hr
      exact ⟨by simp [errCodeOf, raises], by simp only [errOffsetOf]; omega⟩
  case skipZero =>
    simp only [exec, execSkipZero] at h
    cases hs : skipZero s s.cnt.toNat s.cur with
    | ok c =>
      rw [hs] at h
      cases h
      obtain ⟨h1, -, h3⟩ := skipZero_ok hs
      exact .skipped c rfl (by omega) (by omega)
    | error e =>
      rw [hs] at h
      cases h
      rcases skipZero_error hs with ⟨k, -, -, h3, -, -, rfl⟩ | ⟨-, -, -, rfl⟩
      · exact .raised _ (fun _ => by simp [errCodeOf, raises]) (by simp only [errOffsetOf]; omega)
      · exact .raised _ (fun _ => by simp [errCodeOf, raises]) (by simp only [errOffsetOf]; omega)
  case decAfi =>
    refine ends_decode (r := decAfi s s.cur) (f := fun a => (((afiCode a).map (·.setWidth 32)).getD 0, (afiCode a).isNone))
      rfl (by simp only [exec, execDecAfi, writeFvEnum_parts]) h (fun b c hr => ?_) fun e hr => ?_
    · rw [decAfi_eq] at hr; split at hr; · cases hr
      split at hr <;> cases hr; omega
    · rcases decAfi_error hr with ⟨h1, rfl⟩ | ⟨h1, -, rfl⟩
      · exact ⟨by simp [errCodeOf, raises], by simp only [errOffsetOf]; omega⟩
      · exact ⟨by simp [errCodeOf, raises], by simp only [errOffsetOf, afiErrOffset]; split <;> omega⟩
  case decCmd =>
    refine ends_decode (r := decCmd s s.cur) (f := fun a => (((cmdCode a).map (·.setWidth 32)).getD 0, (cmdCode a).isNone))
      rfl (by simp only [exec, execDecCmd, writeFvEnum_parts]) h (fun b c hr => ?_) fun e hr => ?_
    · rw [decCmd_eq] at hr; split at hr; · cases hr
      split at hr <;> cases hr; omega
    · rw [decCmd_eq] at hr; split at hr
      · cases hr; exact ⟨by simp [errCodeOf, raises], by simp only [errOffsetOf]; omega⟩
      · split at hr <;> cases hr
        exact ⟨by simp [errCodeOf, raises], by simp only [errOffsetOf]; omega⟩
  case decVer =>
    refine ends_decode (r := decVer s s.cur) (f := fun a => (((verCode a).map (·.setWidth 32)).getD 0, (verCode a).isNone))
      rfl (by simp only [exec, execDecVer, writeFvEnum_parts]) h (fun b c hr => ?_) fun e hr => ?_
    · rw [decVer_eq] at hr; split at hr <;> cases hr; omega
    · rw [decVer_eq] at hr; split at hr <;> cases hr
      exact ⟨by simp [errCodeOf, raises], by simp only [errOffsetOf]; omega⟩
  case decTag =>
    refine ends_decode (r := decTag s s.cur) (f := fun v => (v.setWidth 32, false)) rfl rfl h (fun b c hr => ?_)
      fun e hr => ?_
    · rw [decTag_eq] at hr; split at hr <;> cases hr; omega
    · rw [decTag_eq] at hr; split at hr <;> cases hr
      exact ⟨by simp [errCodeOf, raises], by simp only [errOffsetOf]; omega⟩
  case decMetric =>
    refine ends_decode (r := decMetric s s.cur) (f := fun v => (v, false)) rfl rfl h (fun b c hr => ?_)
      fun e hr => ?_
    · rw [decMetric_eq] at hr; split at hr <;> cases hr; omega
    · rw [decMetric_eq] at hr; split at hr <;> cases hr
      exact ⟨by simp [errCodeOf, raises], by simp only [errOffsetOf]; omega⟩
  case decIpv4 =>
    refine ends_decode (r := decIpv4 s s.cur) (f := fun v => (ipv4Word v, false)) rfl rfl h (fun b c hr => ?_)
      fun e hr => ?_
    · rw [decIpv4_eq] at hr; split at hr <;> cases hr; omega
    · rw [decIpv4_eq] at hr; split at hr <;> cases hr
      exact ⟨by simp [errCodeOf, raises], by simp only [errOffsetOf]; omega⟩
  case decHdr =>
    simp only [exec, execDecHdr] at h
    cases hd : decHdr s s.cur with
    | ok r =>
      rw [hd] at h
      obtain ⟨hok, rfl⟩ := decHdr_inv hd
      cases h
      exact .hr _ _ rfl (by omega) hok.1
    | error e =>
      rw [hd] at h
      cases h
      obtain ⟨h1, h2⟩ := decHdr_error_code hd
      exact .raised e (fun _ => h1) h2
  case decEnt1 =>
    simp only [exec, execDecEnt1] at h
    cases hd : decEnt1 s s.cur with
    | ok r =>
      rw [hd] at h
      obtain ⟨hok, rfl⟩ := decEnt1_inv hd
      cases h
      exact .er _ _ (.inl rfl) (by omega) hok.1
    | error e =>
      rw [hd] at h
      cases h
      rcases decEnt1_error hd with ⟨h1, rfl⟩ | ⟨h1, -, rfl⟩ | ⟨j, -, -, h3, -, rfl⟩
      · exact .raised _ (fun _ => by simp [errCodeOf, raises]) (by simp only [errOffsetOf]; omega)
      · exact .raised _ (fun _ => by simp [errCodeOf, raises])
          (by simp only [errOffsetOf, afiErrOffset]; split <;> omega)
      · exact .raised _ (fun _ => by simp [errCodeOf, raises]) (by simp only [errOffsetOf]; omega)
  case decEnt2 =>
    simp only [exec, execDecEnt2] at h
    cases hd : decEnt2 s s.cur with
    | ok r =>
      rw [hd] at h
      obtain ⟨hok, rfl⟩ := decEnt2_inv hd
      cases h
      exact .er _ _ (.inr rfl) (by omega) hok.1
    | error e =>
      rw [hd] at h
      cases h
      rcases decEnt2_error hd with ⟨h1, rfl⟩ | ⟨h1, -, rfl⟩
      · exact .raised _ (fun _ => by simp [errCodeOf, raises]) (by simp only [errOffsetOf]; omega)
      · exact .raised _ (fun _ => by simp [errCodeOf, raises])
          (by simp only [errOffsetOf, afiErrOffset]; split <;> omega)
  case encAfi =>
    refine ends_encode rfl rfl h (fun bs hb => ?_) fun e he => ?_
    · rw [encAfi_eq] at hb; split at hb <;> cases hb; simp
    · rw [encAfi_eq] at he; split at he <;> cases he; exact ⟨by simp [errCodeOf, raises], rfl⟩
  case encCmd =>
    refine ends_encode rfl rfl h (fun bs hb => ?_) fun e he => ?_
    · rw [encCmd_eq] at hb; split at hb <;> cases hb; simp
    · rw [encCmd_eq] at he; split at he <;> cases he; exact ⟨by simp [errCodeOf, raises], rfl⟩
  case encVer =>
    refine ends_encode rfl rfl h (fun bs hb => ?_) fun e he => ?_
    · rw [encVer_eq] at hb; split at hb <;> cases hb; simp
    · rw [encVer_eq] at he; split at he <;> cases he; exact ⟨by simp [errCodeOf, raises], rfl⟩
  case encTag =>
    exact ends_encode (r := .ok (encTag (fvTag s))) rfl rfl h (fun bs hb => by cases hb; simp [encTag])
      fun e he => by cases he
  case encMetric =>
    exact ends_encode (r := .ok (encMetric (fvMetric s))) rfl rfl h (fun bs hb => by cases hb; simp [encMetric])
      fun e he => by cases he
  case encIpv4 =>
    exact ends_encode (r := .ok (encIpv4 (fvIpv4 s))) rfl rfl h
      (fun bs hb => by cases hb; simp [encIpv4, ipv4Octets]) fun e he => by cases he
  case encHdr =>
    refine ends_encode rfl rfl h (fun bs hb => ?_) fun e he => ?_
    · rw [encHdr_eq] at hb
      repeat' split at hb
      all_goals cases hb
      simp
    · rw [encHdr_eq] at he
      repeat' split at he
      all_goals cases he
      all_goals exact ⟨by simp [errCodeOf, raises], rfl⟩
  case encEnt1 =>
    refine ends_encode rfl rfl h (fun bs hb => ?_) fun e he => ?_
    · rw [encEnt1_eq] at hb; split at hb <;> cases hb; simp
    · rw [encEnt1_eq] at he; split at he <;> cases he; exact ⟨by simp [errCodeOf, raises], rfl⟩
  case encEnt2 =>
    refine ends_encode rfl rfl h (fun bs hb => ?_) fun e he => ?_
    · rw [encEnt2_eq] at hb; split at hb <;> cases hb; simp
    · rw [encEnt2_eq] at he; split at he <;> cases he; exact ⟨by simp [errCodeOf, raises], rfl⟩
  case makeV1 =>
    simp only [exec, execMakeV1, makeInPlace, makeCheck] at h
    by_cases hv : s.pktVer = kindVersion .v1
    · by_cases hn : Config.maxEntries < s.pktN.toNat
      · rw [if_neg (not_not.mpr hv), if_pos hn] at h
        cases h
        exact .raised _ (fun _ => by simp [errCodeOf, ctorErrCode, raises]) (by simp [errOffsetOf])
      · rw [if_neg (not_not.mpr hv), if_neg hn] at h
        cases h
        exact .made .v1 (.inl rfl) hv (Nat.le_of_not_lt hn)
    · rw [if_pos hv] at h
      cases h
      exact .raised _ (fun _ => by simp [errCodeOf, ctorErrCode, raises]) (by simp [errOffsetOf])
  case makeV2 =>
    simp only [exec, execMakeV2, makeInPlace, makeCheck] at h
    by_cases hv : s.pktVer = kindVersion .v2
    · by_cases hn : Config.maxEntries < s.pktN.toNat
      · rw [if_neg (not_not.mpr hv), if_pos hn] at h
        cases h
        exact .raised _ (fun _ => by simp [errCodeOf, ctorErrCode, raises]) (by simp [errOffsetOf])
      · rw [if_neg (not_not.mpr hv), if_neg hn] at h
        cases h
        exact .made .v2 (.inr rfl) hv (Nat.le_of_not_lt hn)
    · rw [if_pos hv] at h
      cases h
      exact .raised _ (fun _ => by simp [errCodeOf, ctorErrCode, raises]) (by simp [errOffsetOf])
  case parse => exact ends_parse h
  case parseV1 => exact ends_parseV1 h
  case parseV2 => exact ends_parseV2 h
  case serV1 => exact ends_serialize (.inl rfl) h
  case serV2 => exact ends_serialize (.inr (.inl rfl)) h
  case serialize => exact ends_serialize (.inr (.inr rfl)) h

/-! ## The ERR registers -/

/-- R260: a raised error fits the table: its code, and a payload only where the code has one. -/
theorem raiseErr_errOk (w : ResultClass) (e : Err) (s : State) : ErrOk (raiseErr w e s) := by
  refine .inr ⟨rfl, rfl, ?_⟩
  rcases e with _ | _ | _ | _ | _ | _ | _ | _ | c | _ | _ | _ | c | _ | _ | _ <;>
    first
    | (cases c <;> simp [errCodeOf, errCauseOf, errByteOf, errValueOf, errOffsetOf, ctorErrCode])
    | simp [errCodeOf, errCauseOf, errByteOf, errValueOf, errOffsetOf]

/-- R261: after a success the ERR registers are 0. -/
theorem complete_errOk (s : State) : ErrOk (complete s) := .inl ⟨rfl, rfl, rfl, rfl, rfl, rfl⟩

end Sys2Proof.Machine
end

