-- ==== Sys2Proof/Tests/Slice0.lean ====
section
/-! SUPPORT. The model's own tests. Every expected result is a vector of spec/95_test_vectors.md (V1 to V153, W1 to W4)
or is read off an encoding table of spec/30_encoding.md; the vector is named in each comment. -/

namespace Sys2Proof.Tests

open Sys2Proof.Machine

/-! ## Well-formedness: an ill-formed term for each check -/

theorem test_inCap_504_refused : (⟨504, 16, .secondByte⟩ : Config.Params).inCapLargeEnough = false := by decide
theorem test_wLen_33_refused : (⟨505, 33, .secondByte⟩ : Config.Params).lenInWord = false := by decide
theorem test_wLen_too_short_refused : (⟨512, 9, .secondByte⟩ : Config.Params).lenFits = false := by decide
theorem test_params_refused :
    [⟨504, 16, .secondByte⟩, ⟨505, 33, .secondByte⟩, ⟨512, 9, .onePast⟩].map Config.Params.wf
      = [false, false, false] := by decide
theorem test_params_accepted : (⟨1024, 16, .secondByte⟩ : Config.Params).wf = true := by decide

/-! ## Decoding: words written out from the table of R100 -/

theorem test_decode_cursor : [0b00000001#8, 0b00000010#8].map decodeOp = [some .readByte, some .skipZero] := by decide
theorem test_decode_fields :
    [0b00010000#8, 0b00010001#8, 0b00010010#8, 0b00010011#8, 0b00010100#8, 0b00010101#8].map decodeOp
      = [some .decAfi, some .encAfi, some .decCmd, some .encCmd, some .decVer, some .encVer] := by decide
theorem test_decode_fields_wide :
    [0b00010110#8, 0b00010111#8, 0b00011000#8, 0b00011001#8, 0b00011010#8, 0b00011011#8].map decodeOp
      = [some .decTag, some .encTag, some .decMetric, some .encMetric, some .decIpv4, some .encIpv4] := by decide
theorem test_decode_records :
    [0b00100000#8, 0b00100001#8, 0b00100010#8, 0b00100011#8, 0b00100100#8, 0b00100101#8].map decodeOp
      = [some .decHdr, some .encHdr, some .decEnt1, some .encEnt1, some .decEnt2, some .encEnt2] := by decide
theorem test_decode_construct : [0b00110000#8, 0b00110001#8].map decodeOp = [some .makeV1, some .makeV2] := by decide
theorem test_decode_parse :
    [0b01000000#8, 0b01000001#8, 0b01000010#8].map decodeOp = [some .parse, some .parseV1, some .parseV2] := by decide
theorem test_decode_serialize :
    [0b01010000#8, 0b01010001#8, 0b01010010#8].map decodeOp = [some .serV1, some .serV2, some .serialize] := by decide
/-- V137, V138, V139, V140. -/
theorem test_decode_illegal : [0x00#8, 0x03#8, 0x26#8, 0xFF#8].map decodeOp = [none, none, none, none] := by decide
theorem test_table_word : decodeTableWord 8 0x52 = some .serialize ∧ decodeTableWord 8 0x53 = none := by decide

/-! ## A small state -/

/-- Bytes from an index on. -/
def cells (k : Nat) (bs : List Byte) : Memory :=
  match bs with
  | [] => []
  | b :: r => (k, b) :: cells (k + 1) r

/-- The parameters the vectors assume: IN_CAP ≥ 524 and SECOND_BYTE. -/
def params : Config.Params := ⟨1024, 16, .secondByte⟩

/-- Reset with the vectors' parameters. -/
def start : State := { State.reset with par := params }

/-- `buf bs`: IN[0..n−1] holds the bytes and IN_LEN = n. -/
def buf (bs : List Byte) (cur : Nat := 0) : State := { start with inMem := cells 0 bs, inLen := bs.length, cur := cur }

/-- A view of the next state, if there is one. -/
def view {α : Type} (f : State → α) (o : Host.Outcome State Fault Refusal) : Option α :=
  match o with
  | .next t => some (f t)
  | .fault _ => none
  | .refused _ => none

/-- STATUS.FAIL, ERR_CODE, ERR_CAUSE, ERR_BYTE, ERR_VALUE, ERR_OFFSET. -/
structure Errs where
  fail : Bool
  code : Byte
  cause : Byte
  byte : Byte
  value : BitVec 16
  offset : Nat
  deriving DecidableEq, Repr

/-- The error registers of a state. -/
def errs (t : State) : Errs := ⟨t.fail, t.errCode, t.errCause, t.errByte, t.errValue, t.errOffset⟩

/-- FV.VAL, FV.UNK, CUR. -/
def fv (t : State) : Word × Bool × Nat := (t.fvVal, t.fvUnk, t.cur)

/-- OUT[0 .. OUT_LEN − 1]. -/
def outBytes (t : State) : List Byte := (List.range t.outLen.toNat).map t.outByte

/-- The outcome after one more operation. -/
def andThen (o : Host.Outcome State Fault Refusal) (i : Instr) : Host.Outcome State Fault Refusal :=
  match o with
  | .next t => exec i t
  | .fault r => .fault r
  | .refused r => .refused r

/-- E1 of V74. -/
def e1 : List Byte := [0,2, 0,0, 10,0,0,1, 0,0,0,0,0,0,0,0, 0,0,0,1]
/-- E2 of V84. -/
def e2 : List Byte := [0,2, 1,2, 192,0,2,100, 255,255,255,0, 192,0,2,111, 4,3,2,1]
/-- The buffer of W1. -/
def w1 : List Byte := [2,2,0,0] ++ e2
/-- V1P of V110. -/
def v1p : List Byte := [1,1,0,0] ++ e1

/-! ## Group 0 -/

/-- V1. -/
theorem test_readByte : view fv (exec .readByte (buf [0xAB])) = some (171, false, 1) := by decide
/-- V4: CUR above IN_LEN. -/
theorem test_readByte_short :
    view (fun t => (errs t, t.cur)) (exec .readByte (buf [1,2,3] 5)) = some (⟨true, 0x01, 0, 0, 0, 5⟩, 5) := by decide
/-- V8: the non-zero byte comes before the shortage. -/
theorem test_skipZero_nonzero :
    view (fun t => (errs t, t.cur)) (exec .skipZero { buf [0,5] with cnt := 3 })
      = some (⟨true, 0x05, 0, 5, 0, 2⟩, 0) := by decide
/-- V9: a count of 0 succeeds even with CUR above IN_LEN. -/
theorem test_skipZero_zero_count :
    view (fun t => (t.fail, t.cur)) (exec .skipZero (buf [0,0] 9)) = some (false, 9) := by decide

/-! ## Group 1 -/

/-- V13. -/
theorem test_decAfi : view fv (exec .decAfi (buf [0xFF,0xFF])) = some (0xFFFF, false, 2) := by decide
/-- V16 and V17: both modes of the error offset. -/
theorem test_decAfi_unknown :
    view errs (exec .decAfi (buf [9,9,9,9,1,0] 4)) = some ⟨true, 0x06, 0, 0, 256, 5⟩
      ∧ view errs (exec .decAfi { buf [9,9,9,9,1,0] 4 with par := ⟨1024, 16, .onePast⟩ })
        = some ⟨true, 0x06, 0, 0, 256, 6⟩ := by decide
/-- V23: FV.VAL[31:16] is ignored. -/
theorem test_encAfi : view outBytes (exec .encAfi { start with fvVal := 0x00010002 }) = some [0, 2] := by decide
/-- V21. -/
theorem test_encAfi_unknown :
    view (fun t => (errs t, t.outLen)) (exec .encAfi { start with fvVal := 2, fvUnk := true, outLen := 7 })
      = some (⟨true, 0x13, 0, 0, 0, 0⟩, 0) := by decide
/-- V27. -/
theorem test_decCmd : view fv (exec .decCmd (buf [11])) = some (11, false, 1) := by decide
/-- V28. -/
theorem test_decCmd_unknown :
    view errs (exec .decCmd (buf [1,255] 1)) = some ⟨true, 0x02, 0, 255, 0, 2⟩ := by decide
/-- V34: bits 31:8 are ignored. -/
theorem test_encCmd : view outBytes (exec .encCmd { start with fvVal := 0x102 }) = some [2] := by decide
/-- V32. -/
theorem test_encCmd_unknown : view errs (exec .encCmd { start with fvVal := 12 }) = some ⟨true, 0x11, 0, 0, 0, 0⟩ := by
  decide
/-- V38: an unlisted version decodes to the sentinel. -/
theorem test_decVer : view fv (exec .decVer (buf [3])) = some (0, true, 1) := by decide
/-- V39. -/
theorem test_decVer_short : view errs (exec .decVer start) = some ⟨true, 0x01, 0, 0, 0, 0⟩ := by decide
/-- V40. -/
theorem test_encVer : view outBytes (exec .encVer { start with fvVal := 1 }) = some [1] := by decide
/-- V42. -/
theorem test_encVer_unknown : view errs (exec .encVer { start with fvVal := 3 }) = some ⟨true, 0x12, 0, 0, 0, 0⟩ := by
  decide
/-- V44. -/
theorem test_decTag : view fv (exec .decTag (buf [1,2])) = some (0x102, false, 2) := by decide
/-- V46. -/
theorem test_decTag_short : view errs (exec .decTag (buf [1])) = some ⟨true, 0x01, 0, 0, 0, 1⟩ := by decide
/-- V48. -/
theorem test_encTag : view outBytes (exec .encTag { start with fvVal := 0x00010102 }) = some [1, 2] := by decide
/-- V49. -/
theorem test_decMetric : view fv (exec .decMetric (buf [4,3,2,1])) = some (0x4030201, false, 4) := by decide
/-- V53. -/
theorem test_decMetric_short :
    view (fun t => (errs t, t.cur)) (exec .decMetric (buf [1,2,3,4,5] 2)) = some (⟨true, 0x01, 0, 0, 0, 5⟩, 2) := by
  decide
/-- V55. -/
theorem test_encMetric :
    view outBytes (exec .encMetric { start with fvVal := 0xFFFFFFFF }) = some [255, 255, 255, 255] := by decide
/-- V56. -/
theorem test_decIpv4 : view fv (exec .decIpv4 (buf [192,0,2,100])) = some (0xC0000264, false, 4) := by decide
/-- V59: FV.UNK is ignored. -/
theorem test_encIpv4 :
    view outBytes (exec .encIpv4 { start with fvVal := 0xC0000264, fvUnk := true }) = some [192, 0, 2, 100] := by decide

/-! ## Group 2 -/

/-- V62: version 255 decodes. -/
theorem test_decHdr :
    view (fun t => (regRead t .hrCmd, regRead t .hrVer, t.cur)) (exec .decHdr (buf [1,255,0,0]))
      = some (1, 0x100, 4) := by decide
/-- V67. -/
theorem test_decHdr_reserved : view errs (exec .decHdr (buf [2,2,0,9])) = some ⟨true, 0x05, 0, 9, 0, 4⟩ := by decide
/-- V70. -/
theorem test_encHdr :
    view outBytes (exec .encHdr { start with hrCmd := .request, hrVer := .version1 }) = some [1, 1, 0, 0] := by decide
/-- V72: both Unknown, the command is reported. -/
theorem test_encHdr_unknown :
    view errs (exec .encHdr { start with hrCmd := cmdWarl 12, hrVer := verWarl 3 })
      = some ⟨true, 0x11, 0, 0, 0, 0⟩ := by decide
/-- V74. -/
theorem test_decEnt1 :
    view (fun t => (t.er, t.cur)) (exec .decEnt1 { buf e1 with er := ⟨.ip, 7, 7, 7, 7, 7⟩ })
      = some (⟨.ip, 0, 0x0A000001, 0, 0, 1⟩, 20) := by decide
/-- V77. -/
theorem test_decEnt1_reserved :
    view errs (exec .decEnt1 (buf (e1.set 15 9))) = some ⟨true, 0x05, 0, 9, 0, 16⟩ := by decide
/-- V82. -/
theorem test_encEnt1 :
    view outBytes (exec .encEnt1 { start with er := ⟨.ip, 7, 0x0A000001, 7, 7, 1⟩ }) = some e1 := by decide
/-- V83. -/
theorem test_encEnt1_unknown :
    view errs (exec .encEnt1 { start with er := { Slot.zero with afi := afiWarl 5 } })
      = some ⟨true, 0x13, 0, 0, 0, 0⟩ := by decide
/-- V84. -/
theorem test_decEnt2 :
    view (fun t => (t.er, t.cur)) (exec .decEnt2 (buf e2))
      = some (⟨.ip, 258, 0xC0000264, 0xFFFFFF00, 0xC000026F, 67305985⟩, 20) := by decide
/-- V86. -/
theorem test_decEnt2_short : view errs (exec .decEnt2 (buf (e2.take 19))) = some ⟨true, 0x01, 0, 0, 0, 19⟩ := by decide
/-- V89. -/
theorem test_encEnt2 :
    view outBytes (exec .encEnt2 { start with er := ⟨.ip, 258, 0xC0000264, 0xFFFFFF00, 0xC000026F, 67305985⟩ })
      = some e2 := by decide

/-! ## Group 3 -/

/-- V91. -/
theorem test_makeV1 :
    view (fun t => (t.pktValid, t.pktKind, t.pktN)) (exec .makeV1 { start with pktVer := .version1, pktN := 25 })
      = some (true, .v1, 25) := by decide
/-- V93: the version error wins over the count. -/
theorem test_makeV1_version :
    view errs (exec .makeV1 { start with pktVer := .version2, pktN := 26 }) = some ⟨true, 0x21, 0, 0, 0, 0⟩ := by decide
/-- V99. -/
theorem test_makeV2 :
    view (fun t => (t.pktValid, t.pktKind)) (exec .makeV2 { start with pktVer := .version2, pktN := 25 })
      = some (true, .v2) := by decide
/-- V100. -/
theorem test_makeV2_count :
    view (fun t => (errs t, t.pktValid)) (exec .makeV2 { start with pktVer := .version2, pktN := 255, pktValid := true })
      = some (⟨true, 0x22, 0, 0, 0, 0⟩, false) := by decide

/-! ## Group 4 -/

/-- V101 (W1). -/
theorem test_parse :
    view (fun t => (t.pktValid, t.pktKind, t.pktCmd, t.pktVer, t.pktN, t.pktEnt[0])) (exec .parse (buf w1))
      = some (true, .v2, .response, .version2, 1, ⟨.ip, 258, 0xC0000264, 0xFFFFFF00, 0xC000026F, 67305985⟩) := by decide
/-- V102, V107, V108, V103 and V111: reserved byte before version, the two version errors, no entry, a partial entry. -/
theorem test_parse_errors :
    [[2,0,1,0], [2,3,0,0] ++ e2, [2,0,0,0] ++ e2, [2,1,0,0], w1 ++ [0,2,0,0,0]].map
        (fun bs => view errs (exec .parse (buf bs)))
      = [some ⟨true, 0x05, 0, 1, 0, 3⟩, some ⟨true, 0x03, 0, 0, 0, 2⟩, some ⟨true, 0x04, 0, 0, 0, 2⟩,
         some ⟨true, 0x07, 0, 0, 0, 4⟩, some ⟨true, 0x01, 0, 0, 0, 29⟩] := by decide
/-- V121. -/
theorem test_parseV1 :
    view (fun t => (t.pktValid, t.pktKind, t.pktN, t.pktEnt[0])) (exec .parseV1 (buf v1p))
      = some (true, .v1, 1, ⟨.ip, 0, 0x0A000001, 0, 0, 1⟩) := by decide
/-- V118: the version is judged before the entries. -/
theorem test_parseV1_version :
    view (fun t => (errs t, t.pktValid)) (exec .parseV1 (buf [2,2,0,0]))
      = some (⟨true, 0x09, 0x21, 0, 0, 0⟩, false) := by decide
/-- V122. -/
theorem test_parseV2 :
    view (fun t => (t.pktValid, t.pktKind, t.pktN, t.pktEnt[0].nh)) (exec .parseV2 (buf w1))
      = some (true, .v2, 1, 0xC000026F) := by decide
/-- V123. -/
theorem test_parseV2_version : view errs (exec .parseV2 (buf v1p)) = some ⟨true, 0x09, 0x21, 0, 0, 0⟩ := by decide

/-! ## Group 5 -/

/-- V130. -/
theorem test_serV2 : view outBytes (andThen (exec .parse (buf w1)) .serV2) = some w1 := by decide
/-- V129. -/
theorem test_serV2_kind :
    view errs (andThen (exec .parse (buf v1p)) .serV2) = some ⟨true, 0x32, 0, 0, 0, 0⟩ := by decide
/-- V131, by SER_V1 (R227's example). -/
theorem test_serV1 : view outBytes (andThen (exec .parse (buf v1p)) .serV1) = some v1p := by decide
/-- V126. -/
theorem test_serV1_none : view errs (exec .serV1 start) = some ⟨true, 0x31, 0, 0, 0, 0⟩ := by decide
/-- V133: an empty packet serializes to its header. -/
theorem test_serialize_empty :
    view outBytes (andThen (exec .makeV2 { start with pktCmd := .request, pktVer := .version2 }) .serialize)
      = some [1, 2, 0, 0] := by decide
/-- V136: the command error comes first. -/
theorem test_serialize_unknown :
    view errs (exec .serialize
        { start with
          pktValid := true, pktKind := .v2, pktCmd := .unknown, pktVer := .version2, pktN := 1,
          pktEnt := Vector.replicate 25 { Slot.zero with afi := .unknown } })
      = some ⟨true, 0x11, 0, 0, 0, 0⟩ := by decide

/-! ## The host's side -/

/-- One host action in a state. -/
def act (a : BusAction) (s : State) : Host.Outcome State Fault Refusal := step { s with pending := [a] }

/-- The fault of an outcome, if it is one. -/
def faultOf (o : Host.Outcome State Fault Refusal) : Option Fault :=
  match o with
  | .fault r => some r
  | _ => none

/-- V142 to V148: WARL. -/
theorem test_warl :
    [afiHeld (afiWarl 5), afiHeld (afiWarl 0x1FFFF), afiHeld (afiWarl 0xFFFF), afiHeld (afiWarl 0x20002),
     cmdHeld (cmdWarl 11), cmdHeld (cmdWarl 12), verHeld (verWarl 3)]
      = [0x10000, 0x10000, 0xFFFF, 2, 11, 0x100, 0x100] := by decide
/-- V150: writing the value it holds still clears PKT.VALID. -/
theorem test_pktN_write :
    view (fun t => (t.pktN, t.pktValid)) (act (.writeReg 0x024 1) { start with pktValid := true, pktN := 1 })
      = some (1, false) := by decide
/-- Program B, line 10: PKT.ENT[1].METRIC is register 0x10D. -/
theorem test_ent_write :
    view (fun t => (t.pktEnt[1].metric, t.pktEnt[0].metric)) (act (.writeReg 0x10D 3) start) = some (3, 0) := by decide
/-- V152: an unmapped number reads 0 and ignores writes. -/
theorem test_unmapped :
    act (.writeReg 0x106 7) start = .next start ∧ view (·.seen) (act (.readReg 0x106) start) = some [0] :=
  ⟨rfl, by decide⟩
/-- V153 and V137: START straight after reset raises IllegalOp. -/
theorem test_start_after_reset :
    view (fun t => (errs t, t.runState)) (act (.writeReg 0x001 1) start)
      = some (⟨true, 0x30, 0, 0, 0, 0⟩, .done) := by decide
/-- Program A, line 2: START runs the operation in OP; STATUS then reads 0x2. -/
theorem test_start_parse :
    view (fun t => (regRead t .status, t.pktN)) (act (.writeReg 0x001 1) { buf w1 with op := 0x40 })
      = some (0x2, 1) := by decide
/-- R294: IN_LEN above IN_CAP has no move. -/
theorem test_inLen_above_cap : faultOf (act (.writeReg 0x008 1025) start) = some .hostInLenAboveCap := by decide
/-- R295: a write while BUSY has no move. -/
theorem test_write_while_busy :
    faultOf (act (.writeReg 0x00A 1) { start with runState := .busy }) = some .hostWriteWhileBusy := by decide
/-- R104, program A's `op PARSE`. -/
theorem test_prog_op : progOp .parse = [.writeReg 0x000 0x40, .writeReg 0x001 1, .wait] := by decide
/-- R104, program D's line 10. -/
theorem test_prog_load :
    progLoad [1, 2, 0, 0]
      = [.writeIn 0 1, .writeIn 1 2, .writeIn 2 0, .writeIn 3 0, .writeReg 0x008 4] := by decide
/-- The table check: an operation placed for the next step runs as the first one after reset. -/
theorem test_withFetchWord :
    view (fun t => (t.fail, t.errCode)) (step (State.reset.withFetchWord 8 0x31)) = some (true, 0x21) := by decide

/-! ## Witnesses: for every statement with hypotheses, states and operands that meet them all -/

/-- A range of zeros, by evaluation. -/
theorem zeroOn_of {s : State} {lo hi : Nat}
    (h : ((List.range hi).all fun k => decide (k < lo) || s.inByte k == 0) = true) : zeroOn s lo hi := by
  intro k h1 h2
  have := List.all_eq_true.mp h k (List.mem_range.mpr h2)
  simp only [Bool.or_eq_true, decide_eq_true_eq, beq_iff_eq] at this
  exact this.resolve_left (by omega)

/-- What a list of cells reads as. -/
theorem cells_read (k : Nat) (bs : List Byte) (a : Nat) (h1 : k ≤ a) (h2 : a < k + bs.length) :
    (cells k bs).read a = bs[a - k]? := by
  induction bs generalizing k with
  | nil => simp at h2; omega
  | cons b r ih =>
    simp only [cells, Memory.read]
    by_cases h : k = a
    · subst h; simp
    · rw [if_neg h, ih (k + 1) (by omega) (by simp at h2; omega)]
      rw [show a - k = (a - (k + 1)) + 1 by omega, List.getElem?_cons_succ]

/-- A header with a version and `n` zeros after it: every 20 of them are an entry of either version. -/
def zbuf (v : Byte) (n : Nat) : State := buf ([2, v, 0, 0] ++ List.replicate n 0)

theorem zbuf_byte (v : Byte) (n a : Nat) (h1 : 4 ≤ a) (h2 : a < 4 + n) : (zbuf v n).inByte a = 0 := by
  unfold State.inByte
  have : (zbuf v n).inMem.read a = some 0 := by
    simp only [zbuf, buf]
    rw [cells_read 0 _ a (by omega) (by simp; omega), Nat.sub_zero, List.getElem?_append_right (by simpa using h1),
      List.getElem?_replicate, if_pos (by simp; omega)]
  rw [this]; rfl

theorem zbuf_len (v : Byte) (n : Nat) : (zbuf v n).inLen = 4 + n := by simp [zbuf, buf]; omega

theorem zbuf_afi (v : Byte) (n c : Nat) (h1 : 4 ≤ c) (h2 : c + 1 < 4 + n) : field16 (zbuf v n) c = 0 := by
  unfold field16
  rw [zbuf_byte v n c h1 (by omega), zbuf_byte v n (c + 1) (by omega) h2]; rfl

theorem zbuf_v1 (v : Byte) (n i : Nat) (h : 20 * i + 20 ≤ n) : entryV1Ok (zbuf v n) (4 + 20 * i) :=
  ⟨by rw [zbuf_len]; omega, .inl (zbuf_afi v n _ (by omega) (by omega)),
    fun k h1 h2 => zbuf_byte v n k (by omega) (by omega), fun k h1 h2 => zbuf_byte v n k (by omega) (by omega)⟩

theorem zbuf_v2 (v : Byte) (n i : Nat) (h : 20 * i + 20 ≤ n) : entryV2Ok (zbuf v n) (4 + 20 * i) :=
  ⟨by rw [zbuf_len]; omega, .inl (zbuf_afi v n _ (by omega) (by omega))⟩

theorem zbuf_hdr1 (n : Nat) : headerOk (zbuf 1 n) 0 ∧ (zbuf 1 n).inByte 1 = 1 :=
  ⟨⟨by rw [zbuf_len]; omega, (by decide : (2 : Byte) < 12), rfl, rfl⟩, rfl⟩

theorem zbuf_hdr2 (n : Nat) : headerOk (zbuf 2 n) 0 ∧ (zbuf 2 n).inByte 1 = 2 :=
  ⟨⟨by rw [zbuf_len]; omega, (by decide : (2 : Byte) < 12), rfl, rfl⟩, rfl⟩

/-- SkipZeroResult: the end of the buffer exactly; a count of 0 above it; a byte that is not zero; a shortage. -/
theorem wit_skipZero :
    (zeroOn (buf [0, 0]) 0 2 ∧ (0 + 2 ≤ (buf [0, 0]).inLen))
    ∧ (zeroOn (buf [0] 9) 9 9 ∧ (buf [0] 9).cnt = 0)
    ∧ ((1 < (buf [0, 5]).inLen) ∧ zeroOn (buf [0, 5]) 0 1 ∧ (buf [0, 5]).inByte 1 ≠ 0)
    ∧ ((buf [0]).inLen < 0 + 2 ∧ zeroOn (buf [0]) 0 (buf [0]).inLen) :=
  ⟨⟨zeroOn_of (by decide), by decide⟩, ⟨zeroOn_of (by decide), rfl⟩, ⟨by decide, zeroOn_of (by decide), by decide⟩,
    by decide, zeroOn_of (by decide)⟩

/-- EncAfiResult, EncCmdResult, EncVerResult: the last named and the first unnamed value of each. -/
theorem wit_encode :
    (afiNamed ((0xFFFF : Word).extractLsb' 0 16) ∧ ¬ afiNamed ((0xFFFE : Word).extractLsb' 0 16))
    ∧ ((11 : Word).extractLsb' 0 8 < 12 ∧ 12 ≤ (12 : Word).extractLsb' 0 8)
    ∧ ((2 : Word).extractLsb' 0 8 ≤ 2 ∧ 2 < (3 : Word).extractLsb' 0 8) := by decide

/-- EncHdrResult: both named; the command Unknown; the version alone Unknown. -/
theorem wit_encHdr :
    (start.hrCmd ≠ .unknown ∧ start.hrVer ≠ .unknown)
    ∧ ({ start with hrCmd := .unknown } : State).hrCmd = .unknown
    ∧ (start.hrCmd ≠ .unknown ∧ ({ start with hrVer := .unknown } : State).hrVer = .unknown) := by decide

/-- DecEnt1Result: a whole entry; an unnamed AFI; the last reserved byte; 19 bytes, and 1 byte. -/
theorem wit_decEnt1 :
    entryV1Ok (buf e1) 0
    ∧ (0 + 2 ≤ (buf [0, 1]).inLen ∧ ¬ afiNamed (field16 (buf [0, 1]) 0))
    ∧ (15 ∈ [2, 3, 8, 9, 10, 11, 12, 13, 14, 15] ∧ 15 < (buf (e1.set 15 9)).inLen
        ∧ afiNamed (field16 (buf (e1.set 15 9)) 0)
        ∧ (∀ k ∈ [2, 3, 8, 9, 10, 11, 12, 13, 14, 15], k < 15 → (buf (e1.set 15 9)).inByte (0 + k) = 0)
        ∧ (buf (e1.set 15 9)).inByte 15 ≠ 0)
    ∧ ((buf (e1.take 19)).inLen < 20 ∧ afiNamed (field16 (buf (e1.take 19)) 0)
        ∧ ∀ k ∈ [2, 3, 8, 9, 10, 11, 12, 13, 14, 15], (buf (e1.take 19)).inByte (0 + k) = 0)
    ∧ ((buf [0]).inLen < 0 + 2) :=
  ⟨⟨by decide, by decide, zeroOn_of (by decide), zeroOn_of (by decide)⟩, by decide, by decide, by decide, by decide⟩

/-- EncEnt1Result, EncEnt2Result. -/
theorem wit_encEnt :
    start.er.afi ≠ .unknown ∧ ({ start with er := { Slot.zero with afi := .unknown } } : State).er.afi = .unknown := by
  decide

/-- ParseAcceptsV1 with 1 entry and with 25. -/
theorem wit_parseAcceptsV1 :
    (headerOk (zbuf 1 20) 0 ∧ (zbuf 1 20).inByte 1 = 1 ∧ (zbuf 1 20).inLen = 4 + 20 * 1
      ∧ ∀ i, i < 1 → entryV1Ok (zbuf 1 20) (4 + 20 * i))
    ∧ (headerOk (zbuf 1 500) 0 ∧ (zbuf 1 500).inByte 1 = 1 ∧ (zbuf 1 500).inLen = 4 + 20 * 25
      ∧ ∀ i, i < 25 → entryV1Ok (zbuf 1 500) (4 + 20 * i)) :=
  ⟨⟨(zbuf_hdr1 _).1, (zbuf_hdr1 _).2, zbuf_len _ _, fun i h => zbuf_v1 1 20 i (by omega)⟩,
    (zbuf_hdr1 _).1, (zbuf_hdr1 _).2, zbuf_len _ _, fun i h => zbuf_v1 1 500 i (by omega)⟩

/-- ParseAcceptsV2 with 1 entry and with 25. -/
theorem wit_parseAcceptsV2 :
    (headerOk (zbuf 2 20) 0 ∧ (zbuf 2 20).inByte 1 = 2 ∧ (zbuf 2 20).inLen = 4 + 20 * 1
      ∧ ∀ i, i < 1 → entryV2Ok (zbuf 2 20) (4 + 20 * i))
    ∧ (headerOk (zbuf 2 500) 0 ∧ (zbuf 2 500).inByte 1 = 2 ∧ (zbuf 2 500).inLen = 4 + 20 * 25
      ∧ ∀ i, i < 25 → entryV2Ok (zbuf 2 500) (4 + 20 * i)) :=
  ⟨⟨(zbuf_hdr2 _).1, (zbuf_hdr2 _).2, zbuf_len _ _, fun i h => zbuf_v2 2 20 i (by omega)⟩,
    (zbuf_hdr2 _).1, (zbuf_hdr2 _).2, zbuf_len _ _, fun i h => zbuf_v2 2 500 i (by omega)⟩

/-- ParseRejectsVersion: versions 0, 3 and 255 for PARSE; 2 and 1 for the other two. -/
theorem wit_parseRejectsVersion :
    (headerOk (buf [2, 0, 0, 0]) 0 ∧ (buf [2, 0, 0, 0]).inByte 1 = 0)
    ∧ (headerOk (buf [2, 3, 0, 0]) 0 ∧ 3 ≤ (buf [2, 3, 0, 0]).inByte 1)
    ∧ (headerOk (buf [2, 255, 0, 0]) 0 ∧ 3 ≤ (buf [2, 255, 0, 0]).inByte 1)
    ∧ (headerOk (buf [2, 2, 0, 0]) 0 ∧ (buf [2, 2, 0, 0]).inByte 1 ≠ 1)
    ∧ (headerOk (buf [2, 1, 0, 0]) 0 ∧ (buf [2, 1, 0, 0]).inByte 1 ≠ 2) := by
  unfold headerOk; decide

/-- ParseRejectsEntryCount: no byte after the header; one byte after the 25th entry. -/
theorem wit_parseRejectsEntryCount :
    (headerOk (zbuf 1 0) 0 ∧ (zbuf 1 0).inLen = 4 ∧ headerOk (zbuf 2 0) 0 ∧ (zbuf 2 0).inLen = 4)
    ∧ (headerOk (zbuf 1 501) 0 ∧ 504 < (zbuf 1 501).inLen ∧ ∀ k, k < 25 → entryV1Ok (zbuf 1 501) (4 + 20 * k))
    ∧ (headerOk (zbuf 2 501) 0 ∧ 504 < (zbuf 2 501).inLen ∧ ∀ k, k < 25 → entryV2Ok (zbuf 2 501) (4 + 20 * k)) :=
  ⟨⟨(zbuf_hdr1 _).1, zbuf_len _ _, (zbuf_hdr2 _).1, zbuf_len _ _⟩,
    ⟨(zbuf_hdr1 _).1, by rw [zbuf_len]; omega, fun k h => zbuf_v1 1 501 k (by omega)⟩,
    (zbuf_hdr2 _).1, by rw [zbuf_len]; omega, fun k h => zbuf_v2 2 501 k (by omega)⟩

/-- ParseSurfacesHeaderError. -/
theorem wit_parseSurfacesHeaderError :
    ∃ u, exec .decHdr { buf [2, 2, 0, 9] with cur := 0 } = .next u ∧ u.fail = true := ⟨_, rfl, rfl⟩

/-- ParseSurfacesEntryError at the second entry, in both versions. -/
theorem wit_parseSurfacesEntryError :
    (headerOk (buf (v1p ++ [0, 1])) 0 ∧ 4 + 20 * 1 < (buf (v1p ++ [0, 1])).inLen
      ∧ (buf (v1p ++ [0, 1])).inByte 1 = 1 ∧ (∀ i, i < 1 → entryV1Ok (buf (v1p ++ [0, 1])) (4 + 20 * i))
      ∧ ∃ u, exec .decEnt1 { buf (v1p ++ [0, 1]) with cur := 4 + 20 * 1 } = .next u ∧ u.fail = true)
    ∧ (headerOk (buf (w1 ++ [0])) 0 ∧ 4 + 20 * 1 < (buf (w1 ++ [0])).inLen
      ∧ (buf (w1 ++ [0])).inByte 1 = 2 ∧ (∀ i, i < 1 → entryV2Ok (buf (w1 ++ [0])) (4 + 20 * i))
      ∧ ∃ u, exec .decEnt2 { buf (w1 ++ [0]) with cur := 4 + 20 * 1 } = .next u ∧ u.fail = true) := by
  refine ⟨⟨?_, by decide, by decide, fun i hi => ?_, _, rfl, rfl⟩, ?_, by decide, by decide, fun i hi => ?_, _, rfl, rfl⟩
  · unfold headerOk; decide
  · obtain rfl : i = 0 := by omega
    exact ⟨by decide, by decide, zeroOn_of (by decide), zeroOn_of (by decide)⟩
  · unfold headerOk; decide
  · obtain rfl : i = 0 := by omega
    exact ⟨by decide, by decide⟩

/-- ParseReadsAndOffsetsBounded: another IN with the same bytes below IN_LEN; a parse that fails. -/
theorem wit_parseReadsAndOffsets :
    (∀ k, k < min (buf v1p).inLen 504 → State.inByte { buf v1p with inMem := cells 0 (v1p ++ [7]) } k = (buf v1p).inByte k)
    ∧ ∃ t, exec .parse (buf [2, 1, 0, 0]) = .next t ∧ t.fail = true := ⟨by decide, _, rfl, rfl⟩

/-- A valid packet of `n` entries, each Unspecified and zero. -/
def pkt (k : PktKind) (n : BitVec 8) : State :=
  { start with pktValid := true, pktKind := k, pktCmd := .request, pktVer := kindVersion k, pktN := n }

/-- SerializeV1Result, SerializeV2Result, SerializeRefusesOtherPacket: 0 and 25 entries, both kinds. -/
theorem wit_serialize :
    ∀ k ∈ [PktKind.v1, PktKind.v2], ∀ n ∈ [0#8, 25#8],
      (pkt k n).pktValid = true ∧ (pkt k n).pktKind = k ∧ (pkt k n).pktN.toNat ≤ 25 ∧ (pkt k n).pktCmd ≠ .unknown
        ∧ (pkt k n).pktVer ≠ .unknown
        ∧ ∀ i : Fin 25, i.val < (pkt k n).pktN.toNat → (pkt k n).pktEnt[i].afi ≠ .unknown := by decide

/-- SerializeRefusesOtherPacket without a packet. -/
theorem wit_serializeNone : start.pktValid = false := by decide

/-- A valid packet of one entry with an Unknown AFI. -/
def pktU (k : PktKind) : State := { pkt k 1 with pktEnt := Vector.replicate 25 { Slot.zero with afi := .unknown } }

/-- SerializeRefusesUnknown: the command; the AFI of the only entry. -/
theorem wit_serializeUnknown :
    ∀ k ∈ [PktKind.v1, PktKind.v2],
      ({ pkt k 1 with pktCmd := .unknown } : State).pktCmd = .unknown
        ∧ ((pktU k).pktCmd ≠ .unknown ∧ (pktU k).pktVer ≠ .unknown
          ∧ ∃ j : Fin 25, j.val < (pktU k).pktN.toNat ∧ (pktU k).pktEnt[j].afi = .unknown) := by decide

/-- FieldCodecLaws, encode first: a value, its bytes, and a buffer that holds them. -/
theorem wit_fieldEncode :
    (encAfi .ip = .ok [0, 2] ∧ holdsAt (buf [0, 2]) 0 [0, 2])
    ∧ (encCmd .kind11 = .ok [11] ∧ holdsAt (buf [11]) 0 [11])
    ∧ (encVer .version2 = .ok [2] ∧ holdsAt (buf [2]) 0 [2])
    ∧ holdsAt (buf [1, 2]) 0 (encTag 0x102) ∧ holdsAt (buf [1, 2, 3, 4]) 0 (encMetric 0x1020304)
    ∧ holdsAt (buf [1, 2, 3, 4]) 0 (encIpv4 ⟨1, 2, 3, 4⟩) := by
  refine ⟨⟨rfl, ?_⟩, ⟨rfl, ?_⟩, ⟨rfl, ?_⟩, ?_, ?_, ?_⟩ <;> (unfold holdsAt; decide)

/-- FieldCodecLaws, decode first. -/
theorem wit_fieldDecode :
    decAfi (buf [0, 2]) 0 = .ok (.ip, 2) ∧ decCmd (buf [0]) 0 = .ok (.invalid, 1)
    ∧ decVer (buf [3]) 0 = .ok (.unknown, 1) ∧ decVer (buf [2]) 0 = .ok (.version2, 1)
    ∧ decTag (buf [1, 2]) 0 = .ok (0x102, 2) ∧ decMetric (buf [1, 2, 3, 4]) 0 = .ok (0x1020304, 4)
    ∧ decIpv4 (buf [1, 2, 3, 4]) 0 = .ok (⟨1, 2, 3, 4⟩, 4) := ⟨rfl, rfl, rfl, rfl, rfl, rfl, rfl⟩

/-- RecordCodecLaws: named records whose bytes a buffer holds, and records that decode. -/
theorem wit_record :
    holdsAt (buf v1p) 0 (wireHdr .request .version1)
    ∧ holdsAt (buf e1) 0 (wireV1 ⟨.ip, 0, 0x0A000001, 0, 0, 1⟩)
    ∧ holdsAt (buf e2) 0 (wireV2 ⟨.ip, 258, 0xC0000264, 0xFFFFFF00, 0xC000026F, 67305985⟩)
    ∧ (∃ r, decHdr (buf [1, 255, 0, 0]) 0 = .ok r) ∧ (∃ r, decEnt1 (buf e1) 0 = .ok r)
    ∧ (∃ r, decEnt2 (buf e2) 0 = .ok r) := by
  refine ⟨?_, ?_, ?_, ⟨_, rfl⟩, ⟨_, rfl⟩, ⟨_, rfl⟩⟩ <;> (unfold holdsAt; decide)

/-- ParseThenSerialize, for the three parse operations. -/
theorem wit_parseThenSerialize :
    (∃ t, exec .parse (buf v1p) = .next t ∧ t.fail = false) ∧ (∃ t, exec .parseV1 (buf v1p) = .next t ∧ t.fail = false)
    ∧ (∃ t, exec .parseV2 (buf w1) = .next t ∧ t.fail = false) := ⟨⟨_, rfl, rfl⟩, ⟨_, rfl, rfl⟩, _, rfl, rfl⟩

/-- SerializeThenParse: a packet of one entry, and a buffer of its 24 bytes. -/
theorem wit_serializeThenParse :
    PktOk (pkt .v2 1) ∧ 1 ≤ (pkt .v2 1).pktN.toNat
    ∧ ∃ t, exec .serialize (pkt .v2 1) = .next t ∧ t.fail = false
      ∧ (buf ([1, 2, 0, 0] ++ List.replicate 20 0)).inLen = t.outLen.toNat
      ∧ ∀ k, k < 24 → (buf ([1, 2, 0, 0] ++ List.replicate 20 0)).inByte k = t.outByte k :=
  ⟨fun _ => by decide, by decide, _, rfl, rfl, by decide, by decide⟩

/-- EmptyPacketDoesNotRoundTrip. -/
theorem wit_emptyPacket :
    PktOk (pkt .v2 0) ∧ (pkt .v2 0).pktN = 0 ∧ (pkt .v2 0).pktCmd ≠ .unknown
    ∧ holdsAt (buf [1, 2, 0, 0]) 0 (wireHdr (pkt .v2 0).pktCmd (pkt .v2 0).pktVer) ∧ (buf [1, 2, 0, 0]).inLen = 4 :=
  ⟨fun _ => by decide, by decide, by decide, by unfold holdsAt; decide, by decide⟩

/-- FailureBookkeeping, ErrorCodesOfTable: a failed operation of each class, in a state that satisfies R203. -/
theorem wit_failure :
    PktOk start ∧ (∃ t, exec .readByte start = .next t ∧ t.fail = true)
    ∧ (∃ t, exec .serialize start = .next t ∧ t.fail = true) ∧ (∃ t, exec .parse start = .next t ∧ t.fail = true) :=
  ⟨fun h => absurd h (by decide), ⟨_, rfl, rfl⟩, ⟨_, rfl, rfl⟩, _, rfl, rfl⟩

/-- IllegalOpResult. -/
theorem wit_illegalOp : decodeOp start.op = none ∧ (1 : Word).getLsbD 0 = true ∧ start.runState ≠ .busy := by decide

/-- DecoderFrame, EncoderFrame, PacketFrame, OperationsKeepOpAndIn: an operation of each that succeeds. -/
theorem wit_frames :
    (∃ t, exec .decHdr (buf [1, 1, 0, 0]) = .next t ∧ t.fail = false)
    ∧ (∃ t, exec .encTag start = .next t ∧ t.fail = false) ∧ (∃ t, exec .makeV1 (pkt .v1 1) = .next t ∧ t.fail = false)
    ∧ writesOut .encTag = true ∧ writesPkt .makeV1 = true := ⟨⟨_, rfl, rfl⟩, ⟨_, rfl, rfl⟩, ⟨_, rfl, rfl⟩, rfl, rfl⟩

/-- OnlyTheBufferMatters. -/
theorem wit_onlyTheBuffer :
    ∀ k, k < (buf [1, 2]).inLen → State.inByte { buf [1, 2] with inMem := cells 0 [1, 2, 3] } k = (buf [1, 2]).inByte k := by
  decide

/-- EnumRegistersAreWarl: no BUSY; for each width the last value that is stored, the first that is not, and UNK = 1. -/
theorem wit_enum :
    start.runState ≠ .busy
    ∧ [0xFFFF#32, 0xFFFE#32, 0x10002#32, 0x20002#32].map afiReadBack = [0xFFFF, 0x10000, 0x10000, 2]
    ∧ [11#32, 12#32, 0x102#32].map cmdReadBack = [11, 0x100, 0x100]
    ∧ [2#32, 3#32, 0x102#32].map verReadBack = [2, 0x100, 0x100] := by decide

/-- PktWriteClearsValid: the first and the last content register. -/
theorem wit_pktWrite :
    (regAt 0x022 = some .pktCmd ∧ regPktContent .pktCmd = true ∧ (pkt .v1 1).runState ≠ .busy)
    ∧ (regAt 0x1C5 = some (.ent 24 .metric) ∧ regPktContent (.ent 24 .metric) = true) := by decide

/-- IgnoredWrites, RegisterMapIsInjective: a read-only register, and numbers of no register. -/
theorem wit_ignored :
    (regAt 0x002 = some .status ∧ regReadOnly .status = true) ∧ [0x00E, 0x01E, 0x106, 0x1C6, 0x1C8].map regAt
      = [none, none, none, none, none] := by decide

/-- WriteThenRead, HostInSpace: admissible parameters, no BUSY, the last index of IN and of OUT and the first that does
not exist, a length of IN_CAP with a bit above W_LEN, and a DONE state. -/
theorem wit_hostSpaces :
    start.par.wf = true ∧ start.runState ≠ .busy ∧ 1023 < start.par.inCap ∧ start.par.inCap ≤ 1024
    ∧ Reg.pktN ∈ [Reg.op, .cur, .cnt, .fvVal, .fvUnk, .pktN] ∧ EntField.metric ≠ .afi
    ∧ (0x10400 : Word).toNat % 2 ^ start.par.wLen ≤ start.par.inCap
    ∧ ({ start with runState := .done } : State).runState = .done := by decide

/-- HostInSpace: numbers of no register, below the slots and inside the last one. -/
theorem wit_unmapped : (∀ r, regNumber r ≠ 0x00E) ∧ (∀ r, regNumber r ≠ 0x1C6) := by
  constructor <;> intro r <;> cases r
  case left.er f => cases f <;> decide
  case right.er f => cases f <;> decide
  case left.ent i f => cases f <;> simp only [regNumber, entFieldNumber] <;> omega
  case right.ent i f => cases f <;> simp only [regNumber, entFieldNumber] <;> omega
  all_goals decide

/-- HostHazards: a BUSY state, a register of each sort, lengths of 1024 and 1025 in the W_LEN bits of a word, the last
index of IN and of OUT, and a START with every bit set. -/
theorem wit_hazards :
    ({ start with runState := .busy } : State).par.wf = true ∧ ({ start with runState := .busy } : State).runState = .busy
    ∧ (regAt 0x00A = some .cur ∧ regReadOnly .cur = false ∧ regIsResult .cur = true)
    ∧ (0x10400 : Word).toNat % 2 ^ start.par.wLen ≤ start.par.inCap
    ∧ start.par.inCap < (0x10401 : Word).toNat % 2 ^ start.par.wLen
    ∧ 1023 < start.par.inCap ∧ 503 < Config.outCap ∧ Config.outCap ≤ 504
    ∧ (0xFFFFFFFF : Word).getLsbD 0 = true := by decide

/-- StepRunsDecodedOperation: a START of PARSE, a write of 0 to START, nothing to do, and another action. -/
theorem wit_step :
    (({ start with op := 0x40, pending := [.writeReg 0x001 1] } : State).pending = .writeReg 0x001 1 :: []
      ∧ (1 : Word).getLsbD 0 = true ∧ start.runState ≠ .busy)
    ∧ decode [0x40] = .ok (.parse, []) ∧ (0 : Word).getLsbD 0 = false ∧ start.pending = []
    ∧ ({ start with pending := [.readReg 0x002] } : State).pending = .readReg 0x002 :: [] :=
  ⟨by decide, rfl, by decide, by decide, by decide⟩

/-- StepKeepsInv: a state with the invariant that holds bytes, and its step. -/
theorem wit_inv : BlockInv (buf w1) ∧ ∃ t, step (buf w1) = .next t := by
  refine ⟨⟨?_, ?_, ?_, ?_, ?_, ?_, ?_, ?_, ?_, ?_, fun h => absurd h (by decide), .inl ?_⟩, _, rfl⟩ <;> decide

/-- ValidPacketInvariant: a state with VALID = 1, and an action in it. -/
theorem wit_validPacket : PktOk (pkt .v1 25) ∧ (pkt .v1 25).pktValid = true
    ∧ ∃ t, busAct (.writeReg 0x001 1) { pkt .v1 25 with op := 0x50 } = .next t :=
  ⟨fun _ => by decide, by decide, _, rfl⟩

/-- ValidOnlyByMakeOrParse: MAKE_V1 sets VALID; a failed PARSE, a write to PKT content and a reset clear it. -/
theorem wit_validOnly :
    (∃ t, busAct (.writeReg 0x001 1) { start with op := 0x30, pktVer := .version1 } = .next t ∧ t.pktValid = true
      ∧ ({ start with op := 0x30, pktVer := .version1 } : State).pktValid = false)
    ∧ (∃ t, busAct (.writeReg 0x001 1) { pkt .v1 1 with op := 0x40 } = .next t ∧ t.pktValid = false)
    ∧ (∃ t, busAct (.writeReg 0x022 2) (pkt .v1 1) = .next t ∧ t.pktValid = false)
    ∧ (∃ t, busAct .reset (pkt .v2 1) = .next t ∧ t.pktValid = false ∧ t.pktKind = .v1)
    ∧ (pkt .v1 1).pktValid = true ∧ (pkt .v2 1).pktKind = .v2 :=
  ⟨⟨_, rfl, rfl, rfl⟩, ⟨_, rfl, rfl⟩, ⟨_, rfl, rfl⟩, ⟨_, rfl, rfl, rfl⟩, rfl, rfl⟩

/-- StopsOnlyOnBrokenDuty: actions that keep the duties, and actions that break them, outside BUSY and in it. -/
theorem wit_duty :
    start.par.wf = true ∧ hostDuty start (.writeReg 0x008 1024) ∧ ¬ hostDuty start (.writeReg 0x008 1025)
    ∧ hostDuty { start with runState := .busy } (.writeIn 1024 0)
    ∧ ¬ hostDuty { start with runState := .busy } (.writeIn 1023 0) := by
  refine ⟨by decide, ⟨fun _ => by decide, fun h => absurd h (by decide)⟩, fun h => ?_, fun _ => by decide, fun h => ?_⟩
  · exact absurd (h.1 rfl) (by decide)
  · exact absurd (h rfl) (by decide)

/-- DecodeMatchesEncode. -/
theorem wit_decode : Instr.wf .parse = true ∧ decodeOp 0x40 = some .parse ∧ decodeOp 0x00 = none := by decide

end Sys2Proof.Tests
end

section
/-! SUPPORT. The machine's invariant, kept by every step (O53, O54). One rule per state operation comes first: the
endings of an operation, the result registers it writes, and what the host stores. `exec_inv` puts them together over
`Ends`, and `busAct_inv` over the host's actions. -/

namespace Sys2Proof.Machine

/-! ## Reset -/

/-- R290: the reset values meet the invariant under any admissible parameters. -/
theorem blockInv_resetValues {p : Config.Params} (hp : p.wf = true) : BlockInv { State.reset with par := p } where
  par := hp
  inWf := rfl
  inBelow := rfl
  outWf := rfl
  outBelow := rfl
  inLen := Nat.zero_le _
  outLen := Nat.zero_le _
  cur := Nat.two_pow_pos _
  errOffset := Nat.two_pow_pos _
  notBusy := by simp [State.reset]
  pkt := by simp [PktOk, State.reset]
  err := .inl ⟨rfl, rfl, rfl, rfl, rfl, rfl⟩

/-- Settles O54: the parameters that reset takes are admissible, whatever the free picks are. -/
theorem resetHasInv : Obligations.ResetHasInv := blockInv_resetValues config_params_wf

section
variable {s t : State} (h : BlockInv s)
include h

/-- R292: reset in any state with admissible parameters. -/
theorem resetBlock_inv : BlockInv (resetBlock s) := { blockInv_resetValues h.par with }

/-! ## The endings of an operation -/

/-- R40: the W_LEN bits hold every position up to the larger of CUR and IN_LEN. -/
theorem lt_pow_of_le_cur_inLen {c : Nat} (hc : c ≤ max s.cur s.inLen) : c < 2 ^ s.par.wLen := by
  obtain ⟨-, -, hcap⟩ := (params_wf_iff s.par).mp h.par
  have hcur := h.cur
  have hlen := h.inLen
  omega

/-- R261: completion writes only STATUS and the ERR registers. -/
theorem complete_inv : BlockInv (complete s) :=
  { h with
    errOffset := Nat.two_pow_pos _
    notBusy := by simp
    err := complete_errOk s }

/-- R262: a raised error clears OUT_LEN or PKT.VALID at most, and its offset has W_LEN bits. -/
theorem raiseErr_inv (w : ResultClass) (e : Err) (ho : errOffsetOf e ≤ max s.cur s.inLen) :
    BlockInv (raiseErr w e s) :=
  { h with
    outLen := by
      rw [raiseErr_outLen]
      split
      · exact Nat.zero_le _
      · exact h.outLen
    errOffset := lt_pow_of_le_cur_inLen h ho
    notBusy := by simp
    pkt := fun hv => by
      rw [raiseErr_pktValid] at hv
      split at hv
      · cases hv
      · exact h.pkt hv
    err := raiseErr_errOk w e s }

/-! ## What an operation writes -/

/-- R42: CUR takes any value of W_LEN bits. -/
theorem setCur_inv {c : Nat} (hc : c < 2 ^ s.par.wLen) : BlockInv { s with cur := c } := { h with cur := hc }

/-- R67: at most 504 bytes committed to OUT stay inside its space. -/
theorem commitOut_inv {bs : List Byte} (hl : bs.length ≤ 504) : BlockInv (commitOut bs s) :=
  { h with
    outWf := Memory.wf_writeBytes _ _ _ h.outWf
    outBelow := Memory.below_writeBytes _ _ _ _ h.outBelow (by simpa using hl)
    outLen := by
      rw [commitOut_outLen, BitVec.toNat_ofNat, Nat.mod_eq_of_lt (by omega)]
      exact hl }

/-- R203, R223: a committed packet of at most 25 entries has the version of its kind. -/
theorem commitPacket_inv (k : PktKind) (cmd : CommandKind) {xs : List Slot} (hn : xs.length ≤ 25) :
    BlockInv (commitPacket k ⟨cmd, kindVersion k⟩ xs s) :=
  { h with
    pkt := fun _ => by
      refine ⟨?_, rfl⟩
      rw [commitPacket_pktN, BitVec.toNat_ofNat, Nat.mod_eq_of_lt (by omega)]
      exact hn }

/-- R201 to R203: construction in place after its two checks. -/
theorem made_inv {k : PktKind} (hv : s.pktVer = kindVersion k) (hn : s.pktN.toNat ≤ 25) :
    BlockInv { s with pktValid := true, pktKind := k } := { h with pkt := fun _ => ⟨hn, hv⟩ }

/-- Every operation keeps the invariant. -/
theorem exec_inv {i : Instr} (hx : exec i s = .next t) : BlockInv t := by
  cases exec_ends hx with
  | raised e _ ho => exact raiseErr_inv h _ e ho
  | fv v u c _ _ hc =>
    exact complete_inv { setCur_inv h (lt_pow_of_le_cur_inLen h (le_max_of_le_right hc)) with }
  | skipped c _ _ hc => exact complete_inv (setCur_inv h (lt_pow_of_le_cur_inLen h hc))
  | hr hd c _ _ hc =>
    exact complete_inv { setCur_inv h (lt_pow_of_le_cur_inLen h (le_max_of_le_right hc)) with }
  | er x c _ _ hc =>
    exact complete_inv { setCur_inv h (lt_pow_of_le_cur_inLen h (le_max_of_le_right hc)) with }
  | out bs _ hl => exact complete_inv (commitOut_inv h hl)
  | made k _ hv hn => exact complete_inv (made_inv h hv hn)
  | parsed k cmd xs _ hn => exact complete_inv (commitPacket_inv h k cmd hn)

/-! ## What the host does -/

/-- R33, R101, R265: START runs an operation or raises IllegalOp. -/
theorem startOp_inv (hx : startOp s = .next t) : BlockInv t := by
  rcases startOp_cases s with ⟨i, -, hs⟩ | ⟨-, hs⟩
  · exact exec_inv h (hs ▸ hx)
  · cases hs.symm.trans hx
    exact raiseErr_inv h .regs .illegalOp (Nat.zero_le _)

/-- R49: content written to PKT clears PKT.VALID, so R203 asks nothing of it. -/
theorem writePkt_inv (cmd : CommandKind) (ver : Version) (n : BitVec 8) (ent : Vector Slot 25) :
    BlockInv { s with pktCmd := cmd, pktVer := ver, pktN := n, pktEnt := ent, pktValid := false } :=
  { h with pkt := fun hv => by cases hv }

/-- R32 to R49: a stored host write to any register but CTRL and IN_LEN. -/
theorem regWrite_inv {r : Reg} {v : Word} (hctrl : r ≠ .ctrl) (hlen : r ≠ .inLen) (hx : regWrite r v s = .next t) :
    BlockInv t := by
  cases r with
  | ctrl => exact absurd rfl hctrl
  | inLen => exact absurd rfl hlen
  | status | errCode | errCause | errByte | errValue | errOffset | outLen | pktValid | pktKind =>
    cases hx; exact h
  | cur => obtain ⟨-, rfl⟩ := unlessBusy_next.mp hx; exact setCur_inv h (cutLen_lt h.par v)
  | op | cnt | fvVal | fvUnk | hrCmd | hrVer | er =>
    obtain ⟨-, rfl⟩ := unlessBusy_next.mp hx; exact { h with }
  | pktCmd | pktVer | pktN | ent => obtain ⟨-, rfl⟩ := unlessBusy_next.mp hx; exact writePkt_inv h _ _ _ _

/-- R51: a host write to the register space. -/
theorem busWriteReg_inv {n : Nat} {v : Word} (hx : busWriteReg n v s = .next t) : BlockInv t := by
  rcases busWriteReg_next hx with rfl | ⟨-, -, -, hs⟩ | ⟨hb, r, -, hctrl, ⟨-, hl, rfl⟩ | ⟨hlen, hw⟩⟩
  · exact h
  · exact startOp_inv h hs
  · exact { h with inLen := (lenLegal_iff h.par _).mp hl }
  · exact regWrite_inv h hctrl hlen (hw.trans (unlessBusy_ok hb))

/-- R60: a host write to the IN space; only an index below IN_CAP is stored. -/
theorem busWriteIn_inv {k : Nat} {b : Byte} (hx : busWriteIn k b s = .next t) : BlockInv t := by
  unfold busWriteIn at hx
  split at hx
  case isTrue hk =>
    obtain ⟨-, rfl⟩ := unlessBusy_next.mp hx
    exact
      { h with
        inWf := Memory.wf_write _ _ _ h.inWf
        inBelow := Memory.below_write _ _ _ _ h.inBelow ((inMapped_iff h.par k).mp hk) }
  case isFalse => cases hx; exact h

/-- R294, R296: what the host reads, the draws it makes and what it has left to do are no part of the invariant. -/
theorem host_inv (acts : List BusAction) (words : List Word) (draws : Nat) :
    BlockInv { s with pending := acts, seen := words, draws := draws } := { h with }

/-- R51: a host read of the register space. -/
theorem busReadReg_inv (n : Nat) : BlockInv (busReadReg n s) := by
  unfold busReadReg
  split
  · exact host_inv h _ _ _
  · split <;> exact host_inv h _ _ _

/-- R60: a host read of the OUT space. -/
theorem busReadOut_inv (k : Nat) : BlockInv (busReadOut k s) := by
  unfold busReadOut
  split
  · split <;> exact host_inv h _ _ _
  · exact host_inv h _ _ _

/-- R103: a poll of STATUS. -/
theorem busWait_inv : BlockInv (busWait s) := by
  unfold busWait
  split <;> exact host_inv h _ _ _

/-- Every host action keeps the invariant. -/
theorem busAct_inv {a : BusAction} (hx : busAct a s = .next t) : BlockInv t := by
  cases a with
  | writeReg n v => exact busWriteReg_inv h hx
  | readReg n => cases hx; exact busReadReg_inv h n
  | writeIn k b => exact busWriteIn_inv h hx
  | readIn k => cases hx; exact host_inv h _ _ _
  | writeOut k b => cases hx; exact h
  | readOut k => cases hx; exact busReadOut_inv h k
  | wait => cases hx; exact busWait_inv h
  | reset => cases hx; exact resetBlock_inv h

end

/-- Settles O53: a step is the host's next action, or nothing where the host has none. -/
theorem stepKeepsInv : Obligations.StepKeepsInv := by
  intro s t h hx
  unfold step busStep at hx
  split at hx
  case h_1 => cases hx; exact h
  case h_2 a rest _ => exact busAct_inv (host_inv h rest s.seen s.draws) hx

end Sys2Proof.Machine
end

section
/-! SUPPORT. The register map and one rule per host access (O44 to O51, O56, O57): the inverse of the map, what a host
write stores in each sort of register, what it reads back as, and what every operation and every host action leaves
unchanged. -/

namespace Sys2Proof.Machine

/-! ## The register map -/

/-- R51: a number that names an entry field is the field's number. -/
theorem entFieldAt_some {n : Nat} {f : EntField} (h : entFieldAt n = some f) : n = entFieldNumber f := by
  unfold entFieldAt at h
  split at h <;> cases h <;> rfl

/-- R51: a number in the area of the slots is 0x100 + 8i + f. -/
theorem entRegAt_some {n : Nat} {r : Reg} (h : entRegAt n = some r) : n = regNumber r := by
  unfold entRegAt at h
  split at h
  · cases h
  · split at h
    · obtain ⟨f, hf, rfl⟩ := Option.map_eq_some_iff.mp h
      have := entFieldAt_some hf
      simp only [regNumber]
      omega
    · cases h

/-- R51: a mapped number is the number of the register that it names. -/
theorem regAt_some {n : Nat} {r : Reg} (h : regAt n = some r) : n = regNumber r := by
  unfold regAt at h
  split at h
  case h_28 => exact entRegAt_some h
  all_goals cases h; rfl

/-- R51: the map resolves the number of a register to the register. -/
@[simp] theorem regAt_regNumber (r : Reg) : regAt (regNumber r) = some r := by
  cases r with
  | er f => cases f <;> rfl
  | ent i f =>
    obtain ⟨hafi, htag, haddr, hmask, hnh, hmetric⟩ := regAt_slot i
    have hn : regNumber (.ent i f) = 0x100 + entFieldNumber f + 8 * i.val := Nat.add_right_comm _ _ _
    rw [hn]
    cases f <;> assumption
  | _ => rfl

/-- R51: a number that is no register's is unmapped. -/
theorem regAt_none {n : Nat} (h : ∀ r, regNumber r ≠ n) : regAt n = none :=
  Option.eq_none_iff_forall_ne_some.mpr fun r hr => h r (regAt_some hr).symm

/-- R51: every register number lies below 0x1C8, the end of the last slot. -/
theorem regNumber_lt (r : Reg) : regNumber r < 0x1C8 := by
  have hf : ∀ f, entFieldNumber f < 6 := by intro f; cases f <;> decide
  cases r with
  | er f => have := hf f; simp only [regNumber]; omega
  | ent i f => have := hf f; simp only [regNumber]; omega
  | _ => simp [regNumber]

/-- Settles O47, by the two inverse laws of the register map; the tables of numbers and widths are read off it. -/
theorem registerMapIsInjective : Obligations.RegisterMapIsInjective :=
  ⟨fun r => ⟨regAt_regNumber r, regNumber_lt r⟩, fun _ _ => regAt_some, rfl, rfl, fun _ => rfl,
    fun _ => ⟨rfl, rfl, rfl, fun _ _ => rfl⟩⟩

/-! ## Entry fields -/

/-- R31, R46: what a written AFI field holds. -/
theorem slotWrite_afi (x : Slot) (v : Word) : slotWrite x .afi v = { x with afi := afiStored v } := by
  rw [slotWrite, afiWarl_eq]

/-- R46: what a written TAG field holds. -/
theorem slotWrite_tag (x : Slot) (v : Word) : slotWrite x .tag v = { x with tag := v.extractLsb' 0 16 } := by
  rw [slotWrite, setWidth16_eq]

/-! ## Host writes outside BUSY -/

/-- R33, R51: a host write to CTRL. -/
theorem busWriteReg_ctrl (v : Word) (s : State) : busWriteReg 0x001 v s = writeCtrl v s :=
  busWriteReg_at (n := 0x001) (r := .ctrl) rfl v s

/-- R40, R51: a host write to IN_LEN. -/
theorem busWriteReg_inLen (v : Word) (s : State) : busWriteReg 0x008 v s = writeInLen v s :=
  busWriteReg_at (n := 0x008) (r := .inLen) rfl v s

section
variable {n : Nat} {s : State} (hs : s.runState ≠ .busy)
include hs

/-- R46: a field of ER, written and read back. -/
theorem writesThenReads_er {f : EntField} {v w : Word} {x : Slot} (h : regAt n = some (.er f))
    (hx : slotWrite s.er f v = x) (hw : slotRead x f = w) : WritesThenReads n v s { s with er := x } w :=
  writesThenReads_of h hs (by rw [regWrite, hx]) rfl hw

/-- R48, R49: a field of a slot, written and read back. -/
theorem writesThenReads_slot {i : Fin 25} {f : EntField} {v w : Word} {x : Slot} (h : regAt n = some (.ent i f))
    (hx : slotWrite s.pktEnt[i] f v = x) (hw : slotRead x f = w) : WritesThenReads n v s (putSlot s i x) w :=
  writesThenReads_of h hs (by rw [regWrite, hx]; rfl) rfl (by rw [regRead, putSlot_get, hw])

/-- R46: the five fields of ER that are no enumeration. -/
theorem writesThenReads_er_fields (v : Word) :
    WritesThenReads 0x019 v s { s with er := { s.er with tag := v.extractLsb' 0 16 } }
      ((v.extractLsb' 0 16).setWidth 32)
    ∧ WritesThenReads 0x01A v s { s with er := { s.er with addr := v } } v
    ∧ WritesThenReads 0x01B v s { s with er := { s.er with mask := v } } v
    ∧ WritesThenReads 0x01C v s { s with er := { s.er with nh := v } } v
    ∧ WritesThenReads 0x01D v s { s with er := { s.er with metric := v } } v :=
  ⟨writesThenReads_er hs (f := .tag) rfl (slotWrite_tag _ v) rfl, writesThenReads_er hs (f := .addr) rfl rfl rfl,
    writesThenReads_er hs (f := .mask) rfl rfl rfl, writesThenReads_er hs (f := .nh) rfl rfl rfl,
    writesThenReads_er hs (f := .metric) rfl rfl rfl⟩

/-- R48: the five fields of a slot that are no enumeration. -/
theorem writesThenReads_slot_fields (v : Word) (i : Fin 25) :
    WritesThenReads (0x101 + 8 * i.val) v s (putSlot s i { s.pktEnt[i] with tag := v.extractLsb' 0 16 })
      ((v.extractLsb' 0 16).setWidth 32)
    ∧ WritesThenReads (0x102 + 8 * i.val) v s (putSlot s i { s.pktEnt[i] with addr := v }) v
    ∧ WritesThenReads (0x103 + 8 * i.val) v s (putSlot s i { s.pktEnt[i] with mask := v }) v
    ∧ WritesThenReads (0x104 + 8 * i.val) v s (putSlot s i { s.pktEnt[i] with nh := v }) v
    ∧ WritesThenReads (0x105 + 8 * i.val) v s (putSlot s i { s.pktEnt[i] with metric := v }) v := by
  obtain ⟨-, htag, haddr, hmask, hnh, hmetric⟩ := regAt_slot i
  exact ⟨writesThenReads_slot hs htag (slotWrite_tag _ v) rfl, writesThenReads_slot hs haddr rfl rfl,
    writesThenReads_slot hs hmask rfl rfl, writesThenReads_slot hs hnh rfl rfl,
    writesThenReads_slot hs hmetric rfl rfl⟩

/-- R31, R48: the AFI of a slot. -/
theorem writesThenReads_slot_afi (v : Word) (i : Fin 25) :
    WritesThenReads (0x100 + 8 * i.val) v s (putSlot s i { s.pktEnt[i] with afi := afiStored v }) (afiReadBack v) :=
  writesThenReads_slot hs (regAt_slot i).1 (slotWrite_afi _ v) (afiHeld_stored v)

/-- R48: PKT.N. -/
theorem writesThenReads_pktN (v : Word) :
    WritesThenReads 0x024 v s { s with pktN := v.extractLsb' 0 8, pktValid := false }
      ((v.extractLsb' 0 8).setWidth 32) :=
  writesThenReads_of (r := .pktN) rfl hs (by rw [regWrite, setWidth8_eq]) rfl rfl

/-- R31, R48: PKT.CMD. -/
theorem writesThenReads_pktCmd (v : Word) :
    WritesThenReads 0x022 v s { s with pktCmd := cmdStored v, pktValid := false } (cmdReadBack v) :=
  writesThenReads_of (r := .pktCmd) rfl hs (by rw [regWrite, cmdWarl_eq]) rfl (cmdHeld_stored v)

/-- R31, R48: PKT.VER. -/
theorem writesThenReads_pktVer (v : Word) :
    WritesThenReads 0x023 v s { s with pktVer := verStored v, pktValid := false } (verReadBack v) :=
  writesThenReads_of (r := .pktVer) rfl hs (by rw [regWrite, verWarl_eq]) rfl (verHeld_stored v)

/-- R48, R49: a stored write to the content of PKT. -/
theorem regWrite_pktContent {r : Reg} (hr : regPktContent r = true) (v : Word) :
    ∃ cmd ver k ent, regWrite r v s
      = .next { s with pktCmd := cmd, pktVer := ver, pktN := k, pktEnt := ent, pktValid := false } := by
  cases r with
  | pktCmd | pktVer | pktN | ent => exact ⟨_, _, _, _, unlessBusy_ok hs⟩
  | _ => cases hr

end

/-- n7: a host write to IN_LEN, judged and stored on W_LEN bits. -/
theorem writeInLen_eq {s : State} (hp : s.par.wf = true) (v : Word) :
    writeInLen v s =
      if v.toNat % 2 ^ s.par.wLen ≤ s.par.inCap then unlessBusy s { s with inLen := v.toNat % 2 ^ s.par.wLen }
      else .fault .hostInLenAboveCap := by
  simp only [writeInLen, lenLegal_iff hp, cutLen_eq hp]

/-! ## The word read back, cut to a width -/

/-- R46: the word that holds the low `k` bits of another. -/
theorem lowBits_word (v : Word) {k : Nat} : (v.extractLsb' 0 k).setWidth 32 = BitVec.ofNat 32 (v.toNat % 2 ^ k) := by
  apply BitVec.eq_of_toNat_eq
  simp

/-- The word whose 32 bits are all kept. -/
theorem ofNat_mod_word (v : Word) : BitVec.ofNat 32 (v.toNat % 2 ^ 32) = v := by
  rw [Nat.mod_eq_of_lt v.isLt, BitVec.ofNat_toNat, BitVec.setWidth_eq]

/-- The word of the lowest bit of another. -/
theorem lowBit_word (v : Word) : (if v.getLsbD 0 then 1 else 0) = BitVec.ofNat 32 (v.toNat % 2 ^ 1) := by
  have hb : v.getLsbD 0 = decide (v.toNat % 2 = 1) := by simp [BitVec.getLsbD, Nat.testBit_zero]
  rw [hb, Nat.pow_one]
  rcases Nat.mod_two_eq_zero_or_one v.toNat with h | h <;> simp [h]

section
variable {s : State} {v : Word} (hs : s.runState ≠ .busy)
include hs

/-- R32: OP. -/
theorem writesThenReads_op :
    WritesThenReads 0x000 v s { s with op := v.extractLsb' 0 8 } ((v.extractLsb' 0 8).setWidth 32) :=
  writesThenReads_of (r := .op) rfl hs (by rw [regWrite, setWidth8_eq]) rfl rfl

/-- R43: CNT. -/
theorem writesThenReads_cnt :
    WritesThenReads 0x00B v s { s with cnt := v.extractLsb' 0 16 } ((v.extractLsb' 0 16).setWidth 32) :=
  writesThenReads_of (r := .cnt) rfl hs (by rw [regWrite, setWidth16_eq]) rfl rfl

/-- R44: FV.VAL. -/
theorem writesThenReads_fvVal : WritesThenReads 0x00C v s { s with fvVal := v } v :=
  writesThenReads_of (r := .fvVal) rfl hs rfl rfl rfl

/-- R44: FV.UNK. -/
theorem writesThenReads_fvUnk :
    WritesThenReads 0x00D v s { s with fvUnk := v.getLsbD 0 } (if v.getLsbD 0 then 1 else 0) :=
  writesThenReads_of (r := .fvUnk) rfl hs rfl rfl rfl

/-- R42, n7: CUR takes W_LEN bits. -/
theorem writesThenReads_cur (hp : s.par.wf = true) :
    WritesThenReads 0x00A v s { s with cur := v.toNat % 2 ^ s.par.wLen } (BitVec.ofNat 32 (v.toNat % 2 ^ s.par.wLen)) :=
  writesThenReads_of (r := .cur) rfl hs (by rw [regWrite, cutLen_eq hp]) rfl rfl

/-- R40, n7: IN_LEN takes W_LEN bits that are at most IN_CAP. -/
theorem writesThenReads_inLen (hp : s.par.wf = true) (hv : v.toNat % 2 ^ s.par.wLen ≤ s.par.inCap) :
    WritesThenReads 0x008 v s { s with inLen := v.toNat % 2 ^ s.par.wLen }
      (BitVec.ofNat 32 (v.toNat % 2 ^ s.par.wLen)) :=
  writesThenReads_of (r := .inLen) rfl hs (by rw [regWrite, writeInLen_eq hp, if_pos hv]) rfl rfl

end

/-- The read of a register that the host has just written, by the register's width. -/
def ReadsBackCut (r : Reg) (v : Word) (s : State) : Prop :=
  ∃ t, busWriteReg (regNumber r) v s = .next t
    ∧ (busReadReg (regNumber r) t).seen = BitVec.ofNat 32 (v.toNat % 2 ^ regWidth s.par r) :: s.seen

/-- A write and read of a register at its number, where the word read is the word written cut to the width. -/
theorem readsBackCut_of {n : Nat} {r : Reg} {v w : Word} {s t : State} (hw : WritesThenReads n v s t w)
    (hn : regNumber r = n) (ht : t.seen = s.seen) (hcut : w = BitVec.ofNat 32 (v.toNat % 2 ^ regWidth s.par r)) :
    ReadsBackCut r v s := by
  subst hn
  exact ⟨t, hw.1, by rw [hw.2, readAs, ht, hcut]⟩

/-- R46: an entry field but AFI reads as the word written, cut to the field's width. -/
theorem slotRead_slotWrite (x : Slot) (v : Word) {f : EntField} (hf : f ≠ .afi) :
    slotRead (slotWrite x f v) f = BitVec.ofNat 32 (v.toNat % 2 ^ slotWidth f) := by
  cases f with
  | afi => exact absurd rfl hf
  | tag => rw [slotWrite_tag]; exact lowBits_word v
  | addr | mask | nh | metric => exact (ofNat_mod_word v).symm

/-- Settles O48, one rule per register; the cut read-back follows from the same rules. -/
theorem writeThenRead : Obligations.WriteThenRead := by
  constructor
  · intro s v hp hs
    obtain ⟨htag, haddr, hmask, hnh, hmetric⟩ := writesThenReads_er_fields hs v
    exact ⟨writesThenReads_op hs, writesThenReads_inLen hs hp, writesThenReads_cur hs hp, writesThenReads_cnt hs,
      writesThenReads_fvVal hs, writesThenReads_fvUnk hs, htag, haddr, hmask, hnh, hmetric,
      writesThenReads_pktN hs v, writesThenReads_slot_fields hs v⟩
  · intro s r v hp hs hr
    change ReadsBackCut r v s
    rcases hr with hr | ⟨f, hf, rfl⟩ | ⟨i, f, hf, rfl⟩
    · simp only [List.mem_cons, List.not_mem_nil, or_false] at hr
      rcases hr with rfl | rfl | rfl | rfl | rfl | rfl
      · exact readsBackCut_of (writesThenReads_op hs) rfl rfl (lowBits_word v)
      · exact readsBackCut_of (writesThenReads_cur hs hp) rfl rfl rfl
      · exact readsBackCut_of (writesThenReads_cnt hs) rfl rfl (lowBits_word v)
      · exact readsBackCut_of (writesThenReads_fvVal hs) rfl rfl (ofNat_mod_word v).symm
      · exact readsBackCut_of (writesThenReads_fvUnk hs) rfl rfl (lowBit_word v)
      · exact readsBackCut_of (writesThenReads_pktN hs v) rfl rfl (lowBits_word v)
    · exact readsBackCut_of (writesThenReads_er hs (regAt_regNumber _) rfl (slotRead_slotWrite _ v hf)) rfl rfl rfl
    · exact readsBackCut_of (writesThenReads_slot hs (regAt_regNumber _) rfl (slotRead_slotWrite _ v hf)) rfl rfl rfl

/-! ## Enumeration registers and the content of PKT -/

/-- R31: writing back the word that an AFI register reads as stores the same AFI. -/
theorem afiWarl_held (a : Afi) : afiWarl (afiHeld a) = a := by cases a <;> decide

/-- R31: the same for a command register. -/
theorem cmdWarl_held (k : CommandKind) : cmdWarl (cmdHeld k) = k := by cases k <;> decide

/-- R31: the same for a version register. -/
theorem verWarl_held (v : Version) : verWarl (verHeld v) = v := by cases v <;> decide

/-- Settles O44, by what each enumeration register stores and what the stored enumerant reads as. -/
theorem enumRegistersAreWarl : Obligations.EnumRegistersAreWarl := by
  refine ⟨fun s v hs => ⟨?hrCmd, ?hrVer, ?erAfi, writesThenReads_pktCmd hs v, writesThenReads_pktVer hs v,
    writesThenReads_slot_afi hs v⟩, fun v => ?_, fun v => ?_, fun v => ?_, afiWarl_held, cmdWarl_held, verWarl_held⟩
  case hrCmd => exact writesThenReads_of (r := .hrCmd) rfl hs (by rw [regWrite, cmdWarl_eq]) rfl (cmdHeld_stored v)
  case hrVer => exact writesThenReads_of (r := .hrVer) rfl hs (by rw [regWrite, verWarl_eq]) rfl (verHeld_stored v)
  case erAfi => exact writesThenReads_er hs (f := .afi) rfl (slotWrite_afi _ v) (afiHeld_stored v)
  · rw [afiWarl_eq, afiHeld_stored]
  · rw [cmdWarl_eq, cmdHeld_stored]
  · rw [verWarl_eq, verHeld_stored]

/-- Settles O45; the stored values are those of the rules for a write that is read back. -/
theorem pktWriteClearsValid : Obligations.PktWriteClearsValid := by
  constructor
  · intro s n r v hr hc hs
    obtain ⟨cmd, ver, k, ent, hw⟩ := regWrite_pktContent hs hc v
    exact ⟨_, (busWriteReg_at hr v s).trans hw, rfl, rfl⟩
  · intro s v hs
    refine ⟨(writesThenReads_pktCmd hs v).1, (writesThenReads_pktVer hs v).1, (writesThenReads_pktN hs v).1,
      fun i => ⟨(writesThenReads_slot_afi hs v i).1, ?_⟩⟩
    obtain ⟨htag, haddr, hmask, hnh, hmetric⟩ := writesThenReads_slot_fields hs v i
    exact ⟨htag.1, haddr.1, hmask.1, hnh.1, hmetric.1⟩

/-! ## Host acts while BUSY -/

/-- R296: a free value cut to a width is below the width's power of 2. -/
theorem draw_lt (v : Word) (width : Nat) : (BitVec.ofNat 32 (v.toNat % 2 ^ width)).toNat < 2 ^ width := by
  rw [BitVec.toNat_ofNat]
  exact (Nat.mod_le _ _).trans_lt (Nat.mod_lt _ (Nat.two_pow_pos _))

/-- R296, n5: a read of unspecified contents gives some value of the width. -/
theorem noteDraw_spec (s : State) (width : Nat) :
    ∃ w : Word, w.toNat < 2 ^ width ∧ noteDraw s width = { s with seen := w :: s.seen, draws := s.draws + 1 } :=
  ⟨_, draw_lt _ _, rfl⟩

section
variable {s : State} (hb : s.runState = .busy)
include hb

/-- R33, R295: START while BUSY has no move. -/
theorem writeCtrl_busy {v : Word} (hv : v.getLsbD 0 = true) : writeCtrl v s = .fault .hostStartWhileBusy := by
  rw [writeCtrl, if_pos hv, if_pos hb]

/-- R294, R295: a write while BUSY to a register that stores it has no move. -/
theorem regWrite_busy {r : Reg} (hro : regReadOnly r = false) (hctrl : r ≠ .ctrl) (hlen : r ≠ .inLen) (v : Word) :
    regWrite r v s = .fault .hostWriteWhileBusy := by
  cases r with
  | ctrl => exact absurd rfl hctrl
  | inLen => exact absurd rfl hlen
  | status | errCode | errCause | errByte | errValue | errOffset | outLen | pktValid | pktKind => cases hro
  | _ => exact unlessBusy_busy hb

/-- R40, R295: a write to IN_LEN while BUSY has no move, whatever the length. -/
theorem writeInLen_busy (hp : s.par.wf = true) (v : Word) :
    writeInLen v s = .fault
      (if v.toNat % 2 ^ s.par.wLen ≤ s.par.inCap then .hostWriteWhileBusy else .hostInLenAboveCap) := by
  rw [writeInLen_eq hp, unlessBusy_busy hb]
  split <;> rfl

/-- R60, R295: a write to an IN byte while BUSY has no move. -/
theorem busWriteIn_busy (hp : s.par.wf = true) {k : Nat} (hk : k < s.par.inCap) (b : Byte) :
    busWriteIn k b s = .fault .hostWriteWhileBusy := by
  rw [busWriteIn, if_pos ((inMapped_iff hp k).mpr hk), unlessBusy_busy hb]

/-- R296: a read of an OUT byte while BUSY. -/
theorem busReadOut_busy {k : Nat} (hk : k < 504) : busReadOut k s = noteDraw s 8 := by
  rw [busReadOut, if_pos hk, if_pos hb]

end

/-- R60: an OUT index that does not exist reads 0. -/
theorem busReadOut_unmapped {k : Nat} (hk : 504 ≤ k) (s : State) : busReadOut k s = readAs s 0 :=
  if_neg (Nat.not_lt.mpr hk)

/-- Settles O50, one rule per act: while BUSY the writes are faults and the reads are draws. -/
theorem hostHazards : Obligations.HostHazards := by
  intro s hp
  refine ⟨fun hb => ⟨fun v hv => ?_, fun n r v hr hro hctrl hin => ?_, fun v => ?_, fun k b hk => ?_,
    fun n r hr hres => ?_, fun k hk => ?_, fun k hk => busReadOut_unmapped hk s⟩, fun hs v => ?_⟩
  · exact (busWriteReg_ctrl v s).trans (writeCtrl_busy hb hv)
  · exact (busWriteReg_at hr v s).trans (regWrite_busy hb hro hctrl hin v)
  · exact (busWriteReg_inLen v s).trans (writeInLen_busy hb hp v)
  · exact busWriteIn_busy hb hp hk b
  · rw [busReadReg_busy hr hb hres]
    exact noteDraw_spec _ _
  · rw [busReadOut_busy hb hk]
    exact noteDraw_spec _ _
  · rw [busWriteReg_inLen, writeInLen_eq hp, unlessBusy_ok hs]

/-- R51, R294: a read-only register ignores a write. -/
theorem regWrite_readOnly {r : Reg} (h : regReadOnly r = true) (v : Word) (s : State) : regWrite r v s = .next s := by
  cases r with
  | status | errCode | errCause | errByte | errValue | errOffset | outLen | pktValid | pktKind => rfl
  | _ => cases h

/-- Settles O46, by the two sorts of number that ignore a write. -/
theorem ignoredWrites : Obligations.IgnoredWrites := by
  refine ⟨fun s n v h => ?_, fun s k b => rfl⟩
  cases hr : regAt n with
  | none => simp only [busWriteReg, hr]
  | some r => rw [busWriteReg_at hr, regWrite_readOnly (h r hr)]

/-! ## Host reads -/

/-- R60: a host read of the IN space. -/
theorem busReadIn_eq {s : State} (hp : s.par.wf = true) (k : Nat) :
    busReadIn k s = readAs s (if k < s.par.inCap then (s.inByte k).setWidth 32 else 0) := by
  simp only [busReadIn, inMapped_iff hp]; rfl

/-- R60: a host read of the OUT space outside BUSY. -/
theorem busReadOut_eq {s : State} (hs : s.runState ≠ .busy) (k : Nat) :
    busReadOut k s = readAs s (if k < 504 then (s.outByte k).setWidth 32 else 0) := by
  by_cases hk : k < 504
  · rw [busReadOut, if_pos hk, if_neg hs, if_pos hk]; rfl
  · rw [busReadOut_unmapped (Nat.le_of_not_lt hk), if_neg hk]

/-- A byte stored in IN reads as stored. -/
theorem inByte_write_same (s : State) (k : Nat) (b : Byte) :
    State.inByte { s with inMem := s.inMem.write k b } k = b := by simp [State.inByte]

/-- A byte stored in IN leaves the other bytes. -/
theorem inByte_write_ne (s : State) {j k : Nat} (b : Byte) (h : j ≠ k) :
    State.inByte { s with inMem := s.inMem.write k b } j = s.inByte j := by
  simp only [State.inByte, Memory.read_write_ne _ _ h]

/-- R34: the two spellings of the STATUS word. -/
theorem statusWord_eq (s : State) : statusWord s.runState s.fail = statusReads s := by
  unfold statusWord statusReads runStateCode
  cases s.runState <;> rfl

/-- R34: the STATUS word in DONE. -/
theorem statusWord_done (fail : Bool) : statusWord .done fail = if fail then 0x6 else 0x2 := by
  cases fail <;> rfl

/-- R103: a wait in DONE reads STATUS once and ends. -/
theorem busWait_done {s : State} (h : s.runState = .done) : busWait s = readAs s (if s.fail then 0x6 else 0x2) := by
  rw [busWait, if_pos h, h, statusWord_done]; rfl

/-- R47: the word that PKT.KIND reads as. -/
theorem pktKind_word (k : PktKind) : (if k = .v2 then 1 else 0 : Word) = match k with | .v1 => 0 | .v2 => 1 := by
  cases k <;> rfl

/-- Settles O49: a read is `readAs` of what the register or the buffer holds. -/
theorem hostInSpace : Obligations.HostInSpace := by
  refine ⟨fun s k b hp hs => ⟨fun hk => ?_, fun hk => ⟨?_, ?_⟩⟩, fun s k hp => busReadIn_eq hp k,
    fun s k hs => busReadOut_eq hs k, fun s n h => busReadReg_none (regAt_none h) s,
    fun s h => congrArg _ (busWait_done h), fun s => ?_, fun s hs => ?_⟩
  · refine ⟨{ s with inMem := s.inMem.write k b }, ?_, rfl, inByte_write_same s k b,
      fun j hj => inByte_write_ne s b hj, ?_⟩
    · exact (if_pos ((inMapped_iff hp k).mpr hk)).trans (unlessBusy_ok hs)
    · exact (busReadIn_eq (s := { s with inMem := s.inMem.write k b }) hp k).trans
        (by rw [if_pos hk, inByte_write_same])
  · exact if_neg fun h => Nat.not_lt.mpr hk ((inMapped_iff hp k).mp h)
  · rw [busReadIn_eq hp, if_neg (Nat.not_lt.mpr hk)]; rfl
  · have fixed : ∀ n r, regAt n = some r → regIsResult r = false → busReadReg n s = readAs s (regRead s r) :=
      fun n r h hr => busReadReg_at h (.inr hr)
    exact ⟨fixed _ .op rfl rfl, fixed _ .ctrl rfl rfl, (fixed _ .status rfl rfl).trans (congrArg _ (statusWord_eq s)),
      fixed _ .inLen rfl rfl, fixed _ .cnt rfl rfl⟩
  · have read : ∀ n r, regAt n = some r → busReadReg n s = readAs s (regRead s r) :=
      fun n r h => busReadReg_at h (.inl hs)
    refine ⟨read _ .errCode rfl, read _ .errCause rfl, read _ .errByte rfl, read _ .errValue rfl, read _ .errOffset rfl,
      read _ .outLen rfl, read _ .cur rfl, read _ .fvVal rfl, read _ .fvUnk rfl, read _ .hrCmd rfl, read _ .hrVer rfl,
      read _ (.er .afi) rfl, read _ (.er .tag) rfl, read _ (.er .addr) rfl, read _ (.er .mask) rfl,
      read _ (.er .nh) rfl, read _ (.er .metric) rfl, read _ .pktValid rfl,
      (read _ .pktKind rfl).trans (congrArg _ (pktKind_word s.pktKind)), read _ .pktCmd rfl, read _ .pktVer rfl,
      read _ .pktN rfl, fun i => ?_⟩
    obtain ⟨hafi, htag, haddr, hmask, hnh, hmetric⟩ := regAt_slot i
    exact ⟨read _ _ hafi, read _ _ htag, read _ _ haddr, read _ _ hmask, read _ _ hnh, read _ _ hmetric⟩

/-! ## One step -/

/-- R300: a step performs the host's next action in the state with the action taken off. -/
theorem step_cons {s : State} {a : BusAction} {rest : List BusAction} (h : s.pending = a :: rest) :
    step s = busAct a { s with pending := rest } := by
  rw [step, busStep, h]

/-- R272: a step with nothing to do. -/
theorem step_nil {s : State} (h : s.pending = []) : step s = .next s := by
  rw [step, busStep, h]

/-- R33, R101: a START strobe outside BUSY runs what OP decodes to. -/
theorem writeCtrl_start {s : State} {v : Word} {i : Instr} (hv : v.getLsbD 0 = true) (hs : s.runState ≠ .busy)
    (hd : decode [s.op] = .ok (i, [])) : writeCtrl v s = exec i s := by
  rw [writeCtrl, if_pos hv, if_neg hs, startOp, hd]

/-- R33: a write of 0 to START has no effect. -/
theorem writeCtrl_zero {v : Word} (hv : v.getLsbD 0 = false) (s : State) : writeCtrl v s = .next s := by
  rw [writeCtrl, if_neg (Bool.eq_false_iff.mp hv)]

/-- Settles O51, through the step and the START strobe. -/
theorem stepRunsDecodedOperation : Obligations.StepRunsDecodedOperation := by
  refine ⟨fun s i v rest h hv hs hd => (step_cons h).trans ?_, fun s v rest h hv => (step_cons h).trans ?_,
    fun _ => step_nil, fun _ _ _ => step_cons, fun s n v => ⟨rfl, rfl, rfl, rfl⟩⟩
  · exact (busWriteReg_ctrl v _).trans (writeCtrl_start hv hs hd)
  · exact (busWriteReg_ctrl v _).trans (writeCtrl_zero hv _)

/-! ## What operations and host actions leave unchanged -/

/-- R262: only an operation that writes PKT clears PKT.VALID when it fails. -/
theorem resultClass_ne_packet {i : Instr} (h : writesPkt i = false) : resultClass i ≠ .packet := by
  unfold resultClass
  rw [h]
  split <;> decide

/-- R5, R6, R32, R40, R43: no operation writes the selected operation, the parameters, IN, CNT or the host's part. -/
theorem exec_keeps_inputs {i : Instr} {s t : State} (h : exec i s = .next t) :
    t.op = s.op ∧ t.par = s.par ∧ t.inMem = s.inMem ∧ t.inLen = s.inLen ∧ t.cnt = s.cnt ∧ t.epoch = s.epoch
      ∧ t.pending = s.pending ∧ t.seen = s.seen ∧ t.draws = s.draws := by
  cases exec_ends h with
  | raised | fv | skipped | hr | er | out | made | parsed => exact ⟨rfl, rfl, rfl, rfl, rfl, rfl, rfl, rfl, rfl⟩

/-- R47: an operation that does not write PKT keeps PKT.VALID and PKT.KIND. -/
theorem exec_keeps_pkt {i : Instr} {s t : State} (hi : writesPkt i = false) (h : exec i s = .next t) :
    t.pktValid = s.pktValid ∧ t.pktKind = s.pktKind := by
  cases exec_ends h with
  | raised => exact ⟨if_neg (resultClass_ne_packet hi), rfl⟩
  | made k hm => rcases hm with rfl | rfl <;> cases hi
  | parsed k cmd xs hp => rcases hp with rfl | rfl | rfl <;> cases hi
  | fv | skipped | hr | er | out => exact ⟨rfl, rfl⟩

/-- The parameters, PKT.VALID and PKT.KIND are as before. -/
structure KeepsParPkt (s t : State) : Prop where
  par : t.par = s.par
  valid : t.pktValid = s.pktValid
  kind : t.pktKind = s.pktKind

/-- What a host action does with the parameters, PKT.VALID and PKT.KIND. -/
inductive ActEnds (s t : State) : BusAction → Prop where
  /-- R33: the START strobe. -/
  | started (v : Word) (hv : v.getLsbD 0 = true) (hs : startOp s = .next t) : ActEnds s t (.writeReg 0x001 v)
  /-- R49: a write to the content of PKT. -/
  | content (n : Nat) (v : Word) (r : Reg) (hr : regAt n = some r) (hc : regPktContent r = true)
      (hpar : t.par = s.par) (hvalid : t.pktValid = false) (hkind : t.pktKind = s.pktKind) :
      ActEnds s t (.writeReg n v)
  /-- R290: reset. -/
  | reset (ht : t = resetBlock s) : ActEnds s t .reset
  /-- Any other action. -/
  | other (a : BusAction) (h : KeepsParPkt s t) : ActEnds s t a

/-- R32 to R48: a stored write to a register outside PKT. -/
theorem regWrite_keepsParPkt {r : Reg} {v : Word} {s t : State} (hctrl : r ≠ .ctrl) (hc : regPktContent r = false)
    (h : regWrite r v s = .next t) : KeepsParPkt s t := by
  cases r with
  | ctrl => exact absurd rfl hctrl
  | pktCmd | pktVer | pktN | ent => cases hc
  | status | errCode | errCause | errByte | errValue | errOffset | outLen | pktValid | pktKind =>
    cases h; exact ⟨rfl, rfl, rfl⟩
  | inLen =>
    simp only [regWrite, writeInLen] at h
    split at h
    · obtain ⟨-, rfl⟩ := unlessBusy_next.mp h; exact ⟨rfl, rfl, rfl⟩
    · cases h
  | _ => obtain ⟨-, rfl⟩ := unlessBusy_next.mp h; exact ⟨rfl, rfl, rfl⟩

/-- R51: a host write to the register space. -/
theorem busWriteReg_ends {n : Nat} {v : Word} {s t : State} (h : busWriteReg n v s = .next t) :
    ActEnds s t (.writeReg n v) := by
  rcases busWriteReg_next h with rfl | ⟨hr, hv, -, hs⟩ | ⟨hs, r, hr, hctrl, -⟩
  · exact .other _ ⟨rfl, rfl, rfl⟩
  · cases regAt_some hr
    exact .started v hv hs
  · rw [busWriteReg_at hr] at h
    cases hc : regPktContent r with
    | true =>
      obtain ⟨cmd, ver, k, ent, hw⟩ := regWrite_pktContent hs hc v
      cases hw.symm.trans h
      exact .content n v r hr hc rfl rfl rfl
    | false => exact .other _ (regWrite_keepsParPkt hctrl hc h)

/-- R60: a host write to the IN space. -/
theorem busWriteIn_keepsParPkt {k : Nat} {b : Byte} {s t : State} (h : busWriteIn k b s = .next t) :
    KeepsParPkt s t := by
  unfold busWriteIn at h
  split at h
  · obtain ⟨-, rfl⟩ := unlessBusy_next.mp h; exact ⟨rfl, rfl, rfl⟩
  · cases h; exact ⟨rfl, rfl, rfl⟩

/-- R51, R296: a host read of the register space. -/
theorem busReadReg_keepsParPkt (n : Nat) (s : State) : KeepsParPkt s (busReadReg n s) := by
  unfold busReadReg
  split
  · exact ⟨rfl, rfl, rfl⟩
  · split <;> exact ⟨rfl, rfl, rfl⟩

/-- R60, R296: a host read of the OUT space. -/
theorem busReadOut_keepsParPkt (k : Nat) (s : State) : KeepsParPkt s (busReadOut k s) := by
  unfold busReadOut
  split
  · split <;> exact ⟨rfl, rfl, rfl⟩
  · exact ⟨rfl, rfl, rfl⟩

/-- R103: a poll of STATUS. -/
theorem busWait_keepsParPkt (s : State) : KeepsParPkt s (busWait s) := by
  unfold busWait
  split <;> exact ⟨rfl, rfl, rfl⟩

/-- R294: every host action. -/
theorem busAct_ends {a : BusAction} {s t : State} (h : busAct a s = .next t) : ActEnds s t a := by
  cases a with
  | writeReg n v => exact busWriteReg_ends h
  | readReg n => cases h; exact .other _ (busReadReg_keepsParPkt n s)
  | writeIn k b => exact .other _ (busWriteIn_keepsParPkt h)
  | readIn k => cases h; exact .other _ ⟨rfl, rfl, rfl⟩
  | writeOut k b => cases h; exact .other _ ⟨rfl, rfl, rfl⟩
  | readOut k => cases h; exact .other _ (busReadOut_keepsParPkt k s)
  | wait => cases h; exact .other _ (busWait_keepsParPkt s)
  | reset => cases h; exact .reset rfl

/-- R6: START keeps the parameters. -/
theorem startOp_par {s t : State} (h : startOp s = .next t) : t.par = s.par := by
  rcases startOp_cases s with ⟨i, -, hx⟩ | ⟨-, hx⟩
  · obtain ⟨-, hpar, -⟩ := exec_keeps_inputs (hx.symm.trans h)
    exact hpar
  · cases hx.symm.trans h; rfl

/-- R6: no host action changes the parameters. -/
theorem busAct_par {a : BusAction} {s t : State} (h : busAct a s = .next t) : t.par = s.par := by
  cases busAct_ends h with
  | started v hv hs => exact startOp_par hs
  | content n v r hr hc hpar => exact hpar
  | reset ht => rw [ht, resetBlock_par]
  | other _ hk => exact hk.par

/-- R33: a START that changes PKT.VALID or PKT.KIND runs an operation that writes PKT. -/
theorem startOp_changes_pkt {s t : State} (h : startOp s = .next t)
    (hd : t.pktValid ≠ s.pktValid ∨ t.pktKind ≠ s.pktKind) : ∃ i, decodeOp s.op = some i ∧ writesPkt i = true := by
  rcases startOp_cases s with ⟨i, hi, hx⟩ | ⟨-, hx⟩
  · refine ⟨i, hi, ?_⟩
    by_contra hw
    obtain ⟨hvalid, hkind⟩ := exec_keeps_pkt (Bool.eq_false_of_not_eq_true hw) (hx.symm.trans h)
    exact hd.elim (· hvalid) (· hkind)
  · cases hx.symm.trans h
    exact (hd.elim (· rfl) (· rfl)).elim

/-- Settles O56, by what each host action does with PKT. -/
theorem validOnlyByMakeOrParse : Obligations.ValidOnlyByMakeOrParse := by
  intro a s t h hd
  cases busAct_ends h with
  | started v hv hs =>
    obtain ⟨i, hi, hw⟩ := startOp_changes_pkt hs hd
    exact .inl ⟨v, i, rfl, hv, hi, hw⟩
  | content n v r hr hc _ hvalid hkind => exact .inr (.inl ⟨n, v, r, rfl, hr, hc, hvalid, hkind⟩)
  | reset ht => subst ht; exact .inr (.inr ⟨rfl, rfl, rfl⟩)
  | other _ hk => exact (hd.elim (· hk.valid) (· hk.kind)).elim

/-- Settles O57, by the forms of an operation's end; a step is the host's next action or nothing. -/
theorem operationsKeepOpAndIn : Obligations.OperationsKeepOpAndIn := by
  refine ⟨fun i s t h => exec_keeps_inputs h, fun s t h => ?_⟩
  cases hpend : s.pending with
  | nil => cases (step_nil hpend).symm.trans h; rfl
  | cons a rest =>
    have hpar := busAct_par ((step_cons hpend).symm.trans h)
    exact hpar

end Sys2Proof.Machine
end

section
/-! SUPPORT. The frame of the operations that write OUT (O41): how an encoding operation ends, and what OUT holds
after it. -/

namespace Sys2Proof.Machine

/-- R262: the operations that write OUT are the class whose failure clears OUT_LEN. -/
theorem resultClass_of_writesOut {i : Instr} (h : writesOut i = true) : resultClass i = .out := by
  rw [resultClass, h, if_pos rfl]

/-- R120: no operation writes both OUT and FV. -/
theorem decodesFv_of_writesOut {i : Instr} (h : writesOut i = true) : decodesFv i = false := by
  cases i with
  | encAfi | encCmd | encVer | encTag | encMetric | encIpv4 | encHdr | encEnt1 | encEnt2
  | serV1 | serV2 | serialize => rfl
  | _ => cases h

/-- R67, R262: an operation that writes OUT fails, or commits at most 504 bytes. -/
theorem exec_writesOut_cases {i : Instr} {s t : State} (hi : writesOut i = true) (h : exec i s = .next t) :
    (∃ e, t = raiseErr .out e s) ∨ ∃ bs : List Byte, bs.length ≤ 504 ∧ t = complete (commitOut bs s) := by
  cases exec_ends h with
  | raised e => exact .inl ⟨e, by rw [resultClass_of_writesOut hi]⟩
  | out bs _ hl => exact .inr ⟨bs, hl, rfl⟩
  | fv _ _ _ hd => cases (decodesFv_of_writesOut hi).symm.trans hd
  | skipped _ hd => subst hd; cases hi
  | hr _ _ hd => subst hd; cases hi
  | er _ _ hd | made _ hd => rcases hd with rfl | rfl <;> cases hi
  | parsed _ _ _ hd => rcases hd with rfl | rfl | rfl <;> cases hi

/-- R41: OUT_LEN holds the length of any encoding. -/
theorem commitOut_outLen_toNat {bs : List Byte} (s : State) (hl : bs.length ≤ 504) :
    (commitOut bs s).outLen.toNat = bs.length := by
  rw [commitOut_outLen, BitVec.toNat_ofNat, Nat.mod_eq_of_lt (by omega)]

/-- Settles O41: a failure writes no byte of OUT, and a commit only those below the new OUT_LEN. -/
theorem encoderFrame : Obligations.EncoderFrame := by
  intro i s t h hi
  rcases exec_writesOut_cases hi h with ⟨e, rfl⟩ | ⟨bs, hl, rfl⟩
  · exact ⟨rfl, fun _ => rfl, fun _ _ => rfl, fun _ => rfl, Nat.zero_le _⟩
  · have hlen : (complete (commitOut bs s)).outLen.toNat = bs.length := commitOut_outLen_toNat s hl
    obtain ⟨-, -, habove⟩ := encodedAs_commitOut s bs
    rw [hlen]
    exact ⟨rfl, fun _ => rfl, habove, fun hf => (by cases hf), hl⟩

end Sys2Proof.Machine
end

section
/-! SUPPORT. No operation depends on IN from IN_LEN on (O43). A parse reads at most 504 bytes of the buffer; and two
states that differ in IN alone, where it is no part of the buffer, end alike: a reader of the buffer by its own
`_congr` lemma, every other operation because it does not read IN. -/

namespace Sys2Proof.Machine

/-! ## What a parse reads -/

section
variable {s s' : State} (h : SameBuf s s' 504)
include h

/-- R222: the loop after the header reads 25 entries at most. -/
theorem entryLoop_congr {ε : Type} {dec : State → Nat → Except Err (ε × Nat)}
    (hn : ∀ c r, dec s c = .ok r → r.2 = c + 20)
    (hd : ∀ c, SameBuf s s' (c + 20) → dec s' c = dec s c) :
    entryLoop s' (dec s') 4 = entryLoop s (dec s) 4 := by
  have hloop : entriesFrom s' (dec s') Config.maxEntries 4 = entriesFrom s (dec s) Config.maxEntries 4 :=
    entriesFrom_congr h.len hn fun i (hi : i < 25) => hd _ (SameBuf_mono h (by omega))
  rw [entryLoop, entryLoop, h.len, hloop]

/-- R220: the v1 arm. -/
theorem parseBodyV1_congr (hd : Header) : parseBodyV1 s' hd 4 = parseBodyV1 s hd 4 := by
  rw [parseBodyV1, parseBodyV1, entryLoop_congr h (fun c r hr => by rw [(decEnt1_inv hr).2]) fun _ => decEnt1_congr]

/-- R220: the v2 arm. -/
theorem parseBodyV2_congr (hd : Header) : parseBodyV2 s' hd 4 = parseBodyV2 s hd 4 := by
  rw [parseBodyV2, parseBodyV2, entryLoop_congr h (fun c r hr => by rw [(decEnt2_inv hr).2]) fun _ => decEnt2_congr]

/-- R220 to R225: what follows the header at cursor 0 may rely on the cursor being 4. -/
theorem decHdr_bind_congr {β : Type} {f f' : Header × Nat → Except Err β} (hf : ∀ hd, f' (hd, 4) = f (hd, 4)) :
    (decHdr s' 0 >>= f') = (decHdr s 0 >>= f) := by
  refine bind_congr_ok (decHdr_congr (SameBuf_mono h (by omega))) fun r hr => ?_
  rw [(decHdr_inv hr).2]
  exact hf _

/-- R220. -/
theorem parse_congr : parse s' = parse s := by
  refine decHdr_bind_congr h fun hd => ?_
  simp only [parseBodyV1_congr h, parseBodyV2_congr h]

/-- R224. -/
theorem parseV1_congr : parseV1 s' = parseV1 s :=
  decHdr_bind_congr h fun hd => by simp only [parseBodyV1_congr h]

/-- R225. -/
theorem parseV2_congr : parseV2 s' = parseV2 s :=
  decHdr_bind_congr h fun hd => by simp only [parseBodyV2_congr h]

end

/-! ## Outcomes that are equal but for the content of IN -/

/-- `s` with another content of IN. -/
def setIn (m : Memory) (s : State) : State := { s with inMem := m }

/-- Both outcomes are next states, the second being the first with `m` in IN. -/
def SameButIn (m : Memory) (o o' : Host.Outcome State Fault Refusal) : Prop :=
  ∃ t, o = .next t ∧ o' = .next (setIn m t)

section
variable (m : Memory) (s : State)

@[simp] theorem setIn_pktVer : (setIn m s).pktVer = s.pktVer := rfl
@[simp] theorem setIn_pktN : (setIn m s).pktN = s.pktN := rfl

/-- An ending does not read IN. -/
theorem finish_sameButIn (w : ResultClass) (r : Except Err State) :
    SameButIn m (finish w s r) (finish w (setIn m s) (r.map (setIn m))) := by
  cases r with
  | ok u => exact ⟨_, rfl, rfl⟩
  | error e => exact ⟨_, rfl, rfl⟩

/-- An operation ends alike if what it reads is the same and what it does with that does not read IN. -/
theorem finish_bind_sameButIn {α : Type} (w : ResultClass) {x x' : Except Err α} {f f' : α → Except Err State}
    (hx : x' = x) (hf : ∀ a, f' a = (f a).map (setIn m)) :
    SameButIn m (finish w s (x >>= f)) (finish w (setIn m s) (x' >>= f')) := by
  subst hx
  cases x' with
  | ok a =>
    rw [ok_bind, ok_bind, hf a]
    exact finish_sameButIn m s w (f a)
  | error e => exact finish_sameButIn m s w (.error e)

/-- R67: an encoding of bytes that do not depend on IN. -/
theorem finishOut_sameButIn (r : Except Err (List Byte)) : SameButIn m (finishOut s r) (finishOut (setIn m s) r) := by
  cases r with
  | ok bs => exact ⟨_, rfl, rfl⟩
  | error e => exact ⟨_, rfl, rfl⟩

/-- R124: an enumerant in FV. -/
theorem writeFvEnum_setIn {w : Nat} (code : Option (BitVec w)) (c : Nat) :
    writeFvEnum (setIn m s) code c = setIn m (writeFvEnum s code c) := by
  cases code with
  | some v => rfl
  | none => rfl

/-- R223: a parsed packet. -/
theorem commitEnvelope_setIn (env : Envelope) :
    commitEnvelope env (setIn m s) = setIn m (commitEnvelope env s) := by
  cases env with
  | v1 p => rfl
  | v2 p => rfl

/-- R201, R202: construction in place reads PKT alone. -/
theorem makeInPlace_sameButIn (k : PktKind) : SameButIn m (makeInPlace k s) (makeInPlace k (setIn m s)) := by
  unfold makeInPlace
  rw [setIn_pktVer, setIn_pktN]
  cases makeCheck k s.pktVer s.pktN.toNat with
  | ok _ => exact ⟨_, rfl, rfl⟩
  | error e => exact ⟨_, rfl, rfl⟩

end

/-- R61: another content of IN that agrees below IN_LEN is the same buffer. -/
theorem sameBuf_setIn {m : Memory} {s : State}
    (h : ∀ k, k < s.inLen → (setIn m s).inByte k = s.inByte k) (hi : Nat) : SameBuf s (setIn m s) hi :=
  ⟨rfl, rfl, fun k _ hk => h k hk⟩

/-- R61: every operation, by what it reads of the buffer. -/
theorem exec_sameButIn {m : Memory} {s : State} (i : Instr)
    (h : ∀ k, k < s.inLen → (setIn m s).inByte k = s.inByte k) : SameButIn m (exec i s) (exec i (setIn m s)) := by
  have hb := sameBuf_setIn h
  cases i with
  | readByte => exact finish_bind_sameButIn m s _ (readByte_congr (hb _)) fun _ => rfl
  | skipZero => exact finish_bind_sameButIn m s _ (skipZero_congr (hb _)) fun _ => rfl
  | decAfi => exact finish_bind_sameButIn m s _ (decAfi_congr (hb _)) fun _ =>
      congrArg Except.ok (writeFvEnum_setIn m s _ _)
  | decCmd => exact finish_bind_sameButIn m s _ (decCmd_congr (hb _)) fun _ =>
      congrArg Except.ok (writeFvEnum_setIn m s _ _)
  | decVer => exact finish_bind_sameButIn m s _ (decVer_congr (hb _)) fun _ =>
      congrArg Except.ok (writeFvEnum_setIn m s _ _)
  | decTag => exact finish_bind_sameButIn m s _ (decTag_congr (hb _)) fun _ => rfl
  | decMetric => exact finish_bind_sameButIn m s _ (decMetric_congr (hb _)) fun _ => rfl
  | decIpv4 => exact finish_bind_sameButIn m s _ (decIpv4_congr (hb _)) fun _ => rfl
  | decHdr => exact finish_bind_sameButIn m s _ (decHdr_congr (hb _)) fun _ => rfl
  | decEnt1 => exact finish_bind_sameButIn m s _ (decEnt1_congr (hb _)) fun _ => rfl
  | decEnt2 => exact finish_bind_sameButIn m s _ (decEnt2_congr (hb _)) fun _ => rfl
  | parse => exact finish_bind_sameButIn m s _ (parse_congr (hb _)) fun _ =>
      congrArg Except.ok (commitEnvelope_setIn m s _)
  | parseV1 => exact finish_bind_sameButIn m s _ (parseV1_congr (hb _)) fun _ => rfl
  | parseV2 => exact finish_bind_sameButIn m s _ (parseV2_congr (hb _)) fun _ => rfl
  | makeV1 | makeV2 => exact makeInPlace_sameButIn m s _
  | encTag => exact finishOut_sameButIn m s (.ok (encTag (fvTag s)))
  | encMetric => exact finishOut_sameButIn m s (.ok (encMetric (fvMetric s)))
  | encIpv4 => exact finishOut_sameButIn m s (.ok (encIpv4 (fvIpv4 s)))
  | encAfi | encCmd | encVer | encHdr | encEnt1 | encEnt2 | serV1 | serV2 | serialize =>
    exact finishOut_sameButIn m s _

/-- Settles O43, operation by operation: `setIn m s` is the state with the other content of IN. -/
theorem onlyTheBufferMatters : Obligations.OnlyTheBufferMatters := fun i _ _ h => exec_sameButIn i h

end Sys2Proof.Machine
end

section
/-! SUPPORT. The decoder and the encoder of the OP word are inverse to each other (O59, O60). The decoder's equations
come first, one per case of `decodeOp`. -/

namespace Sys2Proof

/-- R100: an assigned OP word is taken from the front. -/
theorem decode_cons_of_some {b : Byte} {i : Instr} (h : decodeOp b = some i) (rest : List Byte) :
    decode (b :: rest) = .ok (i, rest) := by
  simp only [decode, h]

/-- R101: an unassigned OP word is refused by name. -/
theorem decode_cons_of_none {b : Byte} (h : decodeOp b = none) (rest : List Byte) :
    decode (b :: rest) = .error (.unassigned b) := by
  simp only [decode, h]

/-- R100: the OP word of group and function selects its operation; the table's rows, put together. -/
@[simp] theorem decodeOp_opCode (i : Instr) : decodeOp (opCode i) = some i := by
  have row : Laws.OpCode.Statement i := by
    cases i with
    | readByte => exact Laws.OpCode.readByte
    | skipZero => exact Laws.OpCode.skipZero
    | decAfi => exact Laws.OpCode.decAfi
    | encAfi => exact Laws.OpCode.encAfi
    | decCmd => exact Laws.OpCode.decCmd
    | encCmd => exact Laws.OpCode.encCmd
    | decVer => exact Laws.OpCode.decVer
    | encVer => exact Laws.OpCode.encVer
    | decTag => exact Laws.OpCode.decTag
    | encTag => exact Laws.OpCode.encTag
    | decMetric => exact Laws.OpCode.decMetric
    | encMetric => exact Laws.OpCode.encMetric
    | decIpv4 => exact Laws.OpCode.decIpv4
    | encIpv4 => exact Laws.OpCode.encIpv4
    | decHdr => exact Laws.OpCode.decHdr
    | encHdr => exact Laws.OpCode.encHdr
    | decEnt1 => exact Laws.OpCode.decEnt1
    | encEnt1 => exact Laws.OpCode.encEnt1
    | decEnt2 => exact Laws.OpCode.decEnt2
    | encEnt2 => exact Laws.OpCode.encEnt2
    | makeV1 => exact Laws.OpCode.makeV1
    | makeV2 => exact Laws.OpCode.makeV2
    | parse => exact Laws.OpCode.parse
    | parseV1 => exact Laws.OpCode.parseV1
    | parseV2 => exact Laws.OpCode.parseV2
    | serV1 => exact Laws.OpCode.serV1
    | serV2 => exact Laws.OpCode.serV2
    | serialize => exact Laws.OpCode.serialize
  exact row.2

/-- R100: no bit of the OP word is a don't-care, so an operation is selected by its own word alone. -/
theorem opCode_of_decodeOp {b : Byte} {i : Instr} (h : decodeOp b = some i) : opCode i = b := by
  unfold decodeOp at h
  split at h <;> cases h <;> rfl

/-- R100, R101: the assigned words are exactly the OP words of operations. -/
theorem decodeOp_eq_some_iff {b : Byte} {i : Instr} : decodeOp b = some i ↔ opCode i = b :=
  ⟨opCode_of_decodeOp, fun h => h ▸ decodeOp_opCode i⟩

/-- R100: an encoded operation decodes to itself, whatever follows. -/
theorem decode_encode (i : Instr) (rest : List Byte) : decode (encode i ++ rest) = .ok (i, rest) :=
  decode_cons_of_some (decodeOp_opCode i) rest

/-! ## How many OP values are assigned -/

/-- The operations of R100, in the table's order. -/
def operations : List Instr :=
  [.readByte, .skipZero,
    .decAfi, .encAfi, .decCmd, .encCmd, .decVer, .encVer, .decTag, .encTag, .decMetric, .encMetric, .decIpv4, .encIpv4,
    .decHdr, .encHdr, .decEnt1, .encEnt1, .decEnt2, .encEnt2,
    .makeV1, .makeV2, .parse, .parseV1, .parseV2, .serV1, .serV2, .serialize]

/-- R100: the table has every operation. -/
theorem mem_operations (i : Instr) : i ∈ operations := by
  cases i <;> decide

/-- R100: the table has no operation twice. -/
theorem operations_nodup : operations.Nodup := by decide

/-- R100: two operations have two OP words. -/
theorem opCode_toNat_injective : Function.Injective fun i => (opCode i).toNat := fun i j h =>
  Option.some.inj <| by rw [← decodeOp_opCode i, BitVec.eq_of_toNat_eq h, decodeOp_opCode]

/-- R100: the assigned OP values are the words of the operations, each once. -/
theorem assigned_perm_operations :
    ((List.range 256).filter fun n => (decodeOp (BitVec.ofNat 8 n)).isSome).Perm
      (operations.map fun i => (opCode i).toNat) := by
  refine (List.perm_ext_iff_of_nodup (List.nodup_range.filter _) (operations_nodup.map opCode_toNat_injective)).mpr
    fun n => ?_
  simp only [List.mem_filter, List.mem_range, Option.isSome_iff_exists, decodeOp_eq_some_iff, List.mem_map,
    mem_operations, true_and]
  constructor
  · rintro ⟨hn, i, hi⟩
    exact ⟨i, by rw [hi, BitVec.toNat_ofNat, Nat.mod_eq_of_lt hn]⟩
  · rintro ⟨i, rfl⟩
    exact ⟨(opCode i).isLt, i, by rw [BitVec.ofNat_toNat, BitVec.setWidth_eq]⟩

/-- R101: 228 of the 256 OP values are unassigned, for 28 are assigned. -/
theorem unassigned_count :
    ((List.range 256).filter fun n => (decodeOp (BitVec.ofNat 8 n)).isNone).length = 228 := by
  have hassigned := assigned_perm_operations.length_eq
  have hsplit := List.length_eq_length_filter_add (l := List.range 256)
    fun n => (decodeOp (BitVec.ofNat 8 n)).isSome
  simp only [Option.not_isSome] at hsplit
  rw [hassigned, List.length_map, List.length_range] at hsplit
  exact Nat.add_left_cancel hsplit.symm

/-! ## The obligations -/

/-- Settles O59, from the inverse laws of `decodeOp` and `opCode`. -/
theorem decodeMatchesEncode : Obligations.DecodeMatchesEncode :=
  ⟨fun i rest _ => decode_encode i rest, fun _ _ h => congrArg (fun b => [b]) (opCode_of_decodeOp h),
    unassigned_count, fun _ h => decode_cons_of_none h []⟩

/-- Settles O60: each word written out in the table is the encoding of its row's operation, which decodes to it. -/
theorem tableWordsDecode : Obligations.TableWordsDecode :=
  have row (i : Instr) : decode (encode i) = .ok (i, []) := decode_encode i []
  ⟨row .readByte, row .skipZero,
    row .decAfi, row .encAfi, row .decCmd, row .encCmd, row .decVer, row .encVer,
    row .decTag, row .encTag, row .decMetric, row .encMetric, row .decIpv4, row .encIpv4,
    row .decHdr, row .encHdr, row .decEnt1, row .encEnt1, row .decEnt2, row .encEnt2,
    row .makeV1, row .makeV2, row .parse, row .parseV1, row .parseV2, row .serV1, row .serV2, row .serialize⟩

end Sys2Proof
end

section
/-! SUPPORT. The field codecs as the host runs them (O1 to O12): how a decoding operation and an encoding operation
end, and what each field decoder and encoder gives, case by case. -/

namespace Sys2Proof.Machine

/-! ## How a decoding operation ends -/

section
variable {α : Type} {s u : State} {x : Except Err α} {f : α → Except Err State}

/-- R261: a decoded value, written with the completion writes. -/
theorem finish_decoded {w : ResultClass} {a : α} (hx : x = .ok a) (hf : f a = .ok u) :
    finish w s (x >>= f) = .next (okEnd u) := by
  rw [hx, ok_bind, hf, finish_ok]; rfl

/-- R262: a decoder's error, with its code and payload. -/
theorem finish_raised {e : Err} (hx : x = .error e) :
    finish .regs s (x >>= f)
      = .next (errEnd s (errCodeOf e) (errCauseOf e) (errByteOf e) (errValueOf e) (errOffsetOf e)) := by
  rw [hx, error_bind, finish_error]; rfl

end

/-- R132, R134, R136: a field of `n` bytes that only a shortage can stop. -/
theorem finish_plainField {α : Type} {s u : State} {n : Nat} {a : α} {x : Except Err (α × Nat)}
    {f : α × Nat → Except Err State}
    (hx : x = if s.cur + n ≤ s.inLen then .ok (a, s.cur + n) else .error (.insufficientInput (max s.cur s.inLen)))
    (hf : f (a, s.cur + n) = .ok u) :
    finish .regs s (x >>= f)
      = .next (if s.inLen < s.cur + n then errEnd s 0x01 0 0 0 (max s.cur s.inLen) else okEnd u) := by
  by_cases hl : s.inLen < s.cur + n
  · rw [if_pos hl]
    exact finish_raised (hx.trans (if_neg (Nat.not_le.mpr hl)))
  · rw [if_neg hl]
    exact finish_decoded (hx.trans (if_pos (Nat.le_of_not_lt hl))) hf

/-- R124: a named enumerant in FV, by its wire value. -/
theorem writeFvEnum_of_code {w : Nat} {code : Option (BitVec w)} {v : BitVec w} (h : code = some v) (s : State)
    (c : Nat) : writeFvEnum s code c = { s with fvVal := v.setWidth 32, fvUnk := false, cur := c } := by
  rw [h, writeFvEnum_some]

/-- R43: a CNT that is not 0 counts at least one byte. -/
theorem one_le_cnt {s : State} (h : s.cnt ≠ 0) : 1 ≤ s.cnt.toNat :=
  Nat.pos_of_ne_zero fun h0 => h (BitVec.eq_of_toNat_eq h0)

/-! ## The cursor primitives and the field decoders -/

/-- Settles O1, by the two cases of the cursor reader. -/
theorem readByteResult : Obligations.ReadByteResult := by
  refine ⟨rfl, fun s => ?_⟩
  by_cases h : s.cur < s.inLen
  · rw [if_pos h]
    exact finish_decoded (readByte_ok h) rfl
  · rw [if_neg h]
    exact finish_raised (readByte_short (Nat.le_of_not_lt h))

/-- Settles O2, by the three ways that skipZero can go. -/
theorem skipZeroResult : Obligations.SkipZeroResult := by
  refine ⟨rfl, fun s hz hl => ?_, fun s k hk hn hl hz hb => ?_, fun s hn hl hz => ?_⟩
  · exact finish_decoded (skipZero_zeros hz (hl.imp_left fun h => by rw [h]; rfl)) rfl
  · exact finish_raised (skipZero_nonzero hk hn hl hz hb)
  · exact finish_raised (skipZero_short (one_le_cnt hn) hl hz)

/-- Settles O3: the shortage is judged before the value. -/
theorem decAfiResult : Obligations.DecAfiResult := by
  refine ⟨rfl, fun s => ?_⟩
  have hd := decAfi_eq s s.cur
  by_cases hl : s.inLen < s.cur + 2
  · rw [if_pos hl] at hd ⊢
    exact finish_raised hd
  rw [if_neg hl] at hd ⊢
  by_cases ha : afiNamed (field16 s s.cur)
  · rw [if_pos ha] at hd ⊢
    exact finish_decoded hd (congrArg _ (writeFvEnum_of_code (afiCode_of (afiOf_named ha)) s _))
  · rw [if_neg ha] at hd ⊢
    exact finish_raised hd

/-- R86: a byte below 12 decodes to no sentinel. -/
theorem cmdOf_named {b : Byte} (h : b < 12) : cmdOf b ≠ .unknown := by
  rw [Ne, cmdOf_unknown_iff]; exact not_not.mpr h

/-- R87: the sentinel is what the bytes above 2 map to. -/
theorem verOf_unknown_iff_gt (b : Byte) : verOf b = .unknown ↔ ¬ b ≤ 2 := by
  rw [verOf_unknown_iff]; bv_omega

/-- Settles O4: the shortage is judged before the value. -/
theorem decCmdResult : Obligations.DecCmdResult := by
  refine ⟨rfl, fun s => ?_⟩
  have hd := decCmd_eq s s.cur
  by_cases hl : s.inLen ≤ s.cur
  · rw [if_pos hl] at hd ⊢
    exact finish_raised hd
  rw [if_neg hl] at hd ⊢
  by_cases hb : s.inByte s.cur < 12
  · rw [if_pos hb] at hd ⊢
    exact finish_decoded hd (congrArg _ (writeFvEnum_of_code (cmdCode_of (cmdOf_named hb)) s _))
  · rw [if_neg hb] at hd ⊢
    exact finish_raised hd

/-- Settles O5: with a byte to read the decoder succeeds, and the value decides only between a name and the
sentinel. -/
theorem decVerResult : Obligations.DecVerResult := by
  refine ⟨rfl, fun s => ?_⟩
  have hd := decVer_eq s s.cur
  by_cases hl : s.inLen ≤ s.cur
  · rw [if_pos hl] at hd ⊢
    exact finish_raised hd
  rw [if_neg hl] at hd ⊢
  by_cases hb : s.inByte s.cur ≤ 2
  · rw [if_pos hb]
    have hv : verOf (s.inByte s.cur) ≠ .unknown := fun h => (verOf_unknown_iff_gt _).mp h hb
    exact finish_decoded hd (congrArg _ (writeFvEnum_of_code (verCode_of hv) s _))
  · rw [if_neg hb]
    have hv : verOf (s.inByte s.cur) = .unknown := (verOf_unknown_iff_gt _).mpr hb
    rw [hv] at hd
    exact finish_decoded hd rfl

/-- Settles O6: only a shortage can stop the decoder. -/
theorem decTagResult : Obligations.DecTagResult :=
  ⟨rfl, fun s => finish_plainField (decTag_eq s s.cur) rfl⟩

/-- Settles O7: only a shortage can stop the decoder. -/
theorem decMetricResult : Obligations.DecMetricResult :=
  ⟨rfl, fun s => finish_plainField (decMetric_eq s s.cur) rfl⟩

/-- Settles O8: only a shortage can stop the decoder, and the register form of the octets is the 32-bit field. -/
theorem decIpv4Result : Obligations.DecIpv4Result :=
  ⟨rfl, fun s => finish_plainField (decIpv4_eq s s.cur) (by rw [← ipv4Word_octetsAt]; rfl)⟩

/-! ## How an encoding operation ends -/

/-- R67, R261: an operation whose encoder gives bytes. -/
theorem finishOut_encoded {s : State} {r : Except Err (List Byte)} {bs : List Byte} (h : r = .ok bs) :
    ∃ t, finishOut s r = .next t ∧ EncodedAs s t bs :=
  ⟨_, by rw [h, finishOut_ok], encodedAs_commitOut s bs⟩

/-- R262: an operation whose encoder refuses; the errors of the serialize side have a code alone. -/
theorem finishOut_refused {s : State} {r : Except Err (List Byte)} {e : Err} (h : r = .error e) :
    finishOut s r = .next
      { errEnd s (errCodeOf e) (errCauseOf e) (errByteOf e) (errValueOf e) (errOffsetOf e) with outLen := 0 } := by
  rw [h, finishOut_error]; rfl

/-! ## What FV encodes to -/

/-- R127: an AFI with a wire value encodes to its two bytes. -/
theorem encAfi_of_code {a : Afi} {v : BitVec 16} (h : afiCode a = some v) : encAfi a = .ok (wire16 v) := by
  unfold encAfi; rw [h, ← bytesBE_two]

/-- R129: a command with a wire value encodes to it. -/
theorem encCmd_of_code {k : CommandKind} {b : Byte} (h : cmdCode k = some b) : encCmd k = .ok [b] := by
  unfold encCmd; rw [h]

/-- R131: a version with a wire value encodes to it. -/
theorem encVer_of_code {v : Version} {b : Byte} (h : verCode v = some b) : encVer v = .ok [b] := by
  unfold encVer; rw [h]

section
variable {s : State}

/-- R123: FV with UNK = 0, read as an AFI. -/
theorem fvAfi_known (h : s.fvUnk = false) : fvAfi s = afiOf (s.fvVal.extractLsb' 0 16) := by
  rw [fvAfi, h, setWidth16_eq]; rfl

/-- R123: FV with UNK = 0, read as a command kind. -/
theorem fvCmd_known (h : s.fvUnk = false) : fvCmd s = cmdOf (s.fvVal.extractLsb' 0 8) := by
  rw [fvCmd, h, setWidth8_eq]; rfl

/-- R123: FV with UNK = 0, read as a version. -/
theorem fvVer_known (h : s.fvUnk = false) : fvVer s = verOf (s.fvVal.extractLsb' 0 8) := by
  rw [fvVer, h, setWidth8_eq]; rfl

/-- R127: when FV reads as the AFI sentinel. -/
theorem fvAfi_unknown (h : s.fvUnk = true ∨ ¬ afiNamed (s.fvVal.extractLsb' 0 16)) : fvAfi s = .unknown := by
  cases hu : s.fvUnk with
  | true => exact if_pos hu
  | false =>
    rw [fvAfi_known hu, afiOf_unknown_iff]
    exact h.resolve_left (by simp [hu])

/-- R129: when FV reads as the command sentinel. -/
theorem fvCmd_unknown (h : s.fvUnk = true ∨ 12 ≤ s.fvVal.extractLsb' 0 8) : fvCmd s = .unknown := by
  cases hu : s.fvUnk with
  | true => exact if_pos hu
  | false =>
    rw [fvCmd_known hu, cmdOf_unknown_iff, BitVec.not_lt]
    exact h.resolve_left (by simp [hu])

/-- R131: when FV reads as the version sentinel. -/
theorem fvVer_unknown (h : s.fvUnk = true ∨ 2 < s.fvVal.extractLsb' 0 8) : fvVer s = .unknown := by
  cases hu : s.fvUnk with
  | true => exact if_pos hu
  | false =>
    rw [fvVer_known hu, verOf_unknown_iff_gt, BitVec.not_le]
    exact h.resolve_left (by simp [hu])

end

/-- R84: the wire bytes of the low half of a register are its bits 15:8 and 7:0. -/
theorem wire16_low (v : Word) : wire16 (v.extractLsb' 0 16) = [v.extractLsb' 8 8, v.extractLsb' 0 8] := by
  have h8 : (v.extractLsb' 0 16).extractLsb' 8 8 = v.extractLsb' 8 8 := by
    apply BitVec.eq_of_toNat_eq
    simp only [BitVec.extractLsb'_toNat, Nat.shiftRight_eq_div_pow]
    omega
  have h0 : (v.extractLsb' 0 16).extractLsb' 0 8 = v.extractLsb' 0 8 := by
    apply BitVec.eq_of_toNat_eq
    simp only [BitVec.extractLsb'_toNat, Nat.shiftRight_eq_div_pow]
    omega
  rw [wire16, h8, h0]

/-! ## The field encoders -/

/-- Settles O9: FV is read as an AFI, which has a wire value or is the sentinel. -/
theorem encAfiResult : Obligations.EncAfiResult := by
  refine ⟨rfl, fun s hu ha => ?_, fun s h => ?_⟩
  · have henc : encAfi (fvAfi s) = .ok [s.fvVal.extractLsb' 8 8, s.fvVal.extractLsb' 0 8] := by
      rw [fvAfi_known hu, encAfi_of_code (afiCode_of (afiOf_named ha)), wire16_low]
    exact finishOut_encoded henc
  · exact finishOut_refused (congrArg encAfi (fvAfi_unknown h))

/-- Settles O10: FV is read as a command kind, which has a wire value or is the sentinel. -/
theorem encCmdResult : Obligations.EncCmdResult := by
  refine ⟨rfl, fun s hu hb => ?_, fun s h => ?_⟩
  · have henc : encCmd (fvCmd s) = .ok [s.fvVal.extractLsb' 0 8] := by
      rw [fvCmd_known hu, encCmd_of_code (cmdCode_of (cmdOf_named hb))]
    exact finishOut_encoded henc
  · exact finishOut_refused (congrArg encCmd (fvCmd_unknown h))

/-- Settles O11: FV is read as a version, which has a wire value or is the sentinel. -/
theorem encVerResult : Obligations.EncVerResult := by
  refine ⟨rfl, fun s hu hb => ?_, fun s h => ?_⟩
  · have henc : encVer (fvVer s) = .ok [s.fvVal.extractLsb' 0 8] := by
      rw [fvVer_known hu, encVer_of_code (verCode_of fun h => (verOf_unknown_iff_gt _).mp h hb)]
    exact finishOut_encoded henc
  · exact finishOut_refused (congrArg encVer (fvVer_unknown h))

/-- Settles O12: the three encoders that cannot refuse give the wire bytes of FV.VAL or of its low half. -/
theorem encPlainResult : Obligations.EncPlainResult := by
  refine ⟨rfl, rfl, rfl, fun s => ⟨?_, ?_, ?_⟩⟩
  · have htag : encTag (fvTag s) = [s.fvVal.extractLsb' 8 8, s.fvVal.extractLsb' 0 8] := by
      rw [encTag_eq, fvTag, setWidth16_eq, wire16_low]
    exact finishOut_encoded (congrArg Except.ok htag)
  · exact finishOut_encoded (congrArg Except.ok (encMetric_eq s.fvVal))
  · exact finishOut_encoded (congrArg Except.ok (ipv4Octets_ofWord s.fvVal))

end Sys2Proof.Machine
end

section
/-! SUPPORT. Each field codec undoes the other half (O31): a field decodes to a value exactly where the buffer holds
the value's wire bytes. -/

namespace Sys2Proof.Machine

variable {s : State} {c c' : Nat}

/-! ## What an encoder gives -/

/-- A check that passed gave the value behind it. -/
theorem guarded_ok_iff {α : Type} {p : Prop} [Decidable p] {e : Err} {x y : α} :
    (if p then .error e else .ok x : Except Err α) = .ok y ↔ ¬ p ∧ x = y := by
  by_cases h : p
  · simp [h]
  · simp [h]

/-- R127: the AFIs that encode, and their bytes. -/
theorem encAfi_ok_iff {a : Afi} {bs : List Byte} :
    encAfi a = .ok bs ↔ a ≠ .unknown ∧ wire16 ((afiCode a).getD 0) = bs := by
  rw [encAfi_eq, guarded_ok_iff]

/-- R129: the commands that encode, and their byte. -/
theorem encCmd_ok_iff {k : CommandKind} {bs : List Byte} :
    encCmd k = .ok bs ↔ k ≠ .unknown ∧ [(cmdCode k).getD 0] = bs := by
  rw [encCmd_eq, guarded_ok_iff]

/-- R131: the versions that encode, and their byte. -/
theorem encVer_ok_iff {v : Version} {bs : List Byte} :
    encVer v = .ok bs ↔ v ≠ .unknown ∧ [(verCode v).getD 0] = bs := by
  rw [encVer_eq, guarded_ok_iff]

/-! ## What a decoder reads -/

/-- R86: a named command has a wire byte. -/
theorem cmdCode_getD {k : CommandKind} (h : k ≠ .unknown) : cmdCode k = some ((cmdCode k).getD 0) := by
  cases k with
  | unknown => exact absurd rfl h
  | _ => rfl

/-- R87: a named version has a wire byte. -/
theorem verCode_getD {v : Version} (h : v ≠ .unknown) : verCode v = some ((verCode v).getD 0) := by
  cases v with
  | unknown => exact absurd rfl h
  | _ => rfl

/-- R86: the wire byte of a named command. -/
theorem holdsAt_cmd {k : CommandKind} (hk : k ≠ .unknown) :
    holdsAt s c [(cmdCode k).getD 0] ↔ c < s.inLen ∧ cmdOf (s.inByte c) = k := by
  rw [holdsAt_byte]
  refine and_congr_right fun _ => ⟨fun h => ?_, fun h => ?_⟩
  · rw [h, cmdOf_code (cmdCode_getD hk)]
  · subst h; rw [cmdCode_of hk]; rfl

/-- R87: the wire byte of a named version. -/
theorem holdsAt_ver {v : Version} (hv : v ≠ .unknown) :
    holdsAt s c [(verCode v).getD 0] ↔ c < s.inLen ∧ verOf (s.inByte c) = v := by
  rw [holdsAt_byte]
  refine and_congr_right fun _ => ⟨fun h => ?_, fun h => ?_⟩
  · rw [h, verOf_code (verCode_getD hv)]
  · subst h; rw [verCode_of hv]; rfl

/-- R125: decAfi reads an AFI where its wire bytes stand. -/
theorem decAfi_ok_iff {a : Afi} :
    decAfi s c = .ok (a, c') ↔ c' = c + 2 ∧ a ≠ .unknown ∧ holdsAt s c (wire16 ((afiCode a).getD 0)) := by
  rw [decAfi_eq]
  constructor
  · intro h
    split at h
    · cases h
    · split at h
      · rename_i hl hn
        cases h
        exact ⟨rfl, afiOf_named hn, (holdsAt_afi (afiOf_named hn)).mpr ⟨Nat.le_of_not_lt hl, hn, rfl⟩⟩
      · cases h
  · rintro ⟨rfl, ha, hh⟩
    obtain ⟨hl, hn, rfl⟩ := (holdsAt_afi ha).mp hh
    rw [if_neg (Nat.not_lt.mpr hl), if_pos hn]

/-- R128: decCmd reads a command where its wire byte stands. -/
theorem decCmd_ok_iff {k : CommandKind} :
    decCmd s c = .ok (k, c') ↔ c' = c + 1 ∧ k ≠ .unknown ∧ holdsAt s c [(cmdCode k).getD 0] := by
  rw [decCmd_eq]
  constructor
  · intro h
    split at h
    · cases h
    · split at h
      · rename_i hl hb
        cases h
        exact ⟨rfl, cmdOf_named hb, (holdsAt_cmd (cmdOf_named hb)).mpr ⟨Nat.lt_of_not_le hl, rfl⟩⟩
      · cases h
  · rintro ⟨rfl, hk, hh⟩
    obtain ⟨hl, rfl⟩ := (holdsAt_cmd hk).mp hh
    rw [if_neg (Nat.not_le.mpr hl), if_pos (not_not.mp fun h => hk ((cmdOf_unknown_iff _).mpr h))]

/-- R130: decVer reads what the byte at the cursor stands for, the sentinel included. -/
theorem decVer_ok_iff {v : Version} :
    decVer s c = .ok (v, c') ↔ c' = c + 1 ∧ c < s.inLen ∧ verOf (s.inByte c) = v := by
  rw [decVer_eq, guarded_ok_iff, Nat.not_le, Prod.mk.injEq, eq_comm (a := c + 1)]
  exact ⟨fun ⟨hl, hv, hc⟩ => ⟨hc, hl, hv⟩, fun ⟨hc, hl, hv⟩ => ⟨hl, hv, hc⟩⟩

/-- A field that only a shortage can stop reads its value where there is room for it. -/
theorem plainField_ok_iff {α : Type} {p : Prop} [Decidable p] {a b : α} {d : Nat} {e : Err} :
    (if p then .ok (a, d) else .error e : Except Err (α × Nat)) = .ok (b, c') ↔ c' = d ∧ p ∧ a = b := by
  by_cases h : p
  · simp [h, eq_comm, and_comm]
  · simp [h]

/-- R132: decTag reads a tag where its wire bytes stand. -/
theorem decTag_ok_iff {t : BitVec 16} : decTag s c = .ok (t, c') ↔ c' = c + 2 ∧ holdsAt s c (encTag t) := by
  rw [decTag_eq, plainField_ok_iff, encTag_eq, holdsAt_wire16]

/-- R134: decMetric reads a metric where its wire bytes stand. -/
theorem decMetric_ok_iff {m : BitVec 32} :
    decMetric s c = .ok (m, c') ↔ c' = c + 4 ∧ holdsAt s c (encMetric m) := by
  rw [decMetric_eq, plainField_ok_iff, encMetric_eq, holdsAt_wire32]

/-- R50: the octets at a cursor are those of the 32-bit field there. -/
theorem octetsAt_eq_iff {a : Ipv4} : octetsAt s c = a ↔ field32 s c = ipv4Word a :=
  ⟨fun h => by rw [← h, ipv4Word_octetsAt], octetsAt_of_field⟩

/-- R136: decIpv4 reads an address where its octets stand. -/
theorem decIpv4_ok_iff {a : Ipv4} : decIpv4 s c = .ok (a, c') ↔ c' = c + 4 ∧ holdsAt s c (encIpv4 a) := by
  rw [decIpv4_eq, plainField_ok_iff, octetsAt_eq_iff, encIpv4, ipv4Octets_eq, holdsAt_wire32]

/-- R138: what follows a successful decVer. -/
theorem encVer_of_decVer {v : Version} (h : decVer s c = .ok (v, c')) :
    c' = c + 1
      ∧ if v = .unknown then encVer v = .error .serUnknownVersion
        else ∃ bs, encVer v = .ok bs ∧ bs.length = 1 ∧ holdsAt s c bs := by
  obtain ⟨hc, hl, hb⟩ := decVer_ok_iff.mp h
  refine ⟨hc, ?_⟩
  by_cases hv : v = .unknown
  · rw [if_pos hv, hv]; rfl
  · rw [if_neg hv]
    exact ⟨_, encVer_ok_iff.mpr ⟨hv, rfl⟩, rfl, (holdsAt_ver hv).mpr ⟨hl, hb⟩⟩

/-- Settles O31: each decoder reads a value exactly where the bytes that the encoder gives of it stand. -/
theorem fieldCodecLaws : Obligations.FieldCodecLaws := by
  refine fun s c => ⟨fun a bs he hh => ?_, fun k bs he hh => ?_, fun v bs he hh => ?_,
    fun t hh => decTag_ok_iff.mpr ⟨rfl, hh⟩, fun m hh => decMetric_ok_iff.mpr ⟨rfl, hh⟩,
    fun a hh => decIpv4_ok_iff.mpr ⟨rfl, hh⟩, fun a c' h => ?_, fun k c' h => ?_, fun v c' => encVer_of_decVer,
    fun t c' h => ?_, fun m c' h => ?_, fun a c' h => ?_⟩
  · obtain ⟨ha, rfl⟩ := encAfi_ok_iff.mp he
    exact decAfi_ok_iff.mpr ⟨rfl, ha, hh⟩
  · obtain ⟨hk, rfl⟩ := encCmd_ok_iff.mp he
    exact decCmd_ok_iff.mpr ⟨rfl, hk, hh⟩
  · obtain ⟨hv, rfl⟩ := encVer_ok_iff.mp he
    exact decVer_ok_iff.mpr ⟨rfl, (holdsAt_ver hv).mp hh⟩
  · obtain ⟨hc, ha, hh⟩ := decAfi_ok_iff.mp h
    exact ⟨hc, _, encAfi_ok_iff.mpr ⟨ha, rfl⟩, rfl, hh⟩
  · obtain ⟨hc, hk, hh⟩ := decCmd_ok_iff.mp h
    exact ⟨hc, _, encCmd_ok_iff.mpr ⟨hk, rfl⟩, rfl, hh⟩
  · obtain ⟨hc, hh⟩ := decTag_ok_iff.mp h
    exact ⟨hc, bytesBE_length 2 _, hh⟩
  · obtain ⟨hc, hh⟩ := decMetric_ok_iff.mp h
    exact ⟨hc, bytesBE_length 4 _, hh⟩
  · obtain ⟨hc, hh⟩ := decIpv4_ok_iff.mp h
    exact ⟨hc, rfl, hh⟩

end Sys2Proof.Machine
end

section
/-! SUPPORT. The frame of the decoders (O40), by the forms of an operation's end. -/

namespace Sys2Proof.Machine

/-- The operations of R120 and R170 that decode from IN. -/
def decoders : List Instr :=
  [.readByte, .skipZero, .decAfi, .decCmd, .decVer, .decTag, .decMetric, .decIpv4, .decHdr, .decEnt1, .decEnt2]

/-- R262: a decoder writes neither OUT nor PKT. -/
theorem decoders_write_registers :
    ∀ i ∈ decoders, resultClass i = .regs ∧ writesOut i = false ∧ writesPkt i = false := by decide

/-- R122, R170: SKIP_ZERO and the record decoders do not decode into FV. -/
theorem skipZero_records_not_decodesFv :
    ∀ i ∈ [Instr.skipZero, .decHdr, .decEnt1, .decEnt2], decodesFv i = false := by decide

/-- Settles O40: each form of a decoder's end writes one result register and CUR at most. -/
theorem decoderFrame : Obligations.DecoderFrame := by
  intro i s t h hi
  obtain ⟨hregs, hout, hpkt⟩ := decoders_write_registers i hi
  cases exec_ends h with
  | raised e =>
    rw [hregs]
    exact ⟨rfl, fun _ => rfl, fun _ => rfl, fun _ => ⟨rfl, rfl⟩, fun _ => ⟨rfl, rfl⟩, fun _ _ => rfl, le_rfl⟩
  | fv v u c hd hcur =>
    refine ⟨rfl, fun _ => rfl, fun _ => rfl, fun hn => ?_, fun _ => ⟨rfl, rfl⟩, fun _ _ => rfl, hcur⟩
    cases (skipZero_records_not_decodesFv i hn).symm.trans hd
  | skipped c _ hcur =>
    exact ⟨rfl, fun _ => rfl, fun _ => rfl, fun _ => ⟨rfl, rfl⟩, fun _ => ⟨rfl, rfl⟩, fun _ _ => rfl, hcur⟩
  | hr hd c hi' hcur =>
    exact ⟨rfl, fun _ => rfl, fun _ => rfl, fun _ => ⟨rfl, rfl⟩, fun hn => absurd hi' hn, fun _ _ => rfl, hcur⟩
  | er x c hi' hcur =>
    exact ⟨rfl, fun _ => rfl, fun _ => rfl, fun _ => ⟨rfl, rfl⟩, fun _ => ⟨rfl, rfl⟩,
      fun h1 h2 => (hi'.elim h1 h2).elim, hcur⟩
  | out bs hw => cases hout.symm.trans hw
  | made _ hm => rcases hm with rfl | rfl <;> cases hpkt
  | parsed _ _ _ hp => rcases hp with rfl | rfl | rfl <;> cases hpkt

end Sys2Proof.Machine
end

section
/-! SUPPORT. The record codecs as the host runs them (O13 to O18): how a decoding operation whose checks come one after
another ends, how a v1 entry fails to decode, and what HR and ER encode to. -/

namespace Sys2Proof.Machine

/-! ## The header -/

/-- R262, R264: a decoder that begins with a check raises the check's error, or ends as what follows the check does. -/
theorem finish_checked {α : Type} {s u : State} {p q : Prop} [Decidable p] [Decidable q] {e : Err}
    {x y : Except Err α} {f : α → Except Err State} (hx : x = if p then .error e else y) (hpq : p ↔ q)
    (hy : finish .regs s (y >>= f) = .next u) :
    finish .regs s (x >>= f)
      = .next (if q then errEnd s (errCodeOf e) (errCauseOf e) (errByteOf e) (errValueOf e) (errOffsetOf e)
          else u) := by
  by_cases hq : q
  · rw [if_pos hq]
    exact finish_raised (hx.trans (if_pos (hpq.mpr hq)))
  · rw [if_neg hq, hx, if_neg (mt hpq.mp hq), hy]

/-- Settles O13: one `finish_checked` for each of the seven checks of R171, in byte order, then the decoded header. -/
theorem decHdrResult : Obligations.DecHdrResult :=
  ⟨rfl, fun s => finish_checked (decHdr_eq s s.cur) .rfl <| finish_checked rfl BitVec.not_lt <|
    finish_checked rfl .rfl <| finish_checked rfl .rfl <| finish_checked rfl .rfl <| finish_checked rfl .rfl <|
    finish_checked rfl .rfl <| finish_decoded rfl rfl⟩

/-- R172: a header of named enumerants encodes to its wire bytes. -/
theorem encHdr_of_named {h : Header} (hk : h.command ≠ .unknown) (hv : h.version ≠ .unknown) :
    encHdr h = .ok (wireHdr h.command h.version) := by
  rw [encHdr_eq, if_neg hk, if_neg hv]

/-- Settles O14: the command of HR is judged before its version. -/
theorem encHdrResult : Obligations.EncHdrResult := by
  refine ⟨rfl, fun s hk hv => ?_, fun s hk => ?_, fun s hk hv => ?_⟩
  · exact finishOut_encoded (encHdr_of_named (h := hrHeader s) hk hv)
  · exact finishOut_refused ((encHdr_eq (hrHeader s)).trans (if_pos hk))
  · exact finishOut_refused ((encHdr_eq (hrHeader s)).trans ((if_neg hk).trans (if_pos hv)))

/-! ## How a v1 entry fails to decode -/

/-- R82: the offsets of the reserved bytes of a v1 entry. -/
def reservedV1 : List Nat := [2, 3, 8, 9, 10, 11, 12, 13, 14, 15]

/-- R82: the reserved bytes of a v1 entry are two runs. -/
theorem mem_reservedV1 {j : Nat} : j ∈ reservedV1 ↔ (2 ≤ j ∧ j < 4) ∨ (8 ≤ j ∧ j < 16) := by
  simp only [reservedV1, List.mem_cons, List.not_mem_nil, or_false]
  omega

section
variable {s : State} {b c j : Nat}

/-- R82: reserved bytes that are 0 below an index, as a stretch of the buffer inside one of the two runs. -/
theorem zeroOn_of_reserved (hz : ∀ k ∈ reservedV1, c + k < b → s.inByte (c + k) = 0) {lo hi : Nat} (hb : hi ≤ b)
    (hrun : (c + 2 ≤ lo ∧ hi ≤ c + 4) ∨ (c + 8 ≤ lo ∧ hi ≤ c + 16)) : zeroOn s lo hi := by
  intro k hk hk'
  obtain ⟨j, rfl⟩ : ∃ j, k = c + j := Nat.exists_eq_add_of_le (by omega)
  exact hz j (mem_reservedV1.mpr (by omega)) (by omega)

/-- R173: an AFI without a name. -/
theorem decEnt1_unnamed (hl : c + 2 ≤ s.inLen) (ha : ¬ afiNamed (field16 s c)) :
    decEnt1 s c = .error (.unknownAfi (field16 s c) (afiErrOffset s.par.afiMode c)) := by
  unfold decEnt1
  rw [decAfi_eq, if_neg (Nat.not_lt.mpr hl), if_neg ha, error_bind]

/-- R173: the first reserved byte that is not 0. -/
theorem decEnt1_notZero (hj : j ∈ reservedV1) (hl : c + j < s.inLen) (ha : afiNamed (field16 s c))
    (hz : ∀ k ∈ reservedV1, c + k < c + j → s.inByte (c + k) = 0) (hb : s.inByte (c + j) ≠ 0) :
    decEnt1 s c = .error (.notZeroByte (s.inByte (c + j)) (c + j + 1)) := by
  have hrun := mem_reservedV1.mp hj
  unfold decEnt1
  rw [decAfi_eq, if_neg (by omega), if_pos ha]
  simp only [ok_bind]
  rcases hrun with hrun | hrun
  · rw [skipZero_nonzero (k := c + j) (by omega) (by omega) hl (zeroOn_of_reserved hz le_rfl (by omega)) hb,
      error_bind]
  · rw [skipZero_zeros (zeroOn_of_reserved hz (by omega) (by omega)) (.inr (by omega))]
    simp only [ok_bind]
    rw [decIpv4_eq, if_pos (by omega)]
    simp only [ok_bind]
    rw [skipZero_nonzero (k := c + j) (by omega) (by omega) hl (zeroOn_of_reserved hz le_rfl (by omega)) hb,
      error_bind]

/-- R173: a shortage, met where the buffer ends. -/
theorem decEnt1_short (hl : s.inLen < c + 20) (ha : c + 2 ≤ s.inLen → afiNamed (field16 s c))
    (hz : ∀ k ∈ reservedV1, c + k < s.inLen → s.inByte (c + k) = 0) :
    decEnt1 s c = .error (.insufficientInput (max c s.inLen)) := by
  unfold decEnt1
  rw [decAfi_eq]
  by_cases h2 : s.inLen < c + 2
  · rw [if_pos h2, error_bind]
  have hmax {d : Nat} (hd : d ≤ s.inLen) : max d s.inLen = max c s.inLen := by omega
  rw [if_neg h2, if_pos (ha (Nat.le_of_not_lt h2))]
  simp only [ok_bind]
  by_cases h4 : s.inLen < c + 2 + 2
  · rw [skipZero_short (by omega) h4 (zeroOn_of_reserved hz le_rfl (by omega)), error_bind, hmax (by omega)]
  rw [skipZero_zeros (zeroOn_of_reserved hz (by omega) (by omega)) (.inr (by omega))]
  simp only [ok_bind, decIpv4_eq]
  by_cases h8 : c + 2 + 2 + 4 ≤ s.inLen
  case neg => rw [if_neg h8, error_bind, hmax (by omega)]
  rw [if_pos h8]
  simp only [ok_bind]
  by_cases h16 : s.inLen < c + 2 + 2 + 4 + 8
  · rw [skipZero_short (by omega) h16 (zeroOn_of_reserved hz le_rfl (by omega)), error_bind, hmax (by omega)]
  rw [skipZero_zeros (zeroOn_of_reserved hz (by omega) (by omega)) (.inr (by omega))]
  simp only [ok_bind]
  rw [decMetric_eq, if_neg (by omega), error_bind, hmax (by omega)]

end

/-! ## The entries -/

/-- R174: a v1 entry with a named AFI encodes to its wire bytes. -/
theorem encEnt1_of_named {e : EntryV1} (ha : e.afi ≠ .unknown) : encEnt1 e = .ok (wireV1 (slotOfV1 e)) := by
  rw [encEnt1_eq, if_neg ha]

/-- R176: a v2 entry with a named AFI encodes to its wire bytes. -/
theorem encEnt2_of_named {e : EntryV2} (ha : e.afi ≠ .unknown) : encEnt2 e = .ok (wireV2 (slotOfV2 e)) := by
  rw [encEnt2_eq, if_neg ha]

/-- Settles O15: the whole entry, and the three ways to fail. -/
theorem decEnt1Result : Obligations.DecEnt1Result := by
  refine ⟨rfl, fun s h => ?_, fun s hl ha => ?_, fun s j hj hl ha hz hb => ?_, fun s hl ha hz => ?_⟩
  · exact finish_decoded (decEnt1_ok h) (by rw [← slotOfV1_at]; rfl)
  · exact finish_raised (decEnt1_unnamed hl ha)
  · exact finish_raised (decEnt1_notZero hj hl ha (fun k hk h => hz k hk (Nat.lt_of_add_lt_add_left h)) hb)
  · exact finish_raised (decEnt1_short hl ha hz)

/-- Settles O16: ER is read as a v1 entry, whose bytes do not depend on TAG, MASK and NH. -/
theorem encEnt1Result : Obligations.EncEnt1Result := by
  refine ⟨rfl, fun s ha => ?_, fun s ha => ?_⟩
  · have henc := encEnt1_of_named (e := slotV1 s.er) ha
    rw [wireV1_slot] at henc
    exact finishOut_encoded henc
  · exact finishOut_refused ((encEnt1_eq (slotV1 s.er)).trans (if_pos ha))

/-- Settles O17: the shortage before the AFI, the AFI, and the shortage after it. -/
theorem decEnt2Result : Obligations.DecEnt2Result := by
  refine ⟨rfl, fun s => ?_⟩
  have hd := decEnt2_eq s s.cur
  by_cases h2 : s.inLen < s.cur + 2
  · rw [if_pos h2] at hd ⊢
    exact finish_raised hd
  rw [if_neg h2] at hd ⊢
  by_cases ha : ¬ afiNamed (field16 s s.cur)
  · rw [if_pos ha] at hd ⊢
    exact finish_raised hd
  rw [if_neg ha] at hd ⊢
  by_cases hl : s.inLen < s.cur + 20
  · rw [if_pos hl] at hd ⊢
    rw [Nat.max_eq_right (by omega)]
    exact finish_raised hd
  · rw [if_neg hl] at hd ⊢
    exact finish_decoded hd (by rw [← slotOfV2_at]; rfl)

/-- Settles O18: ER is read as a v2 entry, which has every field of it. -/
theorem encEnt2Result : Obligations.EncEnt2Result := by
  refine ⟨rfl, fun s ha => ?_, fun s ha => ?_⟩
  · have henc := encEnt2_of_named (e := slotV2 s.er) ha
    rw [slotOfV2_slotV2] at henc
    exact finishOut_encoded henc
  · exact finishOut_refused ((encEnt2_eq (slotV2 s.er)).trans (if_pos ha))

end Sys2Proof.Machine
end

section
/-! SUPPORT. Each record codec undoes the other half (O32): a record is read exactly where its wire bytes stand. -/

namespace Sys2Proof.Machine

variable {s : State} {c c' : Nat}

/-- R175: a v2 entry survives its register form. -/
theorem slotV2_slotOfV2 (e : EntryV2) : slotV2 (slotOfV2 e) = e := by simp [slotOfV2, slotV2]

/-- R171: decHdr reads a header where its command is named and its reserved bytes are 0. -/
theorem decHdr_ok_iff {h : Header} :
    decHdr s c = .ok (h, c') ↔
      c' = c + 4 ∧ headerOk s c ∧ cmdOf (s.inByte c) = h.command ∧ verOf (s.inByte (c + 1)) = h.version := by
  constructor
  · intro hd
    obtain ⟨hok, hr⟩ := decHdr_inv hd
    cases hr
    exact ⟨rfl, hok, rfl, rfl⟩
  · rintro ⟨rfl, hok, hk, hv⟩
    rw [decHdr_ok hok, hk, hv]

/-- R173: decEnt1 reads an entry where its wire bytes stand. -/
theorem decEnt1_ok_iff {e : EntryV1} :
    decEnt1 s c = .ok (e, c') ↔ c' = c + 20 ∧ e.afi ≠ .unknown ∧ holdsAt s c (wireV1 (slotOfV1 e)) := by
  constructor
  · intro hd
    obtain ⟨⟨hl, hnamed, hz⟩, hr⟩ := decEnt1_inv hd
    cases hr
    have ha := afiOf_named hnamed
    exact ⟨rfl, ha, (holdsAt_wireV1 ha).mpr ⟨⟨hl, hnamed, hz⟩, rfl, (ipv4Word_octetsAt s (c + 4)).symm, rfl⟩⟩
  · rintro ⟨rfl, ha, hh⟩
    obtain ⟨hok, hafi, haddr, hmetric⟩ := (holdsAt_wireV1 ha).mp hh
    rw [decEnt1_ok hok, octetsAt_of_field haddr, hafi, hmetric]
    rfl

/-- R175: decEnt2 reads an entry where its wire bytes stand. -/
theorem decEnt2_ok_iff {e : EntryV2} :
    decEnt2 s c = .ok (e, c') ↔ c' = c + 20 ∧ e.afi ≠ .unknown ∧ holdsAt s c (wireV2 (slotOfV2 e)) := by
  constructor
  · intro hd
    obtain ⟨⟨hl, hnamed⟩, hr⟩ := decEnt2_inv hd
    cases hr
    have ha := afiOf_named hnamed
    exact ⟨rfl, ha, (holdsAt_wireV2 ha).mpr ⟨⟨hl, hnamed⟩, (slotOfV2_at s c).symm⟩⟩
  · rintro ⟨rfl, ha, hh⟩
    obtain ⟨hok, hslot⟩ := (holdsAt_wireV2 ha).mp hh
    rw [decEnt2_ok hok, ← slotV2_slotOfV2 e, ← hslot, ← slotOfV2_at, slotV2_slotOfV2]

/-- Settles O32: a record decodes exactly where the bytes that its encoder gives stand. -/
theorem recordCodecLaws : Obligations.RecordCodecLaws := by
  refine fun s c => ⟨fun h hk hv => ?_, fun e ha => ?_, fun e ha => ?_, fun h c' hd => ?_, fun e c' hd => ?_,
    fun e c' hd => ?_⟩
  · refine ⟨_, encHdr_of_named hk hv, fun hh => ?_⟩
    exact decHdr_ok_iff.mpr ⟨rfl, (holdsAt_wireHdr hk hv).mp hh⟩
  · exact ⟨_, encEnt1_of_named ha, fun hh => decEnt1_ok_iff.mpr ⟨rfl, ha, hh⟩⟩
  · exact ⟨_, encEnt2_of_named ha, fun hh => decEnt2_ok_iff.mpr ⟨rfl, ha, hh⟩⟩
  · obtain ⟨-, ⟨hl, hb, hz⟩, hcmd, hver⟩ := decHdr_ok_iff.mp hd
    have hk : h.command ≠ .unknown := hcmd ▸ cmdOf_named hb
    exact ⟨hk, fun hv => ⟨_, encHdr_of_named hk hv, rfl, (holdsAt_wireHdr hk hv).mpr ⟨⟨hl, hb, hz⟩, hcmd, hver⟩⟩⟩
  · obtain ⟨-, ha, hh⟩ := decEnt1_ok_iff.mp hd
    exact ⟨_, encEnt1_of_named ha, rfl, hh⟩
  · obtain ⟨-, ha, hh⟩ := decEnt2_ok_iff.mp hd
    exact ⟨_, encEnt2_of_named ha, rfl, hh⟩

end Sys2Proof.Machine
end

section
/-! SUPPORT. The packet container (O19, O42, O55): how construction ends, what the operations that write PKT leave
unchanged, and R203, kept by every operation and by every host action. -/

namespace Sys2Proof.Machine

/-! ## Construction -/

/-- R200 to R202: construction in place, by its two checks. -/
theorem makeInPlace_eq (k : PktKind) (s : State) :
    makeInPlace k s = .next (
      if s.pktVer ≠ kindVersion k then errPkt s 0x21 0 0 0 0
      else if 25 < s.pktN.toNat then errPkt s 0x22 0 0 0 0
      else okEnd { s with pktValid := true, pktKind := k }) := by
  unfold makeInPlace makeCheck
  by_cases hv : s.pktVer ≠ kindVersion k
  · rw [if_pos hv, if_pos hv]; rfl
  · rw [if_neg hv, if_neg hv]
    by_cases hn : 25 < s.pktN.toNat
    · rw [if_pos hn, if_pos (show Config.maxEntries < s.pktN.toNat from hn)]; rfl
    · rw [if_neg hn, if_neg (show ¬ Config.maxEntries < s.pktN.toNat from hn)]; rfl

/-- Settles O19: both operations construct in place, each in its kind. -/
theorem makeResult : Obligations.MakeResult :=
  ⟨rfl, rfl, fun s => ⟨makeInPlace_eq .v1 s, makeInPlace_eq .v2 s⟩⟩

/-! ## The frame of the operations that write PKT -/

/-- R262: the operations that write PKT are the class whose failure clears PKT.VALID; none writes FV or OUT. -/
theorem class_of_writesPkt {i : Instr} (h : writesPkt i = true) :
    resultClass i = .packet ∧ decodesFv i = false ∧ writesOut i = false := by
  cases i with
  | makeV1 | makeV2 | parse | parseV1 | parseV2 => exact ⟨rfl, rfl, rfl⟩
  | _ => cases h

/-- R201, R202, R223, R262: an operation that writes PKT fails, marks PKT valid in place, or commits a packet. -/
theorem exec_writesPkt_cases {i : Instr} {s t : State} (hi : writesPkt i = true) (h : exec i s = .next t) :
    (∃ e, t = raiseErr .packet e s)
    ∨ (∃ k, t = complete { s with pktValid := true, pktKind := k })
    ∨ ∃ k hd xs, (i = .parse ∨ i = .parseV1 ∨ i = .parseV2) ∧ xs.length ≤ 25
        ∧ t = complete (commitPacket k hd xs s) := by
  obtain ⟨hclass, hfv, hout⟩ := class_of_writesPkt hi
  cases exec_ends h with
  | raised e => exact .inl ⟨e, by rw [hclass]⟩
  | made k => exact .inr (.inl ⟨k, rfl⟩)
  | parsed k cmd xs hp hn => exact .inr (.inr ⟨k, _, xs, hp, hn, rfl⟩)
  | fv _ _ _ hd => cases hfv.symm.trans hd
  | out _ hw => cases hout.symm.trans hw
  | skipped _ hd | hr _ _ hd => subst hd; cases hi
  | er _ _ hd => rcases hd with rfl | rfl <;> cases hi

section
variable {xs : List Slot} (hn : xs.length ≤ 25) (k : PktKind) (hd : Header) (s : State)
include hn

/-- R48: PKT.N holds the count of any committed packet. -/
theorem commitPacket_pktN_toNat : (commitPacket k hd xs s).pktN.toNat = xs.length := by
  rw [commitPacket_pktN, BitVec.toNat_ofNat, Nat.mod_eq_of_lt (by omega)]

/-- R223: a commit does not write the slots from the new PKT.N on. -/
theorem commitPacket_slot_above {j : Fin 25} (hj : (commitPacket k hd xs s).pktN.toNat ≤ j.val) :
    (commitPacket k hd xs s).pktEnt[j] = s.pktEnt[j] := by
  rw [commitPacket_pktN_toNat hn] at hj
  rw [commitPacket_pktEnt, writeSlots_get, dif_neg (Nat.not_lt.mpr hj)]

end

/-- Settles O42: a failure and a construction write no content of PKT, and a commit no slot from the new PKT.N on. -/
theorem packetFrame : Obligations.PacketFrame := by
  intro i s t h hi
  rcases exec_writesPkt_cases hi h with ⟨e, rfl⟩ | ⟨k, rfl⟩ | ⟨k, hd, xs, hp, hn, rfl⟩
  · exact ⟨rfl, fun _ => rfl, fun _ => rfl, fun _ _ => rfl, fun _ => ⟨rfl, rfl, rfl, rfl⟩, fun _ => ⟨rfl, rfl⟩⟩
  · exact ⟨rfl, fun _ => rfl, fun _ => rfl, fun _ _ => rfl, fun _ => ⟨rfl, rfl, rfl, rfl⟩, fun hf => by cases hf⟩
  · refine ⟨rfl, fun _ => rfl, fun _ => rfl, fun _ hj => commitPacket_slot_above hn k hd s hj, ?_,
      fun hf => by cases hf⟩
    rintro (rfl | rfl | hf)
    · rcases hp with hp | hp | hp <;> cases hp
    · rcases hp with hp | hp | hp <;> cases hp
    · cases hf

/-! ## R203 -/

/-- R203 asks nothing of PKT while VALID = 0. -/
theorem pktOk_of_invalid {s : State} (hv : s.pktValid = false) : PktOk s := fun h => by cases hv.symm.trans h

/-- R294, R296: a host action that is neither a register write nor reset writes IN, and the host's own part, at most. -/
theorem busAct_keeps_registers {a : BusAction} {s t : State} (hx : busAct a s = .next t)
    (hw : ∀ n v, a ≠ .writeReg n v) (hr : a ≠ .reset) :
    ∃ m acts words draws, t = { s with inMem := m, pending := acts, seen := words, draws := draws } := by
  cases a with
  | writeReg n v => exact absurd rfl (hw n v)
  | reset => exact absurd rfl hr
  | readReg n =>
    cases hx
    unfold busReadReg
    split
    · exact ⟨_, _, _, _, rfl⟩
    · split <;> exact ⟨_, _, _, _, rfl⟩
  | writeIn k b =>
    simp only [busAct, busWriteIn] at hx
    split at hx
    · obtain ⟨-, rfl⟩ := unlessBusy_next.mp hx; exact ⟨_, _, _, _, rfl⟩
    · cases hx; exact ⟨_, _, _, _, rfl⟩
  | readIn k | writeOut k b => cases hx; exact ⟨_, _, _, _, rfl⟩
  | readOut k =>
    cases hx
    unfold busReadOut
    split
    · split <;> exact ⟨_, _, _, _, rfl⟩
    · exact ⟨_, _, _, _, rfl⟩
  | wait =>
    cases hx
    unfold busWait
    split <;> exact ⟨_, _, _, _, rfl⟩

section
variable {s t : State} (h : PktOk s)
include h

/-- R262: a raised error clears PKT.VALID at most. -/
theorem raiseErr_pktOk (w : ResultClass) (e : Err) : PktOk (raiseErr w e s) := fun hv => by
  rw [raiseErr_pktValid] at hv
  split at hv
  · cases hv
  · exact h hv

/-- R201, R202, R223: an operation sets PKT.VALID only after the checks of R200. -/
theorem exec_pktOk {i : Instr} (hx : exec i s = .next t) : PktOk t := by
  cases exec_ends hx with
  | raised e => exact raiseErr_pktOk h _ e
  | made k _ hv hn => exact fun _ => ⟨hn, hv⟩
  | parsed k cmd xs _ hn => exact fun _ => ⟨(commitPacket_pktN_toNat hn k ⟨cmd, kindVersion k⟩ s).trans_le hn, rfl⟩
  | fv | skipped | hr | er | out => exact h

/-- R33, R265: START runs an operation or raises IllegalOp. -/
theorem startOp_pktOk (hx : startOp s = .next t) : PktOk t := by
  rcases startOp_cases s with ⟨i, -, hs⟩ | ⟨-, hs⟩
  · exact exec_pktOk h (hs.symm.trans hx)
  · cases hs.symm.trans hx
    exact raiseErr_pktOk h .regs .illegalOp

/-- R49: a stored host write clears PKT.VALID, or does not touch PKT. -/
theorem regWrite_pktOk {r : Reg} {v : Word} (hctrl : r ≠ .ctrl) (hlen : r ≠ .inLen) (hx : regWrite r v s = .next t) :
    PktOk t := by
  cases r with
  | ctrl => exact absurd rfl hctrl
  | inLen => exact absurd rfl hlen
  | status | errCode | errCause | errByte | errValue | errOffset | outLen | pktValid | pktKind => cases hx; exact h
  | pktCmd | pktVer | pktN | ent => obtain ⟨-, rfl⟩ := unlessBusy_next.mp hx; exact pktOk_of_invalid rfl
  | op | cur | cnt | fvVal | fvUnk | hrCmd | hrVer | er => obtain ⟨-, rfl⟩ := unlessBusy_next.mp hx; exact h

/-- R51: a host write to the register space. -/
theorem busWriteReg_pktOk {n : Nat} {v : Word} (hx : busWriteReg n v s = .next t) : PktOk t := by
  rcases busWriteReg_next hx with rfl | ⟨-, -, -, hs⟩ | ⟨hb, r, -, hctrl, ⟨-, -, rfl⟩ | ⟨hlen, hw⟩⟩
  · exact h
  · exact startOp_pktOk h hs
  · exact h
  · exact regWrite_pktOk h hctrl hlen (hw.trans (unlessBusy_ok hb))

/-- R203: every host action. -/
theorem busAct_pktOk {a : BusAction} (hx : busAct a s = .next t) : PktOk t := by
  cases a with
  | writeReg n v => exact busWriteReg_pktOk h hx
  | reset => cases hx; exact pktOk_of_invalid rfl
  | readReg | writeIn | readIn | writeOut | readOut | wait =>
    obtain ⟨m, acts, words, draws, rfl⟩ := busAct_keeps_registers hx nofun nofun
    exact h

end

/-- Settles O55: VALID = 0 at reset, and every host action keeps R203. -/
theorem validPacketInvariant : Obligations.ValidPacketInvariant :=
  ⟨pktOk_of_invalid rfl, fun _ _ _ h hx => busAct_pktOk h hx⟩

end Sys2Proof.Machine
end

section
/-! SUPPORT. An entry in either kind of packet (43_parse_serialize): the codec of v1 and of v2 entries under one name
each, so that what parse and serialization do is said once for both kinds. -/

namespace Sys2Proof.Machine

/-! ## The entry of a kind -/

/-- R173, R175: the entry decoder of a kind, its entry in register form. -/
def decEntry (k : PktKind) (s : State) (c : Nat) : Except Err (Slot × Nat) :=
  match k with
  | .v1 => (decEnt1 s c).map fun r => (slotOfV1 r.1, r.2)
  | .v2 => (decEnt2 s c).map fun r => (slotOfV2 r.1, r.2)

/-- R82, R83: an entry of a kind that decodes. -/
def entryOk (k : PktKind) (s : State) (c : Nat) : Prop :=
  match k with
  | .v1 => entryV1Ok s c
  | .v2 => entryV2Ok s c

/-- R82, R83: the slot of the entry of a kind at a cursor. -/
def slotAt (k : PktKind) (s : State) (c : Nat) : Slot :=
  match k with
  | .v1 => slotV1At s c
  | .v2 => slotV2At s c

/-- R82, R83: the wire bytes of a slot as an entry of a kind. -/
def wireEntry (k : PktKind) (x : Slot) : List Byte :=
  match k with
  | .v1 => wireV1 x
  | .v2 => wireV2 x

/-- R48: the part of a slot that an entry of a kind denotes; a v1 entry has no TAG, MASK and NH. -/
def entrySlot (k : PktKind) (x : Slot) : Slot :=
  match k with
  | .v1 => slotOfV1 (slotV1 x)
  | .v2 => slotOfV2 (slotV2 x)

/-- R100: the operation that decodes an entry of a kind. -/
def decEntOp (k : PktKind) : Instr :=
  match k with
  | .v1 => .decEnt1
  | .v2 => .decEnt2

/-- R224, R225: the parse operation of a kind. -/
def parseOp (k : PktKind) : Instr :=
  match k with
  | .v1 => .parseV1
  | .v2 => .parseV2

/-- R227, R228: the serializer of a kind. -/
def serOp (k : PktKind) : Instr :=
  match k with
  | .v1 => .serV1
  | .v2 => .serV2

@[simp] theorem wireEntry_length (k : PktKind) (x : Slot) : (wireEntry k x).length = 20 := by cases k <;> rfl

theorem entrySlot_slotAt (k : PktKind) (s : State) (c : Nat) : entrySlot k (slotAt k s c) = slotAt k s c := by
  cases k with
  | v1 => simp [entrySlot, slotAt, slotV1, slotOfV1, slotV1At]
  | v2 => exact slotOfV2_slotV2 _

section
variable {k : PktKind} {s s' : State} {c : Nat}

theorem entryOk_fits (h : entryOk k s c) : c + 20 ≤ s.inLen := by
  cases k with
  | v1 => exact h.1
  | v2 => exact h.1

theorem entryOk_afi (h : entryOk k s c) : (slotAt k s c).afi ≠ .unknown := by
  cases k with
  | v1 => exact afiOf_named h.2.1
  | v2 => exact afiOf_named h.2

/-- R173, R175: an entry that decodes. -/
theorem decEntry_ok (h : entryOk k s c) : decEntry k s c = .ok (slotAt k s c, c + 20) := by
  cases k with
  | v1 => rw [decEntry, decEnt1_ok h, slotAt, ← slotOfV1_at]; rfl
  | v2 => rw [decEntry, decEnt2_ok h, slotAt, ← slotOfV2_at]; rfl

/-- R173, R175: an entry that decodes has these bytes. -/
theorem decEntry_inv {r : Slot × Nat} (h : decEntry k s c = .ok r) : entryOk k s c ∧ r = (slotAt k s c, c + 20) := by
  suffices hok : entryOk k s c from ⟨hok, Except.ok.inj (h.symm.trans (decEntry_ok hok))⟩
  cases k with
  | v1 =>
    cases hd : decEnt1 s c with
    | ok r => exact (decEnt1_inv hd).1
    | error e => rw [decEntry, hd] at h; cases h
  | v2 =>
    cases hd : decEnt2 s c with
    | ok r => exact (decEnt2_inv hd).1
    | error e => rw [decEntry, hd] at h; cases h

/-- R173, R175: how an entry fails to decode; a v2 entry has no reserved byte. -/
theorem decEntry_error {e : Err} (h : decEntry k s c = .error e) :
    (s.inLen < c + 20 ∧ e = .insufficientInput (max c s.inLen))
      ∨ (∃ v, e = .unknownAfi v (afiErrOffset s.par.afiMode c))
      ∨ ∃ j b, j < c + 16 ∧ e = .notZeroByte b (j + 1) := by
  cases k with
  | v1 =>
    cases hd : decEnt1 s c with
    | ok r => rw [decEntry, hd] at h; cases h
    | error e' =>
      rw [decEntry, hd] at h
      cases h
      rcases decEnt1_error hd with hs | ⟨-, -, rfl⟩ | ⟨j, -, hj, -, -, rfl⟩
      · exact .inl hs
      · exact .inr (.inl ⟨_, rfl⟩)
      · exact .inr (.inr ⟨j, _, hj, rfl⟩)
  | v2 =>
    cases hd : decEnt2 s c with
    | ok r => rw [decEntry, hd] at h; cases h
    | error e' =>
      rw [decEntry, hd] at h
      cases h
      rcases decEnt2_error hd with hs | ⟨-, -, rfl⟩
      · exact .inl hs
      · exact .inr (.inl ⟨_, rfl⟩)

/-- R68: an entry decoder reads 20 bytes at most. -/
theorem decEntry_congr (h : SameBuf s s' (c + 20)) : decEntry k s' c = decEntry k s c := by
  cases k with
  | v1 => rw [decEntry, decEntry, decEnt1_congr h]
  | v2 => rw [decEntry, decEntry, decEnt2_congr h]

/-- R82, R83: where the wire bytes of a slot stand, an entry decodes to the part of the slot that it denotes. -/
theorem holdsAt_wireEntry {x : Slot} (ha : x.afi ≠ .unknown) :
    holdsAt s c (wireEntry k x) ↔ entryOk k s c ∧ slotAt k s c = entrySlot k x := by
  cases k with
  | v1 =>
    refine (holdsAt_wireV1 ha).trans (and_congr_right fun _ => ?_)
    simp [slotAt, entrySlot, slotV1At, slotOfV1, slotV1]
  | v2 =>
    refine (holdsAt_wireV2 ha).trans (and_congr_right fun _ => ?_)
    rw [slotAt, entrySlot, slotOfV2_slotV2]

end

/-- R173, R175: DEC_ENT1 and DEC_ENT2 through the decoder of their kind. -/
theorem exec_decEntOp (k : PktKind) (s : State) :
    exec (decEntOp k) s = finish .regs s (decEntry k s s.cur >>= fun r => .ok (writeEr s r.1 r.2)) := by
  cases k with
  | v1 =>
    change execDecEnt1 s = _
    rw [execDecEnt1, decEntry]
    cases decEnt1 s s.cur <;> rfl
  | v2 =>
    change execDecEnt2 s = _
    rw [execDecEnt2, decEntry]
    cases decEnt2 s s.cur <;> rfl

/-! ## The entry loop of a kind -/

/-- R222: the loop over entries in another form. -/
theorem entriesFrom_map {ε δ : Type} (s : State) (g : ε → δ) (dec : Nat → Except Err (ε × Nat)) (room c : Nat) :
    entriesFrom s (fun c => (dec c).map fun r => (g r.1, r.2)) room c
      = (entriesFrom s dec room c).map fun r => (r.1.map g, r.2) := by
  induction room generalizing c with
  | zero =>
    unfold entriesFrom
    split <;> rfl
  | succ room ih =>
    unfold entriesFrom
    split
    · rfl
    · cases dec c with
      | error e => rfl
      | ok r =>
        have hrest := ih r.2
        simp only [Except.map, ok_bind] at hrest ⊢
        rw [hrest]
        cases entriesFrom s dec room r.2 <;> rfl

/-- R222: the loop of a packet over entries in another form. -/
theorem entryLoop_map {ε δ : Type} (s : State) (g : ε → δ) (dec : Nat → Except Err (ε × Nat)) (c : Nat) :
    entryLoop s (fun c => (dec c).map fun r => (g r.1, r.2)) c
      = (entryLoop s dec c).map fun r => (r.1.map g, r.2) := by
  unfold entryLoop
  split
  · rfl
  · exact entriesFrom_map s g dec _ c

/-- R222: no entry where the buffer has ended. -/
theorem entryLoop_empty {ε : Type} {s : State} {dec : Nat → Except Err (ε × Nat)} {c : Nat} (h : s.inLen ≤ c) :
    entryLoop s dec c = .error (.emptyRipEntry c) := if_pos h

section
variable {k : PktKind} {s : State}

/-- R222: 1 to 25 entries that fill the buffer. -/
theorem entryLoop_entries {n : Nat} (hn : 1 ≤ n) (hm : n ≤ 25) (hl : s.inLen = 4 + 20 * n)
    (he : ∀ i, i < n → entryOk k s (4 + 20 * i)) :
    entryLoop s (decEntry k s) 4 = .ok ((List.range n).map fun i => slotAt k s (4 + 20 * i), s.inLen) :=
  entryLoop_ok hn hm hl fun i hi => decEntry_ok (he i hi)

/-- R222: what a loop that succeeds has read. -/
theorem entryLoop_entries_inv {r : List Slot × Nat} (h : entryLoop s (decEntry k s) 4 = .ok r) :
    ∃ n, n ≤ 25 ∧ s.inLen = 4 + 20 * n ∧ (∀ i, i < n → entryOk k s (4 + 20 * i))
      ∧ r.1 = (List.range n).map fun i => slotAt k s (4 + 20 * i) := by
  unfold entryLoop at h
  split at h
  · cases h
  · obtain ⟨n, hn, hl, he, rfl⟩ :=
      entriesFrom_inv (P := entryOk k s) (fun c r hr => decEntry_inv hr) (by omega) (fun c hc => entryOk_fits hc) h
    exact ⟨n, hn, hl, he, rfl⟩

end

end Sys2Proof.Machine
end

section
/-! SUPPORT. The parse operations (O20 to O26): how each ends after a header that fails, after a version that it
refuses, and after a header of a kind that it accepts. -/

namespace Sys2Proof.Machine

theorem kindVersion_ne_unknown (k : PktKind) : kindVersion k ≠ .unknown := by cases k <;> nofun

/-! ## How a parse ends -/

/-- R220, R224, R225: the parse operations. -/
def parseOps : List Instr := [.parse, .parseV1, .parseV2]

/-- R220, R224, R225: PARSE dispatches on the version, the others are of one kind. -/
theorem mem_parseOps {i : Instr} : i ∈ parseOps ↔ i = .parse ∨ ∃ k, i = parseOp k := by
  constructor
  · simp only [parseOps, List.mem_cons, List.not_mem_nil, or_false]
    rintro (rfl | rfl | rfl)
    · exact .inl rfl
    · exact .inr ⟨.v1, rfl⟩
    · exact .inr ⟨.v2, rfl⟩
  · rintro (rfl | ⟨k, rfl⟩)
    · decide
    · cases k <;> decide

/-- R222, R264: where the loop over a kind's entries decides: it raises the loop's error or commits its entries. -/
def finishEntries (k : PktKind) (s : State) : Host.Outcome State Fault Refusal :=
  finish .packet s (entryLoop s (decEntry k s) 4 >>= fun r =>
    .ok (commitPacket k ⟨cmdOf (s.inByte 0), kindVersion k⟩ r.1 s))

section
variable {s : State}

/-- R221: under the version of the kind the entries of the loop always make a packet. -/
theorem entryLoop_wrapMake {ε : Type} {kind : PktKind} {h : Header} {dec : Nat → Except Err (ε × Nat)}
    (hv : h.version = kindVersion kind) :
    (entryLoop s dec 4 >>= fun r => wrapMake kind h r.1) = (entryLoop s dec 4).map fun r => ⟨h, r.1⟩ := by
  cases hx : entryLoop s dec 4 with
  | error e => rfl
  | ok r => exact wrapMake_ok hv (entryLoop_length hx)

/-- R220, R223: the v1 arm with its commit. -/
theorem finish_parseBodyV1 :
    finish .packet s (parseBodyV1 s ⟨cmdOf (s.inByte 0), .version1⟩ 4 >>= fun p => .ok (commitV1 p s))
      = finishEntries .v1 s := by
  have hbody : parseBodyV1 s ⟨cmdOf (s.inByte 0), .version1⟩ 4 = _ := entryLoop_wrapMake (kind := .v1) rfl
  have hloop : entryLoop s (decEntry .v1 s) 4 = _ := entryLoop_map s slotOfV1 (decEnt1 s) 4
  rw [finishEntries, hbody, hloop]
  cases entryLoop s (decEnt1 s) 4 <;> rfl

/-- R220, R223: the v2 arm with its commit. -/
theorem finish_parseBodyV2 :
    finish .packet s (parseBodyV2 s ⟨cmdOf (s.inByte 0), .version2⟩ 4 >>= fun p => .ok (commitV2 p s))
      = finishEntries .v2 s := by
  have hbody : parseBodyV2 s ⟨cmdOf (s.inByte 0), .version2⟩ 4 = _ := entryLoop_wrapMake (kind := .v2) rfl
  have hloop : entryLoop s (decEntry .v2 s) 4 = _ := entryLoop_map s slotOfV2 (decEnt2 s) 4
  rw [finishEntries, hbody, hloop]
  cases entryLoop s (decEnt2 s) 4 <;> rfl

/-- R220, R224, R225: a header of a kind leaves the outcome to the entries of that kind. -/
theorem exec_parse_kind {k : PktKind} (hh : headerOk s 0) (hv : verOf (s.inByte 1) = kindVersion k) :
    ∀ i ∈ [Instr.parse, parseOp k], exec i s = finishEntries k s := by
  simp only [List.forall_mem_cons, List.not_mem_nil, IsEmpty.forall_iff, implies_true, and_true]
  cases k with
  | v1 =>
    change verOf (s.inByte 1) = .version1 at hv
    rw [← finish_parseBodyV1]
    constructor
    · change execParse s = _
      rw [execParse, parse_eq hh, hv]
      cases parseBodyV1 s ⟨cmdOf (s.inByte 0), .version1⟩ 4 <;> rfl
    · change execParseV1 s = _
      rw [execParseV1, parseV1_eq hh, hv]; rfl
  | v2 =>
    change verOf (s.inByte 1) = .version2 at hv
    rw [← finish_parseBodyV2]
    constructor
    · change execParse s = _
      rw [execParse, parse_eq hh, hv]
      cases parseBodyV2 s ⟨cmdOf (s.inByte 0), .version2⟩ 4 <;> rfl
    · change execParseV2 s = _
      rw [execParseV2, parseV2_eq hh, hv]; rfl

/-- R220, R224, R225, R264: an error of the header is the error of every parse. -/
theorem exec_parse_headerError {e : Err} (hd : decHdr s 0 = .error e) :
    ∀ i ∈ parseOps, exec i s = .next (raiseErr .packet e s) := by
  simp only [parseOps, List.forall_mem_cons, List.not_mem_nil, IsEmpty.forall_iff, implies_true, and_true]
  refine ⟨?_, ?_, ?_⟩
  · change execParse s = _
    rw [execParse, parse, hd]; rfl
  · change execParseV1 s = _
    rw [execParseV1, parseV1, hd]; rfl
  · change execParseV2 s = _
    rw [execParseV2, parseV2, hd]; rfl

/-- R220: PARSE refuses version 0. -/
theorem exec_parse_discarded (hh : headerOk s 0) (hv : verOf (s.inByte 1) = .mustBeDiscarded) :
    exec .parse s = .next (raiseErr .packet (.mustBeDiscardedVersion 2) s) := by
  change execParse s = _
  rw [execParse, parse_eq hh, hv]; rfl

/-- R220: PARSE refuses a version without a name. -/
theorem exec_parse_unknown (hh : headerOk s 0) (hv : verOf (s.inByte 1) = .unknown) :
    exec .parse s = .next (raiseErr .packet (.unknownVersion 2) s) := by
  change execParse s = _
  rw [execParse, parse_eq hh, hv]; rfl

/-- R224, R225: the parse of a kind refuses every other version. -/
theorem exec_parseOp_conflict {k : PktKind} (hh : headerOk s 0) (hv : verOf (s.inByte 1) ≠ kindVersion k) :
    exec (parseOp k) s = .next (raiseErr .packet (.invalidPacket .versionInHeaderConflicted) s) := by
  cases k with
  | v1 =>
    change verOf (s.inByte 1) ≠ .version1 at hv
    change execParseV1 s = _
    rw [execParseV1, parseV1_eq hh, if_pos hv]; rfl
  | v2 =>
    change verOf (s.inByte 1) ≠ .version2 at hv
    change execParseV2 s = _
    rw [execParseV2, parseV2_eq hh, if_pos hv]; rfl

/-- R220, R224, R225: a parse raises the header's error, refuses the version, or leaves the outcome to the entries of
the header's kind. -/
theorem exec_parse_cases {i : Instr} (hi : i ∈ parseOps) :
    (∃ e, decHdr s 0 = .error e ∧ exec i s = .next (raiseErr .packet e s))
    ∨ (∃ e ∈ [Err.mustBeDiscardedVersion 2, .unknownVersion 2, .invalidPacket .versionInHeaderConflicted],
        exec i s = .next (raiseErr .packet e s))
    ∨ ∃ k, headerOk s 0 ∧ verOf (s.inByte 1) = kindVersion k ∧ exec i s = finishEntries k s := by
  cases hd : decHdr s 0 with
  | error e => exact .inl ⟨e, rfl, exec_parse_headerError hd i hi⟩
  | ok r =>
    have hh := (decHdr_inv hd).1
    refine .inr ?_
    rcases mem_parseOps.mp hi with rfl | ⟨k, rfl⟩
    · cases hv : verOf (s.inByte 1) with
      | mustBeDiscarded => exact .inl ⟨_, by simp, exec_parse_discarded hh hv⟩
      | unknown => exact .inl ⟨_, by simp, exec_parse_unknown hh hv⟩
      | version1 => exact .inr ⟨.v1, hh, rfl, exec_parse_kind (k := .v1) hh hv _ (by simp)⟩
      | version2 => exact .inr ⟨.v2, hh, rfl, exec_parse_kind (k := .v2) hh hv _ (by simp)⟩
    · by_cases hv : verOf (s.inByte 1) = kindVersion k
      · exact .inr ⟨k, hh, hv, exec_parse_kind hh hv _ (by simp)⟩
      · exact .inl ⟨_, by simp, exec_parseOp_conflict hh hv⟩

end

/-! ## The packet that a parse commits -/

/-- R223: what a parse of `n` entries of a kind leaves of `s`. -/
def parsedState (k : PktKind) (n : Nat) (s : State) : State :=
  complete (commitPacket k ⟨cmdOf (s.inByte 0), kindVersion k⟩
    ((List.range n).map fun i => slotAt k s (4 + 20 * i)) s)

section
variable {k : PktKind} {n : Nat} {s : State}

/-- R223: PKT after a parse. -/
theorem parsedState_eq :
    parsedState k n s = okEnd { s with
      pktValid := true, pktKind := k, pktCmd := cmdOf (s.inByte 0), pktVer := kindVersion k,
      pktN := BitVec.ofNat 8 n, pktEnt := (parsedState k n s).pktEnt } := by
  simp [parsedState, commitPacket, complete, okEnd]

/-- R223: the slots after a parse: the entries read, then what stood there. -/
theorem parsedState_slot (i : Fin 25) :
    (parsedState k n s).pktEnt[i] = if i.val < n then slotAt k s (4 + 20 * i.val) else s.pktEnt[i] := by
  rw [parsedState, complete_pktEnt, commitPacket_pktEnt, writeSlots_get]
  simp

/-- R220, R222 to R225: a header of a kind and 1 to 25 entries of it parse. -/
theorem exec_parse_entries (hn : 1 ≤ n) (hm : n ≤ 25) (hl : s.inLen = 4 + 20 * n) (hh : headerOk s 0)
    (hv : verOf (s.inByte 1) = kindVersion k) (he : ∀ i, i < n → entryOk k s (4 + 20 * i)) :
    ∀ i ∈ [Instr.parse, parseOp k], exec i s = .next (parsedState k n s) := fun i hi => by
  rw [exec_parse_kind hh hv i hi, finishEntries, entryLoop_entries hn hm hl he]; rfl

/-- R222, R264: an error of the loop is the error of the parse. -/
theorem exec_parse_entryError {e : Err} (hh : headerOk s 0) (hv : verOf (s.inByte 1) = kindVersion k)
    (hx : entryLoop s (decEntry k s) 4 = .error e) :
    ∀ i ∈ [Instr.parse, parseOp k], exec i s = .next (raiseErr .packet e s) := fun i hi => by
  rw [exec_parse_kind hh hv i hi, finishEntries, hx]; rfl

/-- R222: entries that decode, as the loop sees them. -/
theorem decEntry_each (he : ∀ i, i < n → entryOk k s (4 + 20 * i)) :
    ∀ i, i < n → ∃ x, decEntry k s (4 + 20 * i) = .ok (x, 4 + 20 * i + 20) :=
  fun i hi => ⟨_, decEntry_ok (he i hi)⟩

end

/-- Settles O20: PARSE and PARSE_V1 both end in `parsedState`. -/
theorem parseAcceptsV1 : Obligations.ParseAcceptsV1 := by
  intro s n hn hm hl hh hv he
  have hx := exec_parse_entries (k := .v1) hn hm hl hh (by rw [hv]; rfl) he
  exact ⟨parsedState .v1 n s, hx _ (by simp), hx _ (by simp [parseOp]), parsedState_eq, parsedState_slot⟩

/-- Settles O21: PARSE and PARSE_V2 both end in `parsedState`. -/
theorem parseAcceptsV2 : Obligations.ParseAcceptsV2 := by
  intro s n hn hm hl hh hv he
  have hx := exec_parse_entries (k := .v2) hn hm hl hh (by rw [hv]; rfl) he
  exact ⟨parsedState .v2 n s, hx _ (by simp), hx _ (by simp [parseOp]), parsedState_eq, parsedState_slot⟩

/-! ## What a parse refuses -/

/-- Settles O22: each refusal is decided by the version byte alone. -/
theorem parseRejectsVersion : Obligations.ParseRejectsVersion := by
  refine fun s hh => ⟨fun hv => ?_, fun hv => ?_, fun hv => ?_, fun hv => ?_⟩
  · exact exec_parse_discarded hh ((verOf_mustBeDiscarded_iff _).mpr hv)
  · exact exec_parse_unknown hh ((verOf_unknown_iff _).mpr (BitVec.not_lt.mpr hv))
  · exact exec_parseOp_conflict (k := .v1) hh (mt (verOf_version1_iff _).mp hv)
  · exact exec_parseOp_conflict (k := .v2) hh (mt (verOf_version2_iff _).mp hv)

/-- R222: after a header of a kind, the buffer's end gives EmptyRIPEntry and a 26th entry MaxRIPEntriesNumberExceeded. -/
theorem exec_parse_count {s : State} {k : PktKind} (hh : headerOk s 0) (hv : verOf (s.inByte 1) = kindVersion k) :
    ∀ i ∈ [Instr.parse, parseOp k],
      (s.inLen = 4 → exec i s = .next (errPkt s 0x07 0 0 0 4))
      ∧ (504 < s.inLen → (∀ j, j < 25 → entryOk k s (4 + 20 * j)) → exec i s = .next (errPkt s 0x08 0 0 0 504)) :=
  fun i hi =>
    ⟨fun hl => exec_parse_entryError hh hv (entryLoop_empty hl.le) i hi,
      fun hl he => exec_parse_entryError hh hv
        (entryLoop_fail (decEntry_each he) le_rfl hl (.inr ⟨rfl, rfl⟩)) i hi⟩

/-- Settles O23, for the two kinds of header. -/
theorem parseRejectsEntryCount : Obligations.ParseRejectsEntryCount := by
  intro s hh
  have v1 (hv : s.inByte 1 = 1) := exec_parse_count (k := .v1) hh (by rw [hv]; rfl)
  have v2 (hv : s.inByte 1 = 2) := exec_parse_count (k := .v2) hh (by rw [hv]; rfl)
  exact ⟨fun hl => ⟨fun hv i hi => (v1 hv i hi).1 hl, fun hv i hi => (v2 hv i hi).1 hl⟩,
    fun hl => ⟨fun hv he i hi => (v1 hv i hi).2 hl he, fun hv he i hi => (v2 hv i hi).2 hl he⟩⟩

/-! ## The errors that a parse passes on -/

/-- R262: a decoding operation fails where its decoder does, with the decoder's error. -/
theorem finish_failed {α : Type} {w : ResultClass} {s u : State} {x : Except Err α} {g : α → State}
    (h : finish w s (x >>= fun a => .ok (g a)) = .next u) (hf : u.fail = true) :
    ∃ e, x = .error e ∧ u = raiseErr w e s := by
  cases x with
  | ok a => cases h; cases hf
  | error e => cases h; exact ⟨e, rfl, rfl⟩

/-- CUR is no part of the buffer. -/
theorem sameBuf_setCur (s : State) (c hi : Nat) : SameBuf { s with cur := c } s hi := ⟨rfl, rfl, fun _ _ _ => rfl⟩

/-- Settles O24: DEC_HDR at cursor 0 fails exactly with the error that the parses raise. -/
theorem parseSurfacesHeaderError : Obligations.ParseSurfacesHeaderError := by
  intro s u hx hf i hi
  obtain ⟨e, hd, rfl⟩ := finish_failed hx hf
  rw [exec_parse_headerError ((decHdr_congr (sameBuf_setCur s 0 _)).trans hd) i hi]; rfl

/-- R222, R264: the first entry that does not decode gives the parse its error. -/
theorem exec_parse_surfaces {s u : State} {k : PktKind} {n : Nat} (hh : headerOk s 0)
    (hv : verOf (s.inByte 1) = kindVersion k) (hn : n < 25) (hl : 4 + 20 * n < s.inLen)
    (he : ∀ i, i < n → entryOk k s (4 + 20 * i)) (hx : exec (decEntOp k) { s with cur := 4 + 20 * n } = .next u)
    (hf : u.fail = true) :
    ∀ i ∈ [Instr.parse, parseOp k],
      exec i s = .next (errPkt s u.errCode u.errCause u.errByte u.errValue u.errOffset) := by
  rw [exec_decEntOp] at hx
  obtain ⟨e, hd, rfl⟩ := finish_failed hx hf
  have hentry : decEntry k s (4 + 20 * n) = .error e := (decEntry_congr (sameBuf_setCur s _ _)).trans hd
  exact exec_parse_entryError hh hv (entryLoop_fail (decEntry_each he) hn.le hl (.inl ⟨hn, hentry⟩))

/-- Settles O25, for the two kinds of header. -/
theorem parseSurfacesEntryError : Obligations.ParseSurfacesEntryError := by
  intro s u n hh hn hl hf
  refine ⟨fun hv he hx => ?_, fun hv he hx => ?_⟩
  · exact exec_parse_surfaces (k := .v1) hh (by rw [hv]; rfl) hn hl he hx hf
  · exact exec_parse_surfaces (k := .v2) hh (by rw [hv]; rfl) hn hl he hx hf

/-! ## What a parse reads, and the offsets that it reports -/

/-- R231: the offsets that a parse reports with each of its errors. -/
def parseOffsetOk (s : State) (e : Err) : Prop :=
  match e with
  | .insufficientInput o => o = s.inLen ∧ s.inLen ≤ 503
  | .unknownCommandKind _ o => o = 1
  | .unknownVersion o | .mustBeDiscardedVersion o => o = 2
  | .notZeroByte _ o => o ≤ 500
  | .unknownAfi _ o => o ≤ 486
  | .emptyRipEntry o => o = 4
  | .maxRipEntries o => o = 504
  | .invalidPacket _ => True
  | .serUnknownCommandKind | .serUnknownVersion | .serUnknownAfi | .ctor _ => False
  | .illegalOp | .noPacket | .wrongPacketKind => False

section
variable {s : State} {e : Err}

/-- R231: the header's errors. -/
theorem decHdr_offset (h : decHdr s 0 = .error e) : parseOffsetOk s e := by
  rcases decHdr_error h with ⟨hl, rfl⟩ | ⟨-, -, rfl⟩ | ⟨-, -, rfl⟩ | ⟨-, -, rfl⟩
  · exact ⟨by omega, by omega⟩
  · exact rfl
  · exact (by decide : 3 ≤ 500)
  · exact (by decide : 4 ≤ 500)

/-- R126: the offset of an unlisted AFI is inside its field or one past it. -/
theorem afiErrOffset_le (mode : Config.AfiErrOffsetMode) (c : Nat) : afiErrOffset mode c ≤ c + 2 := by
  cases mode with
  | secondByte => exact Nat.le_succ (c + 1)
  | onePast => exact le_rfl

/-- R231: the errors of an entry, whichever of the 25 it is. -/
theorem decEntry_offset {k : PktKind} {n : Nat} (hn : n < 25) (hl : 4 + 20 * n < s.inLen)
    (h : decEntry k s (4 + 20 * n) = .error e) : parseOffsetOk s e := by
  rcases decEntry_error h with ⟨hs, rfl⟩ | ⟨v, rfl⟩ | ⟨j, b, hj, rfl⟩
  · exact ⟨by omega, by omega⟩
  · exact (afiErrOffset_le _ _).trans (by omega)
  · exact (by omega : j + 1 ≤ 500)

/-- R231: the errors of the entry loop. -/
theorem entryLoop_offset {k : PktKind} (h : entryLoop s (decEntry k s) 4 = .error e) : parseOffsetOk s e := by
  unfold entryLoop at h
  split at h
  · cases h; exact rfl
  · obtain ⟨n, -, hl, -, ⟨rfl, rfl⟩ | ⟨hn, hd⟩⟩ := entriesFrom_error (P := fun _ => True)
      (fun c r hr => ⟨trivial, by rw [(decEntry_inv hr).2]⟩) h
    · exact rfl
    · exact decEntry_offset hn hl hd

/-- R231: every error of a parse. -/
theorem exec_parse_offset {t : State} {i : Instr} (hi : i ∈ parseOps) (hx : exec i s = .next t)
    (hf : t.fail = true) : ∃ e, parseOffsetOk s e ∧ t = raiseErr .packet e s := by
  rcases exec_parse_cases (s := s) hi with ⟨e, hd, hs⟩ | ⟨e, he, hs⟩ | ⟨k, -, -, hs⟩
  · cases hs.symm.trans hx
    exact ⟨e, decHdr_offset hd, rfl⟩
  · cases hs.symm.trans hx
    refine ⟨e, ?_, rfl⟩
    simp only [List.mem_cons, List.not_mem_nil, or_false] at he
    rcases he with rfl | rfl | rfl
    · exact rfl
    · exact rfl
    · exact trivial
  · obtain ⟨e, hl, ht⟩ := finish_failed (hs.symm.trans hx) hf
    exact ⟨e, entryLoop_offset hl, ht⟩

/-- R231, R260: the offsets by error code. -/
theorem errOffsetOf_bounds (h : parseOffsetOk s e) :
    errOffsetOf e ≤ 504
      ∧ (errCodeOf e = 0x01 → errOffsetOf e = s.inLen ∧ s.inLen ≤ 503)
      ∧ (errCodeOf e = 0x02 → errOffsetOf e = 1)
      ∧ (errCodeOf e = 0x03 ∨ errCodeOf e = 0x04 → errOffsetOf e = 2)
      ∧ (errCodeOf e = 0x05 → errOffsetOf e ≤ 500)
      ∧ (errCodeOf e = 0x06 → errOffsetOf e ≤ 486)
      ∧ (errCodeOf e = 0x07 → errOffsetOf e = 4)
      ∧ (errCodeOf e = 0x08 → errOffsetOf e = 504) := by
  cases e with
  | insufficientInput o =>
    obtain ⟨rfl, hl⟩ := h
    simp [errCodeOf, errOffsetOf, hl]
    omega
  | unknownCommandKind _ o | unknownVersion o | mustBeDiscardedVersion o | emptyRipEntry o | maxRipEntries o =>
    simp only [parseOffsetOk] at h
    simp [errCodeOf, errOffsetOf, h]
  | notZeroByte _ o | unknownAfi _ o =>
    simp only [parseOffsetOk] at h
    simp [errCodeOf, errOffsetOf, h]
    omega
  | invalidPacket c => simp [errCodeOf, errOffsetOf]
  | serUnknownCommandKind | serUnknownVersion | serUnknownAfi | ctor | illegalOp | noPacket | wrongPacketKind => cases h

end

/-- R231: a parse reads no byte from min(IN_LEN, 504) on. -/
theorem exec_parse_sameButIn {m : Memory} {s : State} {i : Instr} (hi : i ∈ parseOps)
    (h : ∀ k, k < min s.inLen 504 → (setIn m s).inByte k = s.inByte k) :
    SameButIn m (exec i s) (exec i (setIn m s)) := by
  have hb : SameBuf s (setIn m s) 504 := ⟨rfl, rfl, fun k hk hl => h k (by omega)⟩
  simp only [parseOps, List.mem_cons, List.not_mem_nil, or_false] at hi
  rcases hi with rfl | rfl | rfl
  · exact finish_bind_sameButIn m s _ (parse_congr hb) fun _ => congrArg Except.ok (commitEnvelope_setIn m s _)
  · exact finish_bind_sameButIn m s _ (parseV1_congr hb) fun _ => rfl
  · exact finish_bind_sameButIn m s _ (parseV2_congr hb) fun _ => rfl

/-- Settles O26: by what a parse reads, and by the error that it raises. -/
theorem parseReadsAndOffsetsBounded : Obligations.ParseReadsAndOffsetsBounded := by
  refine fun s i hi => ⟨fun m h => exec_parse_sameButIn hi h, fun t hx hf => ?_⟩
  obtain ⟨e, he, rfl⟩ := exec_parse_offset hi hx hf
  exact errOffsetOf_bounds he

end Sys2Proof.Machine
end

section
/-! SUPPORT. The serializers (O27, O28, O30): the bytes of the packet that PKT denotes, and what cannot be
serialized. -/

namespace Sys2Proof.Machine

/-! ## The packet that PKT denotes -/

/-- R226: the wire bytes of PKT as a packet of a kind. -/
def pktBytes (k : PktKind) (s : State) : List Byte :=
  wireHdr s.pktCmd s.pktVer ++ (pktSlots s).flatMap (wireEntry k)

/-- R226: every enumerant of PKT that is in use has a wire value. -/
def pktNamed (s : State) : Prop :=
  s.pktCmd ≠ .unknown ∧ s.pktVer ≠ .unknown ∧ ∀ i : Fin 25, i.val < s.pktN.toNat → s.pktEnt[i].afi ≠ .unknown

section
variable {s : State}

/-- R226: a slot in use has a named AFI. -/
theorem pktNamed_slot (h : pktNamed s) {x : Slot} (hx : x ∈ pktSlots s) : x.afi ≠ .unknown := by
  obtain ⟨i, hi, rfl⟩ := mem_pktSlots.mp hx
  obtain ⟨-, -, ha⟩ := h
  exact ha i hi

/-- R48: the slots in use are as many as PKT.N says. -/
theorem pktSlots_length_eq (hn : s.pktN.toNat ≤ 25) : (pktSlots s).length = s.pktN.toNat := by
  rw [pktSlots_length, Nat.min_eq_left hn]

/-- R227: the length of a packet's bytes. -/
theorem pktBytes_length (k : PktKind) (hn : s.pktN.toNat ≤ 25) : (pktBytes k s).length = 4 + 20 * s.pktN.toNat := by
  rw [pktBytes, List.length_append, wireHdr_length, length_flatMap_20 _ (wireEntry_length k), pktSlots_length_eq hn]

/-- R226: a packet of named enumerants serializes to its bytes. -/
theorem serializeKind_ok (k : PktKind) (h : pktNamed s) : serializeKind s k = .ok (pktBytes k s) := by
  obtain ⟨hc, hv, ha⟩ := h
  cases k with
  | v1 => exact serializeV1_ok hc hv ha
  | v2 => exact serializeV2_ok hc hv ha

/-- R226: an Unknown command is judged first. -/
theorem serializeKind_command (k : PktKind) (h : s.pktCmd = .unknown) :
    serializeKind s k = .error .serUnknownCommandKind := by
  obtain ⟨h1, h2⟩ := serialize_header (.inl h)
  rw [if_pos h] at h1 h2
  cases k with
  | v1 => exact h1
  | v2 => exact h2

/-- R226: an Unknown AFI in use is judged after the header. -/
theorem serializeKind_afi (k : PktKind) (hc : s.pktCmd ≠ .unknown) (hv : s.pktVer ≠ .unknown)
    (ha : ∃ j : Fin 25, j.val < s.pktN.toNat ∧ s.pktEnt[j].afi = .unknown) :
    serializeKind s k = .error .serUnknownAfi := by
  cases k with
  | v1 => exact serializeV1_afi hc hv ha
  | v2 => exact serializeV2_afi hc hv ha

/-! ## How a serializer ends -/

/-- R227 to R229: SERIALIZE and the serializer of the packet's kind accept a valid packet. -/
theorem exec_serialize_kind {k : PktKind} (hval : s.pktValid = true) (hk : s.pktKind = k) :
    ∀ i ∈ [Instr.serialize, serOp k], exec i s = finishOut s (serializeKind s k) := by
  subst hk
  intro i hi
  refine exec_serialize hval ?_
  simp only [List.mem_cons, List.not_mem_nil, or_false] at hi
  rcases hi with rfl | rfl
  · exact .inl rfl
  · cases s.pktKind with
    | v1 => exact .inr (.inl ⟨rfl, rfl⟩)
    | v2 => exact .inr (.inr ⟨rfl, rfl⟩)

/-- R226 to R229: a valid packet of named enumerants is committed to OUT. -/
theorem exec_serialize_named {k : PktKind} (hval : s.pktValid = true) (hk : s.pktKind = k) (h : pktNamed s) :
    ∀ i ∈ [Instr.serialize, serOp k], exec i s = .next (complete (commitOut (pktBytes k s) s)) := fun i hi => by
  rw [exec_serialize_kind hval hk i hi, serializeKind_ok k h, finishOut_ok]

/-- R41: OUT_LEN after a packet's bytes were committed. -/
theorem outLen_pktBytes (k : PktKind) (hn : s.pktN.toNat ≤ 25) :
    (complete (commitOut (pktBytes k s) s)).outLen.toNat = 4 + 20 * s.pktN.toNat := by
  have hlen := pktBytes_length k hn
  rw [complete_outLen, commitOut_outLen_toNat s (by omega), hlen]

/-- R226 to R229: what a serializer leaves in OUT. -/
theorem exec_serialize_result {k : PktKind} (hval : s.pktValid = true) (hk : s.pktKind = k)
    (hn : s.pktN.toNat ≤ 25) (h : pktNamed s) :
    ∃ t, exec (serOp k) s = .next t ∧ exec .serialize s = .next t ∧ EncodedAs s t (pktBytes k s)
      ∧ t.outLen.toNat = 4 + 20 * s.pktN.toNat := by
  have hx := exec_serialize_named hval hk h
  exact ⟨_, hx _ (by simp), hx _ (by simp), encodedAs_commitOut s _, outLen_pktBytes k hn⟩

end

/-- Settles O27: the bytes of PKT as a v1 packet. -/
theorem serializeV1Result : Obligations.SerializeV1Result :=
  fun _ hval hk hn hc hv ha => exec_serialize_result hval hk hn ⟨hc, hv, ha⟩

/-- Settles O28: the bytes of PKT as a v2 packet. -/
theorem serializeV2Result : Obligations.SerializeV2Result :=
  fun _ hval hk hn hc hv ha => exec_serialize_result hval hk hn ⟨hc, hv, ha⟩

/-- Settles O30: the command is judged before the entries. -/
theorem serializeRefusesUnknown : Obligations.SerializeRefusesUnknown := by
  intro s i hval _ hi
  rw [exec_serialize hval hi]
  exact ⟨fun hc => finishOut_refused (serializeKind_command _ hc),
    fun hc hv ha => finishOut_refused (serializeKind_afi _ hc hv ha)⟩

end Sys2Proof.Machine
end

section
/-! SUPPORT. Parse and serialize undo each other (O33 to O35): a buffer holds the bytes of a packet exactly where it
parses to that packet. -/

namespace Sys2Proof.Machine

/-! ## A buffer that holds a packet -/

/-- R81 to R84: where the bytes of a packet stand, its header and its entries decode to it. -/
theorem holdsAt_pktBytes {u s : State} {k : PktKind} (h : pktNamed s) :
    holdsAt u 0 (pktBytes k s) ↔
      headerOk u 0 ∧ cmdOf (u.inByte 0) = s.pktCmd ∧ verOf (u.inByte 1) = s.pktVer
        ∧ ∀ i (hi : i < (pktSlots s).length),
            entryOk k u (4 + 20 * i) ∧ slotAt k u (4 + 20 * i) = entrySlot k (pktSlots s)[i] := by
  have hentry (i : Nat) (hi : i < (pktSlots s).length) :
      holdsAt u (4 + 20 * i) (wireEntry k (pktSlots s)[i]) ↔
        entryOk k u (4 + 20 * i) ∧ slotAt k u (4 + 20 * i) = entrySlot k (pktSlots s)[i] :=
    holdsAt_wireEntry (pktNamed_slot h (List.getElem_mem hi))
  obtain ⟨hc, hv, -⟩ := h
  rw [pktBytes, holdsAt_append, holdsAt_wireHdr hc hv, holdsAt_flatMap (wireEntry_length k), wireHdr_length]
  simp only [Nat.zero_add, hentry]
  constructor
  · rintro ⟨⟨hh, hcmd, hver⟩, -, he⟩
    exact ⟨hh, hcmd, hver, he⟩
  · rintro ⟨hh, hcmd, hver, he⟩
    exact ⟨⟨hh, hcmd, hver⟩, fun _ => hh.1, he⟩

/-! ## The packet that a parse leaves in PKT -/

/-- Laying slots over a list that is long enough puts them in front. -/
theorem overlay_take {new old : List Slot} (h : new.length ≤ old.length) : (overlay new old).take new.length = new := by
  induction new generalizing old with
  | nil => rfl
  | cons x xs ih =>
    cases old with
    | nil => cases h
    | cons y ys => exact congrArg (x :: ·) (ih (Nat.le_of_succ_le_succ h))

section
variable {k : PktKind} {n : Nat} {s : State}

/-- R48: PKT.N after a parse. -/
theorem parsedState_pktN (hm : n ≤ 25) : (parsedState k n s).pktN.toNat = n := by
  rw [parsedState, complete_pktN, commitPacket_pktN_toNat (by simpa using hm)]
  simp

/-- R48, R223: the slots in use after a parse. -/
theorem pktSlots_parsedState (hm : n ≤ 25) :
    pktSlots (parsedState k n s) = (List.range n).map fun i => slotAt k s (4 + 20 * i) := by
  rw [pktSlots, parsedState_pktN hm]
  have htake := overlay_take (new := (List.range n).map fun i => slotAt k s (4 + 20 * i)) (old := s.pktEnt.toList)
    (by simpa using hm)
  rwa [List.length_map, List.length_range] at htake

/-- R223: a parsed packet has named enumerants alone. -/
theorem pktNamed_parsedState (hm : n ≤ 25) (hh : headerOk s 0) (he : ∀ i, i < n → entryOk k s (4 + 20 * i)) :
    pktNamed (parsedState k n s) := by
  obtain ⟨-, hcmd, -⟩ := hh
  refine ⟨cmdOf_named hcmd, kindVersion_ne_unknown k, fun i hi => ?_⟩
  rw [parsedState_pktN hm] at hi
  rw [parsedState_slot, if_pos hi]
  exact entryOk_afi (he _ hi)

/-- R220, R222: what a buffer that parses holds. -/
theorem exec_parse_inv {t : State} {i : Instr} (hi : i ∈ parseOps) (hx : exec i s = .next t) (hf : t.fail = false) :
    ∃ k n, n ≤ 25 ∧ s.inLen = 4 + 20 * n ∧ headerOk s 0 ∧ verOf (s.inByte 1) = kindVersion k
      ∧ (∀ i, i < n → entryOk k s (4 + 20 * i)) ∧ t = parsedState k n s := by
  rcases exec_parse_cases (s := s) hi with ⟨e, -, hs⟩ | ⟨e, -, hs⟩ | ⟨k, hh, hv, hs⟩
  · cases hs.symm.trans hx; cases hf
  · cases hs.symm.trans hx; cases hf
  · rcases finish_cases (hs.symm.trans hx) with ⟨u, hu, rfl⟩ | ⟨e, -, rfl⟩
    · obtain ⟨r, hr, hc⟩ := bind_ok hu
      obtain ⟨n, hm, hl, he, hslots⟩ := entryLoop_entries_inv hr
      cases hc
      exact ⟨k, n, hm, hl, hh, hv, he, by rw [hslots]; rfl⟩
    · cases hf

/-- R230: a buffer that parses holds the bytes of the packet parsed. -/
theorem holdsAt_parsed (hm : n ≤ 25) (hh : headerOk s 0) (hv : verOf (s.inByte 1) = kindVersion k)
    (he : ∀ i, i < n → entryOk k s (4 + 20 * i)) : holdsAt s 0 (pktBytes k (parsedState k n s)) := by
  refine (holdsAt_pktBytes (pktNamed_parsedState hm hh he)).mpr ⟨hh, rfl, hv, fun i hi => ?_⟩
  simp only [pktSlots_parsedState hm, List.length_map, List.length_range, List.getElem_map, List.getElem_range] at hi ⊢
  exact ⟨he i hi, (entrySlot_slotAt k s _).symm⟩

end

/-- Settles O33: the buffer holds the bytes that SERIALIZE commits. -/
theorem parseThenSerialize : Obligations.ParseThenSerialize := by
  intro s t i hi hx hf
  obtain ⟨k, n, hm, hl, hh, hv, he, rfl⟩ := exec_parse_inv hi hx hf
  have hN : (parsedState k n s).pktN.toNat = n := parsedState_pktN hm
  have hnamed := pktNamed_parsedState hm hh he
  obtain ⟨u, -, hu, ⟨hok, hbytes, -⟩, hlen⟩ :=
    exec_serialize_result (s := parsedState k n s) (k := k) rfl rfl (hN.trans_le hm) hnamed
  obtain ⟨-, hheld⟩ := holdsAt_parsed hm hh hv he
  have hl' := pktBytes_length k (hN.trans_le hm)
  refine ⟨u, hu, by rw [hok]; rfl, by rw [hlen, hN, hl], fun j hj => ?_⟩
  have hj' : j < (pktBytes k (parsedState k n s)).length := by omega
  rw [hbytes j hj', ← hheld j hj', Nat.zero_add]

/-! ## Serialize, then parse -/

section
variable {s v : State} (hh : pktHeader v = pktHeader s)
include hh

/-- R48: slots in use that denote the same v1 entries denote the same v1 packet. -/
theorem pktV1_eq_of_slots (hs : pktSlots v = (pktSlots s).map (entrySlot .v1)) : pktV1 v = pktV1 s := by
  have hx (x : Slot) : slotV1 (entrySlot .v1 x) = slotV1 x := by simp [entrySlot, slotV1, slotOfV1]
  simp [pktV1, hh, hs, hx]

/-- R48: slots in use that denote the same v2 entries denote the same v2 packet. -/
theorem pktV2_eq_of_slots (hs : pktSlots v = (pktSlots s).map (entrySlot .v2)) : pktV2 v = pktV2 s := by
  have hx (x : Slot) : slotV2 (entrySlot .v2 x) = slotV2 x := by rw [entrySlot, slotOfV2_slotV2]
  simp [pktV2, hh, hs, hx]

end

/-- R230: a buffer of the bytes of a packet parses to that packet. -/
theorem exec_parse_pktBytes {u s : State} {k : PktKind} (hnamed : pktNamed s) (hver : s.pktVer = kindVersion k)
    (h1 : 1 ≤ s.pktN.toNat) (hn : s.pktN.toNat ≤ 25) (hl : u.inLen = 4 + 20 * s.pktN.toNat)
    (hheld : holdsAt u 0 (pktBytes k s)) :
    exec .parse u = .next (parsedState k s.pktN.toNat u)
      ∧ pktHeader (parsedState k s.pktN.toNat u) = pktHeader s
      ∧ pktSlots (parsedState k s.pktN.toNat u) = (pktSlots s).map (entrySlot k) := by
  obtain ⟨hh, hcmd, hv, he⟩ := (holdsAt_pktBytes hnamed).mp hheld
  have hcount := pktSlots_length_eq hn
  refine ⟨exec_parse_entries h1 hn hl hh (hv.trans hver) (fun i hi => (he i (by omega)).1) _ (by simp), ?_, ?_⟩
  · change Header.mk (cmdOf (u.inByte 0)) (kindVersion k) = ⟨s.pktCmd, s.pktVer⟩
    rw [hcmd, hver]
  · rw [pktSlots_parsedState hn]
    refine List.ext_getElem (by simp [hcount]) fun i _ hi => ?_
    rw [List.length_map] at hi
    simp only [List.getElem_map, List.getElem_range]
    exact (he i hi).2

/-- Settles O34: the bytes that SERIALIZE commits, taken as input. -/
theorem serializeThenParse : Obligations.SerializeThenParse := by
  intro s t u hval hok h1 hx hf hl hin
  obtain ⟨hn, hver⟩ := hok hval
  have hnamed : pktNamed s := serialize_named hval hx hf
  obtain ⟨k, hk⟩ : ∃ k, s.pktKind = k := ⟨_, rfl⟩
  rw [hk] at hver ⊢
  obtain ⟨t', -, hx', ⟨-, hbytes, -⟩, hlen⟩ := exec_serialize_result hval hk hn hnamed
  cases hx'.symm.trans hx
  have hlb := pktBytes_length k hn
  have hheld : holdsAt u 0 (pktBytes k s) :=
    ⟨by omega, fun j hj => by rw [Nat.zero_add, hin j (by omega), hbytes j hj]⟩
  obtain ⟨hparse, hhdr, hslots⟩ := exec_parse_pktBytes hnamed hver h1 hn (hl.trans hlen) hheld
  refine ⟨_, hparse, rfl, rfl, rfl, BitVec.eq_of_toNat_eq (parsedState_pktN hn), ?_⟩
  cases k with
  | v1 => exact pktV1_eq_of_slots hhdr hslots
  | v2 => exact pktV2_eq_of_slots hhdr hslots

/-- Settles O35: without entries the bytes are the header alone, after which the parse finds the buffer's end. -/
theorem emptyPacketDoesNotRoundTrip : Obligations.EmptyPacketDoesNotRoundTrip := by
  intro s u hval hok hn hc hheld hl
  obtain ⟨-, hver⟩ := hok hval
  have hv : s.pktVer ≠ .unknown := hver ▸ kindVersion_ne_unknown s.pktKind
  have hN : s.pktN.toNat = 0 := by rw [hn]; rfl
  have hbytes : pktBytes s.pktKind s = wireHdr s.pktCmd s.pktVer := by simp [pktBytes, pktSlots, hn]
  constructor
  · obtain ⟨t, -, hx, henc, -⟩ := exec_serialize_result hval rfl (by omega) ⟨hc, hv, fun i hi => by omega⟩
    exact ⟨t, hx, hbytes ▸ henc⟩
  · obtain ⟨hh, -, hver'⟩ := (holdsAt_wireHdr hc hv).mp hheld
    exact (exec_parse_count hh (hver'.trans hver) _ (by simp)).1 hl

end Sys2Proof.Machine
end

section
/-! SUPPORT. How an operation ends and how it fails (O29, O36 to O39): a failure raises one error in the operation's
class, whose writes are those of R262; the refusals of the serializers and of the START strobe are such errors. -/

namespace Sys2Proof.Machine

/-! ## Completion -/

/-- Settles O36: an operation completes with a result or raises an error. -/
theorem everyOperationEndsDone : Obligations.EveryOperationEndsDone := by
  intro i s
  obtain ⟨t, hx⟩ := exec_total i s
  refine ⟨t, hx, ?_⟩
  rcases exec_cases hx with ⟨u, rfl, -⟩ | ⟨e, rfl, -⟩
  · exact ⟨rfl, statusWord_done false, fun _ => ⟨rfl, rfl, rfl, rfl, rfl⟩⟩
  · exact ⟨rfl, statusWord_done true, fun hf => by cases hf⟩

/-! ## Failure -/

/-- R260, R262: a failed operation has raised one error, of the codes that the table lists it under. -/
theorem exec_failed {i : Instr} {s t : State} (hx : exec i s = .next t) (hf : t.fail = true) :
    ∃ e, (PktOk s → errCodeOf e ∈ raises i) ∧ t = raiseErr (resultClass i) e s := by
  cases exec_ends hx with
  | raised e hc => exact ⟨e, hc, rfl⟩
  | fv | skipped | hr | er | out | made | parsed => cases hf

/-- R262: a failure clears OUT_LEN for exactly the operations that write OUT. -/
theorem resultClass_eq_out_iff (i : Instr) : resultClass i = .out ↔ writesOut i = true := by
  refine ⟨fun h => ?_, resultClass_of_writesOut⟩
  by_contra ho
  rw [resultClass, if_neg ho] at h
  split at h <;> cases h

/-- R262: a failure clears PKT.VALID for exactly the operations that write PKT. -/
theorem resultClass_eq_packet_iff (i : Instr) : resultClass i = .packet ↔ writesPkt i = true := by
  refine ⟨fun h => ?_, fun h => (class_of_writesPkt h).1⟩
  by_contra hp
  exact resultClass_ne_packet (Bool.eq_false_iff.mpr hp) h

/-- R262: the writes of a raised error, by what the operation writes. -/
theorem raiseErr_resultClass (i : Instr) (e : Err) (s : State) :
    raiseErr (resultClass i) e s =
      { errEnd s (errCodeOf e) (errCauseOf e) (errByteOf e) (errValueOf e) (errOffsetOf e) with
        outLen := if writesOut i then 0 else s.outLen,
        pktValid := if writesPkt i then false else s.pktValid } := by
  rw [← if_congr (resultClass_eq_out_iff i) rfl rfl, ← if_congr (resultClass_eq_packet_iff i) rfl rfl]
  rfl

/-- Settles O37: the ERR registers of the next state are those of the raised error. -/
theorem failureBookkeeping : Obligations.FailureBookkeeping := by
  intro i s t hx hf
  obtain ⟨e, -, rfl⟩ := exec_failed hx hf
  exact raiseErr_resultClass i e s

/-- Settles O38: the code is one of the operation's, and every error fits the table. -/
theorem errorCodesOfTable : Obligations.ErrorCodesOfTable := by
  intro i s t hok hx hf
  obtain ⟨e, hc, rfl⟩ := exec_failed hx hf
  exact ⟨hc hok, raiseErr_errOk _ e s⟩

/-! ## The refusals of the serializers -/

/-- R266: without a packet each serializer raises NoPacket. -/
theorem exec_serialize_noPacket {s : State} (hv : s.pktValid = false) :
    ∀ i ∈ [Instr.serV1, .serV2, .serialize], exec i s = finishOut s (.error .noPacket) := by
  intro i hi
  simp only [List.mem_cons, List.not_mem_nil, or_false] at hi
  rcases hi with rfl | rfl | rfl
  · rw [exec, execSerV1, if_pos hv]
  · rw [exec, execSerV2, if_pos hv]
  · rw [exec, execSerialize, if_pos hv]

/-- R266: the serializer of a kind raises WrongPacketKind on a packet of the other. -/
theorem exec_serOp_wrongKind {s : State} {k : PktKind} (hv : s.pktValid = true) (hk : s.pktKind ≠ k) :
    exec (serOp k) s = finishOut s (.error .wrongPacketKind) := by
  have hv' : ¬ s.pktValid = false := by rw [hv]; decide
  cases k with
  | v1 => rw [serOp, exec, execSerV1, if_neg hv', if_pos hk]
  | v2 => rw [serOp, exec, execSerV2, if_neg hv', if_pos hk]

/-- Settles O29: both errors have a code alone. -/
theorem serializeRefusesOtherPacket : Obligations.SerializeRefusesOtherPacket := by
  refine fun s => ⟨fun hv i hi => ?_, fun hv hk => ?_, fun hv hk => ?_⟩
  · exact (exec_serialize_noPacket hv i hi).trans (finishOut_refused rfl)
  · exact (exec_serOp_wrongKind (k := .v1) hv (by rw [hk]; decide)).trans (finishOut_refused rfl)
  · exact (exec_serOp_wrongKind (k := .v2) hv (by rw [hk]; decide)).trans (finishOut_refused rfl)

/-! ## IllegalOp -/

/-- R265: START with an unassigned OP. -/
theorem startOp_unassigned {s : State} (hd : decodeOp s.op = none) : startOp s = .next (illegalOp s) := by
  rcases startOp_cases s with ⟨i, hi, -⟩ | ⟨-, hs⟩
  · cases hd.symm.trans hi
  · exact hs

/-- R265: IllegalOp writes STATUS and the ERR registers only. -/
theorem illegalOp_eq (s : State) : illegalOp s = errEnd s 0x30 0 0 0 0 := rfl

/-- R33, R265: the START strobe outside BUSY with an unassigned OP. -/
theorem writeCtrl_unassigned {s : State} {v : Word} (hd : decodeOp s.op = none) (hv : v.getLsbD 0 = true)
    (hs : s.runState ≠ .busy) : writeCtrl v s = .next (errEnd s 0x30 0 0 0 0) := by
  rw [writeCtrl, if_pos hv, if_neg hs, startOp_unassigned hd, illegalOp_eq]

/-- Settles O39: OP resets to 0x00, which the table does not assign. -/
theorem illegalOpResult : Obligations.IllegalOpResult := by
  refine ⟨fun s v hd hv hs => ?_, ?_⟩
  · exact (busWriteReg_ctrl v s).trans (writeCtrl_unassigned hd hv hs)
  · exact (busWriteReg_ctrl 1 _).trans (writeCtrl_unassigned rfl rfl (by decide))

end Sys2Proof.Machine
end

section
/-! SUPPORT. Reset and the host's duties (70_reset_and_hazards): what every register holds after reset (O52), and when
a host action has a next state (O58). One rule per write operation of the bus says when it stops. -/

namespace Sys2Proof.Machine

/-! ## Reset -/

/-- R290: after power-on and after a reset in any state, all but the parameters and the model's own fields is as in
`State.reset`. -/
theorem registers_of_reset {s : State} (h : s = State.reset ∨ ∃ s0, s = resetBlock s0) :
    ∃ p acts words epoch draws,
      s = { State.reset with par := p, pending := acts, seen := words, epoch := epoch, draws := draws } := by
  rcases h with rfl | ⟨s0, rfl⟩
  · exact ⟨_, _, _, _, _, rfl⟩
  · exact ⟨_, _, _, _, _, rfl⟩

/-- Settles O52: power-on and reset leave the registers of `State.reset`. -/
theorem resetValues : Obligations.ResetValues := by
  intro s h
  obtain ⟨p, acts, words, epoch, draws, rfl⟩ := registers_of_reset h
  exact ⟨rfl, rfl, rfl, rfl, rfl, rfl, rfl, rfl, rfl, rfl, rfl, rfl, rfl, rfl, rfl, rfl, rfl, rfl, rfl, rfl, rfl, rfl,
    rfl, rfl, rfl, rfl, rfl, rfl, fun i => Vector.getElem_replicate i.isLt⟩

/-! ## When a host action has a next state -/

section
variable {s : State}

/-- n6: a fault has no next state. -/
theorem fault_hasNoNext (f : Fault) : ¬ ∃ t : State, (.fault f : Host.Outcome State Fault Refusal) = .next t := by
  rintro ⟨t, h⟩
  cases h

/-- R295: a stored write has a next state outside BUSY only. -/
theorem unlessBusy_hasNext {t : State} : (∃ u, unlessBusy s t = .next u) ↔ s.runState ≠ .busy :=
  ⟨fun ⟨_, h⟩ => (unlessBusy_next.mp h).1, fun h => ⟨t, unlessBusy_ok h⟩⟩

/-- R33, R265: START always has a next state, because an operation has one in every state. -/
theorem startOp_total (s : State) : ∃ t, startOp s = .next t := by
  rcases startOp_cases s with ⟨i, -, hs⟩ | ⟨-, hs⟩
  · exact hs ▸ exec_total i s
  · exact ⟨_, hs⟩

/-- R33, R295, n8: a write to CTRL stops on a START while BUSY only. -/
theorem writeCtrl_hasNext {v : Word} :
    (∃ t, writeCtrl v s = .next t) ↔ (s.runState = .busy → v.getLsbD 0 = false) := by
  cases hv : v.getLsbD 0 with
  | false => exact ⟨fun _ _ => rfl, fun _ => ⟨s, writeCtrl_zero hv s⟩⟩
  | true =>
    by_cases hb : s.runState = .busy
    · rw [writeCtrl_busy hb hv]
      exact ⟨fun h => absurd h (fault_hasNoNext _), fun h => Bool.noConfusion (h hb)⟩
    · rw [writeCtrl, if_pos hv, if_neg hb]
      exact ⟨fun _ h => absurd h hb, fun _ => startOp_total s⟩

variable (hp : s.par.wf = true)
include hp

/-- R40, R294, n7: a write to IN_LEN has a next state outside BUSY, for a length within IN_CAP on its W_LEN bits. -/
theorem writeInLen_hasNext {v : Word} :
    (∃ t, writeInLen v s = .next t) ↔ cutLen s.par v ≤ s.par.inCap ∧ s.runState ≠ .busy := by
  rw [writeInLen_eq hp, ← cutLen_eq hp]
  split
  case isTrue hl => exact unlessBusy_hasNext.trans (and_iff_right hl).symm
  case isFalse hl => exact ⟨fun h => absurd h (fault_hasNoNext _), fun h => absurd h.1 hl⟩

/-- R294: a write to a register stops on a length above IN_CAP, and while BUSY unless it is ignored. -/
theorem regWrite_hasNext {r : Reg} {v : Word} :
    (∃ t, regWrite r v s = .next t)
      ↔ (r = .inLen → cutLen s.par v ≤ s.par.inCap)
        ∧ (s.runState = .busy → regReadOnly r = true ∨ (r = .ctrl ∧ v.getLsbD 0 = false)) := by
  cases r with
  | ctrl => exact writeCtrl_hasNext.trans (by simp [regReadOnly])
  | inLen => exact (writeInLen_hasNext hp).trans (by simp [regReadOnly])
  | status | errCode | errCause | errByte | errValue | errOffset | outLen | pktValid | pktKind =>
    exact ⟨fun _ => ⟨nofun, fun _ => .inl rfl⟩, fun _ => ⟨s, rfl⟩⟩
  | _ => exact unlessBusy_hasNext.trans (by simp [regReadOnly])

/-- R51, R294: a write to the register space; an unmapped number ignores it. -/
theorem busWriteReg_hasNext {n : Nat} {v : Word} :
    (∃ t, busWriteReg n v s = .next t) ↔ hostDuty s (.writeReg n v) := by
  cases hr : regAt n with
  | none => simp [busWriteReg, hostDuty, hr]
  | some r =>
    rw [busWriteReg_at hr]
    exact (regWrite_hasNext hp).trans (by simp [hostDuty, hr])

/-- R60, R295, n8: a write to the IN space stops while BUSY, at an index that exists. -/
theorem busWriteIn_hasNext {k : Nat} {b : Byte} :
    (∃ t, busWriteIn k b s = .next t) ↔ (s.runState = .busy → s.par.inCap ≤ k) := by
  unfold busWriteIn
  split
  case isTrue hk =>
    have hlt := (inMapped_iff hp k).mp hk
    exact unlessBusy_hasNext.trans ⟨fun h hb => absurd hb h, fun h hb => Nat.not_lt.mpr (h hb) hlt⟩
  case isFalse hk => exact ⟨fun _ _ => Nat.le_of_not_lt (mt (inMapped_iff hp k).mpr hk), fun _ => ⟨s, rfl⟩⟩

/-- R294, n6: an action of the host has a next state exactly when it keeps the host's duties; only writes have any. -/
theorem busAct_hasNext {a : BusAction} : (∃ t, busAct a s = .next t) ↔ hostDuty s a := by
  cases a with
  | writeReg n v => exact busWriteReg_hasNext hp
  | writeIn k b => exact busWriteIn_hasNext hp
  | readReg | readIn | writeOut | readOut | wait | reset => exact ⟨fun _ => trivial, fun _ => ⟨_, rfl⟩⟩

end

/-- Settles O58: a step is the host's next action, and the duties do not look at the host's list. -/
theorem stopsOnlyOnBrokenDuty : Obligations.StopsOnlyOnBrokenDuty := by
  intro s a rest hp hpend
  rw [step_cons hpend]
  exact busAct_hasNext (s := { s with pending := rest }) hp

end Sys2Proof.Machine
end
